-- ==== Sys2Proof/Word.lean ====
section
/-! DEFINITION. The word types of the OAE and their plainest arithmetic: the 8-bit hidden value of an Encrypted
Byte (spec/00_scope.md R8, section 5.1), the 32-bit command word, status word and counters (R7 `CMDW`, `CNTW`),
and the 4-bit round number (spec/10_state.md R46). -/
namespace Sys2Proof

/-- A byte value, an integer in [0,255]; bit 0 is the least significant (00_scope section 5.1, R9). -/
abbrev Byte := BitVec 8

/-- A 32-bit value: a command word (R83), `SR` (R43), one operation counter (R49), a response's `data` (R80). -/
abbrev Word := BitVec 32

/-- The round number of the sequencer position, 4 bits (R46). -/
abbrev Round := BitVec 4

/-- `popcount(k)`, the number of 1 bits of a byte (00_scope section 5.1). -/
def popcount (k : Byte) : Nat :=
  (List.range 8).countP fun i => k.getLsbD i

end Sys2Proof
end

