-- ==== Sys2Proof/Syntax.lean ====
section
/-! DEFINITION. The commands of the OAE as an inductive type: one constructor per row of spec/opcode_table.json
(spec/30_encoding.md R85). An operand is the unsigned value of its 8-bit field, used as is (R84); whether an index
is in range is checked by the command (R86), so it is no part of the syntax. -/
namespace Sys2Proof

/-- The twenty-one commands (R85). -/
inductive Instr where
  /-- `NOP` (R160). -/
  | nop
  /-- `RDSR` (R161). -/
  | rdsr
  /-- `RDCNT k` (R162). -/
  | rdcnt (k : Byte)
  /-- `CLRCNT` (R163). -/
  | clrcnt
  /-- `SRST` (R164). -/
  | srst
  /-- `PUT d` (R100). -/
  | put (d : Byte)
  /-- `GET s` (R101). -/
  | get (s : Byte)
  /-- `ENCC d, imm8` (R102). -/
  | encc (d imm : Byte)
  /-- `MOV d, s` (R103). -/
  | mov (d s : Byte)
  /-- `XORB d, a, b` (R120). -/
  | xorb (d a b : Byte)
  /-- `SBOX d, s` (R111). -/
  | sbox (d s : Byte)
  /-- `GMUL d, s, k` (R122). -/
  | gmul (d s k : Byte)
  /-- `LDST` (R104). -/
  | ldst
  /-- `STST` (R105). -/
  | stst
  /-- `SUBB` (R112). -/
  | subb
  /-- `SHROW` (R123). -/
  | shrow
  /-- `MIXC` (R124). -/
  | mixc
  /-- `ARK n` (R125). -/
  | ark (n : Byte)
  /-- `RDRK n` (R137). -/
  | rdrk (n : Byte)
  /-- `KEYEXP` (R135). -/
  | keyexp
  /-- `ENCBLK` (R145). -/
  | encblk
  deriving DecidableEq, Repr

end Sys2Proof
end

