-- ==== Sys2Proof/WellFormed.lean ====
section
/-! DEFINITION. Well-formedness of a command: every index operand is in the legal range of its index space
(spec/30_encoding.md R86, spec/20_memory.md R61). A command that is not well formed is still a command: it decodes
and is answered `BAD_INDEX` (spec/60_exceptions.md R173). -/
namespace Sys2Proof

/-- A `B` index is at most 15 (R86). -/
def bufferIndexOk (j : Byte) : Bool := decide (j.toNat ≤ 15)

/-- A round-key index is at most 10 (R86). -/
def roundKeyIndexOk (n : Byte) : Bool := decide (n.toNat ≤ 10)

/-- A counter index is at most 6 (R86). -/
def counterIndexOk (k : Byte) : Bool := decide (k.toNat ≤ 6)

/-- Every index operand of the command is in range; `imm8` and the `k` of `GMUL` are never out of range (R86). -/
def Instr.wf : Instr → Bool
  | .nop => true
  | .rdsr => true
  | .rdcnt k => counterIndexOk k
  | .clrcnt => true
  | .srst => true
  | .put d => bufferIndexOk d
  | .get s => bufferIndexOk s
  | .encc d _ => bufferIndexOk d
  | .mov d s => bufferIndexOk d && bufferIndexOk s
  | .xorb d a b => bufferIndexOk d && bufferIndexOk a && bufferIndexOk b
  | .sbox d s => bufferIndexOk d && bufferIndexOk s
  | .gmul d s _ => bufferIndexOk d && bufferIndexOk s
  | .ldst => true
  | .stst => true
  | .subb => true
  | .shrow => true
  | .mixc => true
  | .ark n => roundKeyIndexOk n
  | .rdrk n => roundKeyIndexOk n
  | .keyexp => true
  | .encblk => true

end Sys2Proof
end

