-- ==== Sys2Proof/Decode.lean ====
section
/-! DEFINITION. The decoder and the encoder of command words, from spec/30_encoding.md R83 to R87 and the opcode
map R85. The decoder is total: every 32-bit word is exactly one command or is rejected by name (R87). A command
word is one 32-bit value, not a sequence of bytes (spec/20_memory.md R65), so there is no byte order. -/
namespace Sys2Proof

/-- Why a word is illegal (R87); both raise `ILLEGAL_CMD` (R172). -/
inductive DecodeError where
  /-- `OPC` is none of the twenty-one of R85. -/
  | reservedOpcode
  /-- A field that the command's format does not use is nonzero (R83). -/
  | unusedFieldNonzero
  deriving DecidableEq, Repr

/-- `OPC = cmd[31:24]` (R83). -/
def opcodeOf (w : Word) : Byte := w.extractLsb' 24 8

/-- `A = cmd[23:16]` (R83). -/
def fieldA (w : Word) : Byte := w.extractLsb' 16 8

/-- `Bf = cmd[15:8]` (R83). -/
def fieldB (w : Word) : Byte := w.extractLsb' 8 8

/-- `C = cmd[7:0]` (R83). -/
def fieldC (w : Word) : Byte := w.extractLsb' 0 8

/-- A command word from its four fields, `OPC` highest (R83). -/
def wordOf (opc a b c : Byte) : Word := opc ++ a ++ b ++ c

/-- The command, if every field its format does not use is zero (R83, R87). -/
def ifZero (unused : Bool) (i : Instr) : Except DecodeError Instr :=
  if unused then .ok i else .error .unusedFieldNonzero

/-- Decoding from the four fields, by the opcode map (R85) and the formats `Z`, `A`, `AC`, `AB`, `ABC` (R83). -/
def decodeFields (opc a b c : Byte) : Except DecodeError Instr :=
  let z := a == 0 && b == 0 && c == 0
  let onlyA := b == 0 && c == 0
  let onlyAC := b == 0
  let onlyAB := c == 0
  if opc = 0x00#8 then ifZero z .nop
  else if opc = 0x01#8 then ifZero z .rdsr
  else if opc = 0x02#8 then ifZero onlyA (.rdcnt a)
  else if opc = 0x03#8 then ifZero z .clrcnt
  else if opc = 0x04#8 then ifZero z .srst
  else if opc = 0x10#8 then ifZero onlyA (.put a)
  else if opc = 0x11#8 then ifZero onlyA (.get a)
  else if opc = 0x12#8 then ifZero onlyAC (.encc a c)
  else if opc = 0x13#8 then ifZero onlyAB (.mov a b)
  else if opc = 0x20#8 then .ok (.xorb a b c)
  else if opc = 0x21#8 then ifZero onlyAB (.sbox a b)
  else if opc = 0x22#8 then .ok (.gmul a b c)
  else if opc = 0x30#8 then ifZero z .ldst
  else if opc = 0x31#8 then ifZero z .stst
  else if opc = 0x32#8 then ifZero z .subb
  else if opc = 0x33#8 then ifZero z .shrow
  else if opc = 0x34#8 then ifZero z .mixc
  else if opc = 0x35#8 then ifZero onlyA (.ark a)
  else if opc = 0x36#8 then ifZero onlyA (.rdrk a)
  else if opc = 0x40#8 then ifZero z .keyexp
  else if opc = 0x41#8 then ifZero z .encblk
  else .error .reservedOpcode

/-- The decoder: total on every 32-bit word (R87). -/
def decode (w : Word) : Except DecodeError Instr :=
  decodeFields (opcodeOf w) (fieldA w) (fieldB w) (fieldC w)

/-- The encoder: the word of a command, from the same table (R85). -/
def encode : Instr → Word
  | .nop => wordOf 0x00 0 0 0
  | .rdsr => wordOf 0x01 0 0 0
  | .rdcnt k => wordOf 0x02 k 0 0
  | .clrcnt => wordOf 0x03 0 0 0
  | .srst => wordOf 0x04 0 0 0
  | .put d => wordOf 0x10 d 0 0
  | .get s => wordOf 0x11 s 0 0
  | .encc d imm => wordOf 0x12 d 0 imm
  | .mov d s => wordOf 0x13 d s 0
  | .xorb d a b => wordOf 0x20 d a b
  | .sbox d s => wordOf 0x21 d s 0
  | .gmul d s k => wordOf 0x22 d s k
  | .ldst => wordOf 0x30 0 0 0
  | .stst => wordOf 0x31 0 0 0
  | .subb => wordOf 0x32 0 0 0
  | .shrow => wordOf 0x33 0 0 0
  | .mixc => wordOf 0x34 0 0 0
  | .ark n => wordOf 0x35 n 0 0
  | .rdrk n => wordOf 0x36 n 0 0
  | .keyexp => wordOf 0x40 0 0 0
  | .encblk => wordOf 0x41 0 0 0

/-- One row of the opcode map (R85): a word `w` is the command iff `w AND mask = bits`. -/
structure OpcodeRow where
  mnemonic : String
  bits : Word
  mask : Word
  deriving DecidableEq, Repr

/-- The opcode map, its control and movement rows (R85). -/
def opcodeRowsLow : List OpcodeRow :=
  [⟨"NOP", 0x00000000, 0xFFFFFFFF⟩, ⟨"RDSR", 0x01000000, 0xFFFFFFFF⟩, ⟨"RDCNT", 0x02000000, 0xFF00FFFF⟩,
    ⟨"CLRCNT", 0x03000000, 0xFFFFFFFF⟩, ⟨"SRST", 0x04000000, 0xFFFFFFFF⟩, ⟨"PUT", 0x10000000, 0xFF00FFFF⟩,
    ⟨"GET", 0x11000000, 0xFF00FFFF⟩, ⟨"ENCC", 0x12000000, 0xFF00FF00⟩, ⟨"MOV", 0x13000000, 0xFF0000FF⟩]

/-- The opcode map, its byte-unit, state-stage and composite rows (R85). -/
def opcodeRowsHigh : List OpcodeRow :=
  [⟨"XORB", 0x20000000, 0xFF000000⟩, ⟨"SBOX", 0x21000000, 0xFF0000FF⟩, ⟨"GMUL", 0x22000000, 0xFF000000⟩,
    ⟨"LDST", 0x30000000, 0xFFFFFFFF⟩, ⟨"STST", 0x31000000, 0xFFFFFFFF⟩, ⟨"SUBB", 0x32000000, 0xFFFFFFFF⟩,
    ⟨"SHROW", 0x33000000, 0xFFFFFFFF⟩, ⟨"MIXC", 0x34000000, 0xFFFFFFFF⟩, ⟨"ARK", 0x35000000, 0xFF00FFFF⟩,
    ⟨"RDRK", 0x36000000, 0xFF00FFFF⟩, ⟨"KEYEXP", 0x40000000, 0xFFFFFFFF⟩, ⟨"ENCBLK", 0x41000000, 0xFFFFFFFF⟩]

/-- The opcode map (R85). -/
def opcodeMap : List OpcodeRow := opcodeRowsLow ++ opcodeRowsHigh

/-- `w` is the command of this row (R85). -/
def OpcodeRow.matches (r : OpcodeRow) (w : Word) : Bool := w &&& r.mask == r.bits

/-- The command's mnemonic (R85, R89). -/
def Instr.mnemonic : Instr → String
  | .nop => "NOP"
  | .rdsr => "RDSR"
  | .rdcnt _ => "RDCNT"
  | .clrcnt => "CLRCNT"
  | .srst => "SRST"
  | .put _ => "PUT"
  | .get _ => "GET"
  | .encc _ _ => "ENCC"
  | .mov _ _ => "MOV"
  | .xorb _ _ _ => "XORB"
  | .sbox _ _ => "SBOX"
  | .gmul _ _ _ => "GMUL"
  | .ldst => "LDST"
  | .stst => "STST"
  | .subb => "SUBB"
  | .shrow => "SHROW"
  | .mixc => "MIXC"
  | .ark _ => "ARK"
  | .rdrk _ => "RDRK"
  | .keyexp => "KEYEXP"
  | .encblk => "ENCBLK"

/-- The operands in the order `A`, `Bf`, `C` (R89). -/
def Instr.operands : Instr → List Byte
  | .nop => []
  | .rdsr => []
  | .rdcnt k => [k]
  | .clrcnt => []
  | .srst => []
  | .put d => [d]
  | .get s => [s]
  | .encc d imm => [d, imm]
  | .mov d s => [d, s]
  | .xorb d a b => [d, a, b]
  | .sbox d s => [d, s]
  | .gmul d s k => [d, s, k]
  | .ldst => []
  | .stst => []
  | .subb => []
  | .shrow => []
  | .mixc => []
  | .ark n => [n]
  | .rdrk n => [n]
  | .keyexp => []
  | .encblk => []

/-- A command as one line of assembler text: the mnemonic, then the operands in decimal, separated by commas (R89). -/
def Instr.text (i : Instr) : String :=
  match i.operands with
  | [] => i.mnemonic
  | ops => i.mnemonic ++ " " ++ String.intercalate ", " (ops.map fun b => toString b.toNat)

/-- `ADDB d, a, b` (R90). -/
def pseudoAddb (d a b : Byte) : List Instr := [.xorb d a b]

/-- `XTIME d, s` (R90). -/
def pseudoXtime (d s : Byte) : List Instr := [.gmul d s 2]

/-- `CLRB d` (R90). -/
def pseudoClrb (d : Byte) : List Instr := [.encc d 0]

/-- `ROUND n`, one main round by hand, `n` in 1..9 (R90). -/
def pseudoRound (n : Byte) : List Instr := [.subb, .shrow, .mixc, .ark n]

/-- `FROUND`, the final round by hand (R90). -/
def pseudoFround : List Instr := [.subb, .shrow, .ark 10]

/-- The command word that the opcode table's numbering gives: bit 0 of `w` is bit 0 of the one 32-bit word, and
every bit above `nbits` is 0. -/
def tableWord (nbits w : Nat) : Word := BitVec.ofNat 32 (w % 2 ^ nbits)

/-- The instruction the decoder reads from a table word. -/
def decodeTableWord (nbits w : Nat) : Option Instr :=
  match decode (tableWord nbits w) with
  | .ok i => some i
  | .error _ => none

end Sys2Proof
end

