-- ==== Sys2Proof/Config.lean ====
section
/-! DEFINITION. What is fixed for the machine and what the spec leaves open: the parameters of
spec/00_scope.md R6 and R7, the open parameter `Scheme` (Encrypted Bytes and Bits, the primitives and their
invocations: R8 to R22), and the FREE VALUES, opaque constants that nothing can evaluate. -/
namespace Sys2Proof

/-- An Encrypted Byte (R8): its hidden value `val`, which no agent inside the OAE can compute, and the ciphertext
that carries it, here a number of no fixed width.
Two Encrypted Bytes with equal hidden values need not be equal (R22). DESIGN CHOICE, log entry 1. -/
structure Ct where
  hidden : Byte
  bits : Nat
  deriving DecidableEq, Repr

/-- An Encrypted Bit (R8, R12): its hidden value `bval` and the ciphertext that carries it. -/
structure Cb where
  hidden : Bool
  bits : Nat
  deriving DecidableEq, Repr

/-- A primitive invocation with its arguments (R11 to R19). `select` (R13) is in the contract and is never issued.
A shift amount is 0 to 7: the OAE never issues another and the spec gives no law for one (R16, R17, U7).
DEDUCED, log entry 10. -/
inductive Prim where
  | encp (v : Byte)
  | eq (a b : Ct)
  | select (m : Cb) (x y : Ct)
  | cadd (m : Cb) (acc t : Ct)
  | add (a b : Ct)
  | shl (a : Ct) (n : Fin 8)
  | shr (a : Ct) (n : Fin 8)
  | andc (a : Ct) (k : Byte)
  | mulc (a : Ct) (k : Byte)
  deriving DecidableEq, Repr

/-- What of a primitive invocation is public: its kind and its public operand (R23). -/
inductive PubOp where
  | encp (v : Byte)
  | eq
  | select
  | cadd
  | add
  | shl (n : Fin 8)
  | shr (n : Fin 8)
  | andc (k : Byte)
  | mulc (k : Byte)
  deriving DecidableEq, Repr

/-- The public part of an invocation (R23). -/
def Prim.pub : Prim → PubOp
  | .encp v => .encp v
  | .eq _ _ => .eq
  | .select _ _ _ => .select
  | .cadd _ _ _ => .cadd
  | .add _ _ => .add
  | .shl _ n => .shl n
  | .shr _ n => .shr n
  | .andc _ k => .andc k
  | .mulc _ k => .mulc k

/-- The name of one primitive invocation: the command or sequencer step that issues it (numbered by
`State.stepNo`), the lane inside the step (lanes are independent, R25), and its place in the lane's chain.
The numbering of lanes is a DESIGN CHOICE, log entry 7. -/
structure InvId where
  step : Nat
  lane : Nat
  idx : Nat
  deriving DecidableEq, Repr

namespace Config

/-- `NR`, the number of rounds (R6). -/
def rounds : Nat := 10

/-- `NB = NK`, the bytes of a block and of a key (R6). -/
def blockBytes : Nat := 16

/-- `NRK`, the number of round keys (R6). -/
def roundKeys : Nat := 11

/-- `NW`, the number of key-schedule words (R6). -/
def scheduleWords : Nat := 44

/-- FREE VALUE (R22, U5; log entry 1): the ciphertext that an invocation of a primitive returns. Only its hidden
value is determined by the spec. -/
opaque ctBits : InvId → Prim → Nat

/-- FREE VALUE (R177, R178, U2; log entry 3): what counter `k` holds after a fault, and what a read of it in phase
`FAULT` returns, in the command or step of this number. -/
opaque faultCount : Nat → Fin 7 → Word

end Config

end Sys2Proof
end

