-- ==== Sys2Proof/Machine/State.lean ====
section
/-! DEFINITION. The state of one OAE as plain data (spec/10_state.md R30 to R52), with the model's own fields for
the agents around it (spec/00_scope.md R24): the command port, the outside's coming actions, the external scheme's
failures and the number of the next step. The capital field names are the spec's state; the others the model's. -/
namespace Sys2Proof.Machine

/-- A cell holds exactly one Encrypted Byte or no value (`none`, R34). -/
abbrev Cell := Option Ct

/-- Sixteen cells: the block buffer (R31) or one round key (R33). -/
abbrev Block := Vector Cell 16

/-- The state matrix, `S[r][c]` with row `r` first (R32). -/
abbrev Matrix := Vector (Vector Cell 4) 4

/-- The sequencer phases (R47). -/
inductive Phase where
  | idle
  | load
  | whitened
  | main
  | final
  | done
  | keyx
  | fault
  deriving DecidableEq, Repr

/-- The stages of a round (R46). -/
inductive Stage where
  | sub
  | shr
  | mix
  | ark
  deriving DecidableEq, Repr

/-- The response status codes 0 to 7 and the values of `SR.ERR` (R170); there are no others (U9). -/
inductive Status where
  | ok
  | illegalCmd
  | badIndex
  | unwritten
  | badSize
  | noKey
  | primFail
  | faulted
  deriving DecidableEq, Repr

/-- What a command transaction returns (R80): `status`, `data`, and `dout` (present for `GET` with `OK` only). -/
structure Response where
  status : Status
  data : Word
  dout : Option Ct
  deriving DecidableEq, Repr

/-- What the outside does next (R24, R71, R195): the host presents a command transaction, hard reset is asserted,
or neither acts and the sequencer has its turn. -/
inductive Event where
  | present (cmd : Word) (din : Ct)
  | hardReset
  | sequencer
  deriving DecidableEq, Repr

/-- The state of the machine. -/
structure State where
  /-- Block buffer `B[0..15]` (R31). -/
  B : Block
  /-- State matrix `S[r][c]` (R32). -/
  S : Matrix
  /-- Expanded-key store `RK[n][j]` (R33). -/
  RK : Vector Block 11
  /-- `SR.KEYV` (R48). -/
  KEYV : Bool
  /-- `SR.ERR`, the first error since reset (R45). -/
  ERR : Status
  /-- `SR.PHASE` (R47); `SR.BUSY` is computed from it (R44). -/
  PHASE : Phase
  /-- `SR.ROUND` (R46). -/
  ROUND : Round
  /-- `SR.STAGE` (R46). -/
  STAGE : Stage
  /-- Operation counters `CNT[0..6]` (R49). -/
  CNT : Vector Word 7
  /-- Command port: the word of the one outstanding transaction, if there is one (R80, R82). -/
  cmd : Option Word
  /-- Command port: the Encrypted Byte on `din` (R80), meaningful for `PUT` only. -/
  din : Ct
  /-- Command port: the response to the transaction presented last, `none` while it is outstanding (R80). -/
  resp : Option Response
  /-- The outside's coming actions, the next one first (log entry 4). -/
  script : List Event
  /-- The invocations that the external scheme will fail (R21, U4; log entry 2). -/
  failures : List InvId
  /-- The number of the next command or sequencer step; it names the free draws (log entry 1). -/
  stepNo : Nat
  deriving DecidableEq, Repr

/-- The machine stops with one of these only in states that no run reaches (`Inv` rules them out). -/
inductive Fault where
  /-- Raised by the sequencer at a busy position that R146 does not list, for which the spec gives no step.
  Safe, log entry 8. -/
  | strayPosition
  /-- Raised by a sequencer step that finds a cell it reads empty, which R147 says cannot be.
  Safe, log entry 8. -/
  | emptyCell
  deriving DecidableEq, Repr

/-- Reasons to refuse. -/
inductive Refusal where
  /-- Raised by `exec` for an instruction that has no meaning yet; no arm does so now. Safe. -/
  | notModelled (mnemonic : String)
  deriving DecidableEq, Repr

/-- A block of sixteen empty cells. -/
def emptyBlock : Block := Vector.replicate 16 none

/-- A matrix of empty cells. -/
def emptyMatrix : Matrix := Vector.replicate 4 (Vector.replicate 4 none)

/-- The machine right after reset: the spec's state as R52 says, nothing outstanding on the command port, nothing
coming from outside, and no failure listed (the last three are no state of the spec; log entries 2 and 4). -/
def State.reset : State where
  B := emptyBlock
  S := emptyMatrix
  RK := Vector.replicate 11 emptyBlock
  KEYV := false
  ERR := .ok
  PHASE := .idle
  ROUND := 0
  STAGE := .sub
  CNT := Vector.replicate 7 0
  cmd := none
  din := ⟨0, 0⟩
  resp := none
  script := []
  failures := []
  stepNo := 0

end Sys2Proof.Machine
end

