-- ==== Sys2Proof/Machine/Flags.lean ====
section
/-! DEFINITION. The status register `SR` (spec/10_state.md R43 to R48): the codes of its fields, the word `RDSR` reads,
`BUSY`, the sticky first error, and the two output signals (spec/60_exceptions.md R184). -/
namespace Sys2Proof.Machine

/-- The phase codes (R47). -/
def Phase.code : Phase → BitVec 3
  | .idle => 0
  | .load => 1
  | .whitened => 2
  | .main => 3
  | .final => 4
  | .done => 5
  | .keyx => 6
  | .fault => 7

/-- The stage codes (R46). -/
def Stage.code : Stage → BitVec 2
  | .sub => 0
  | .shr => 1
  | .mix => 2
  | .ark => 3

/-- The status and error codes (R170). -/
def Status.code : Status → BitVec 4
  | .ok => 0
  | .illegalCmd => 1
  | .badIndex => 2
  | .unwritten => 3
  | .badSize => 4
  | .noKey => 5
  | .primFail => 6
  | .faulted => 7

/-- The phases in which the sequencer owns the datapath (R44). -/
def Phase.busy : Phase → Bool
  | .idle => false
  | .load => true
  | .whitened => true
  | .main => true
  | .final => true
  | .done => false
  | .keyx => true
  | .fault => false

/-- `SR.BUSY`, not independent state (R44). -/
def State.busy (s : State) : Bool := s.PHASE.busy

/-- The 32-bit word `SR` with its reserved bits 0 (R43). -/
def State.srWord (s : State) : Word :=
  (0 : BitVec 14) ++ s.STAGE.code ++ s.ROUND ++ (0 : BitVec 1) ++ s.PHASE.code ++ s.ERR.code ++ (0 : BitVec 2) ++
    BitVec.ofBool s.KEYV ++ BitVec.ofBool s.busy

/-- `SR.ERR` after an error: it takes the code if it is 0 and keeps its value otherwise (R45). -/
def latch (old new : Status) : Status := if old = .ok then new else old

/-- The output `done_o`: 1 iff `PHASE` is `IDLE` or `DONE` (R184). -/
def State.doneO (s : State) : Bool := s.PHASE = .idle || s.PHASE = .done

/-- The output `fault_o`: 1 iff `PHASE = FAULT` (R184). -/
def State.faultO (s : State) : Bool := s.PHASE = .fault

end Sys2Proof.Machine
end

