-- ==== Sys2Proof/Machine/Operands.lean ====
section
/-! DEFINITION. Operand forms and index maps: the range checks of index operands (spec/30_encoding.md R84, R86), the
order of bytes in a block image, the state matrix and a round key (spec/20_memory.md R62, R63), and reading whole
groups of cells. -/
namespace Sys2Proof.Machine

/-- A `B` index operand, 0 to 15 (R86). -/
def bufferIndex? (j : Byte) : Option (Fin 16) := if h : j.toNat < 16 then some ⟨j.toNat, h⟩ else none

/-- A round-key index operand, 0 to 10 (R86). -/
def roundKeyIndex? (n : Byte) : Option (Fin 11) := if h : n.toNat < 11 then some ⟨n.toNat, h⟩ else none

/-- A counter index operand, 0 to 6 (R86). -/
def counterIndex? (k : Byte) : Option (Fin 7) := if h : k.toNat < 7 then some ⟨k.toNat, h⟩ else none

/-- The offset `4c + r` of state position `(r, c)` in a block image (R62). -/
def blockOffset (r c : Fin 4) : Fin 16 := ⟨4 * c.val + r.val, by omega⟩

/-- The index `4r + c` of state position `(r, c)` in a round key (R63). -/
def keyOffset (r c : Fin 4) : Fin 16 := ⟨4 * r.val + c.val, by omega⟩

/-- `fromBlock`: `S[r][c]` is the byte at offset `4c + r`; the cells move unchanged (R62, R69). -/
def fromBlock (b : Block) : Matrix := Vector.ofFn fun r => Vector.ofFn fun c => b[blockOffset r c]

/-- `toBlock`: `B[j]` is `S[j mod 4][j / 4]`, the inverse of `fromBlock` (R62). -/
def toBlock (m : Matrix) : Block := Vector.ofFn fun j => m[j.val % 4][j.val / 4]

/-- Every cell of a block holds a value. -/
def blockFull (b : Block) : Bool := decide (∀ j : Fin 16, b[j].isSome)

/-- Every cell of a matrix holds a value. -/
def matrixFull (m : Matrix) : Bool := decide (∀ r c : Fin 4, m[r][c].isSome)

/-- The sixteen Encrypted Bytes of a block in which every cell holds a value. -/
def loadedBlock? (b : Block) : Option (Fin 16 → Ct) :=
  if h : ∀ j : Fin 16, b[j].isSome then some fun j => b[j].get (h j) else none

/-- The sixteen Encrypted Bytes of a matrix in which every cell holds a value. -/
def loadedMatrix? (m : Matrix) : Option (Fin 4 → Fin 4 → Ct) :=
  if h : ∀ r c : Fin 4, m[r][c].isSome then some fun r c => m[r][c].get (h r c) else none

/-- The matrix that holds the given Encrypted Bytes. -/
def matrixOf (f : Fin 4 → Fin 4 → Ct) : Matrix := Vector.ofFn fun r => Vector.ofFn fun c => some (f r c)

/-- The block that holds the given Encrypted Bytes. -/
def blockOf (f : Fin 16 → Ct) : Block := Vector.ofFn fun j => some (f j)

end Sys2Proof.Machine
end

