-- ==== Sys2Proof/Machine/Scheme.lean ====
section
/-! DEFINITION. The homomorphic primitives of the external scheme (spec/00_scope.md R10 to R22): each invocation has
the hidden value its law gives, a ciphertext that is free (R22), and is recorded, so that what a command issued can
be counted (spec/60_exceptions.md R190) and compared (R23). -/
namespace Sys2Proof.Machine

/-- One chain of dependent invocations inside a command or sequencer step: where it is, how many invocations it has
issued, and their public parts, the latest first. -/
structure Lane where
  step : Nat
  lane : Nat
  idx : Nat
  log : List PubOp
  deriving DecidableEq, Repr

/-- A computation that issues primitives in one lane. -/
abbrev Chain := StateM Lane

/-- The start of a lane: nothing issued. -/
def Lane.start (step lane : Nat) : Lane := ⟨step, lane, 0, []⟩

/-- Issue one invocation: record it, and draw the ciphertext it returns (R21, R22). -/
def issue (p : Prim) : Chain Nat := fun l =>
  (Config.ctBits ⟨l.step, l.lane, l.idx⟩ p, { l with idx := l.idx + 1, log := p.pub :: l.log })

/-- `encp(v)`: `val = v` (R11). -/
def encp (v : Byte) : Chain Ct := do
  let bits ← issue (.encp v)
  return ⟨v, bits⟩

/-- `eq(a, b)`: `bval = 1` iff the hidden values are equal (R12). -/
def eqCt (a b : Ct) : Chain Cb := do
  let bits ← issue (.eq a b)
  return ⟨a.hidden == b.hidden, bits⟩

/-- `select(m, x, y)`: `val(x)` if `bval(m) = 1`, else `val(y)` (R13). No command issues it. -/
def select (m : Cb) (x y : Ct) : Chain Ct := do
  let bits ← issue (.select m x y)
  return ⟨if m.hidden then x.hidden else y.hidden, bits⟩

/-- `cadd(m, acc, t)`: `val(acc)` combined with `val(t)` if `bval(m) = 1`, else `val(acc)` (R14). -/
def cadd (m : Cb) (acc t : Ct) : Chain Ct := do
  let bits ← issue (.cadd m acc t)
  return ⟨if m.hidden then acc.hidden ^^^ t.hidden else acc.hidden, bits⟩

/-- `add(a, b)`: the combine, XOR on hidden values (R15, decision D1). -/
def add (a b : Ct) : Chain Ct := do
  let bits ← issue (.add a b)
  return ⟨a.hidden ^^^ b.hidden, bits⟩

/-- `shl(a, n)`: `(val(a) << n) mod 256`, `n` in 0..7 (R16). -/
def shl (a : Ct) (n : Fin 8) : Chain Ct := do
  let bits ← issue (.shl a n)
  return ⟨a.hidden <<< n.val, bits⟩

/-- `shr(a, n)`: `val(a) >> n`, zeros entering at bit 7, `n` in 0..7 (R17). -/
def shr (a : Ct) (n : Fin 8) : Chain Ct := do
  let bits ← issue (.shr a n)
  return ⟨a.hidden >>> n.val, bits⟩

/-- `andc(a, k)`: `val(a) AND k` (R18). -/
def andc (a : Ct) (k : Byte) : Chain Ct := do
  let bits ← issue (.andc a k)
  return ⟨a.hidden &&& k, bits⟩

/-- `mulc(a, k)`: `(val(a) * k) mod 256` (R19). -/
def mulc (a : Ct) (k : Byte) : Chain Ct := do
  let bits ← issue (.mulc a k)
  return ⟨a.hidden * k, bits⟩

/-- `encrypt(v)` (R10), done outside the OAE by the host or the owner of the secret: an Encrypted Byte with hidden
value `v` and whatever ciphertext the scheme gives it. -/
def encrypt (v : Byte) (bits : Nat) : Ct := ⟨v, bits⟩

/-- `decrypt` (R20), available to the holder of the secret only; no command performs it. -/
def decrypt (x : Ct) : Byte := x.hidden

/-- The index in `CNT` of the class of an invocation; `encp` is not counted (R11 to R19, index map of R49). -/
def PubOp.counter : PubOp → Option (Fin 7)
  | .encp _ => none
  | .eq => some 0
  | .select => some 1
  | .cadd => some 1
  | .add => some 2
  | .shl _ => some 3
  | .shr _ => some 4
  | .andc _ => some 5
  | .mulc _ => some 6

/-- The invocations of every lane of a command or step, by lane number. -/
abbrev Logs := List (List PubOp)

/-- How many invocations of counter class `k` were issued (R190). -/
def countClass (k : Fin 7) (logs : Logs) : Nat :=
  (logs.map fun l => l.countP fun o => PubOp.counter o == some k).sum

/-- How many invocations lane `lane` issued. -/
def laneLength (logs : Logs) (lane : Nat) : Nat := (logs.getD lane []).length

/-- Run a chain as one lane of a step: its result and what it issued. -/
def runLane {α : Type} (step lane : Nat) (c : Chain α) : α × List PubOp :=
  let r := c (Lane.start step lane)
  (r.1, r.2.log)

/-- Sixteen independent lanes, one for each state position, lane `4r + c` (R25). -/
def runCells (step : Nat) (f : Fin 4 → Fin 4 → Chain Ct) (r c : Fin 4) : Ct :=
  (runLane step (4 * r.val + c.val) (f r c)).1

/-- What the sixteen lanes issued. -/
def logCells (step : Nat) (f : Fin 4 → Fin 4 → Chain Ct) : Logs :=
  (List.finRange 16).map fun j =>
    (runLane step j.val (f ⟨j.val / 4, by omega⟩ ⟨j.val % 4, by omega⟩)).2

end Sys2Proof.Machine
end

