-- ==== Sys2Proof/Machine/Ops.lean ====
section
/-! DEFINITION. The operations that the commands and the sequencer share: answering a transaction, rejecting it,
the gate of spec/30_encoding.md R82 and spec/60_exceptions.md R180, counting (R190), TAKING THE FATAL FAULT
(`PRIM_FAIL`, R177) and reset, the way back from it (R164, R195). -/
namespace Sys2Proof.Machine

/-- What a step of the machine answers. -/
abbrev Out := Host.Outcome State Fault Refusal

/-- Answer the transaction: the response is given and nothing is outstanding any more (R80). -/
def State.answer (s : State) (status : Status) (data : Word) (dout : Option Ct) : State :=
  { s with cmd := none, resp := some ⟨status, data, dout⟩, stepNo := s.stepNo + 1 }

/-- `SR.ERR` latches the code of an error if it is the first (R45). -/
def State.latchErr (s : State) (code : Status) : State := { s with ERR := latch s.ERR code }

/-- A reject: the response carries the code, `data` is 0, and only `SR.ERR` may change (R171). -/
def State.reject (s : State) (code : Status) : State := (s.latchErr code).answer code 0 none

/-- Completion with status `OK`, `data` 0 and no `dout`. -/
def State.accept (s : State) : State := s.answer .ok 0 none

/-- The sequencer moves to a position (R46). -/
def State.moveTo (s : State) (p : Phase) (n : Round) (st : Stage) : State :=
  { s with PHASE := p, ROUND := n, STAGE := st }

/-- One cell of `B` is written. -/
def State.setB (s : State) (d : Fin 16) (x : Ct) : State := { s with B := s.B.set d (some x) }

/-- All of `B` is written. -/
def State.withB (s : State) (b : Block) : State := { s with B := b }

/-- All of `S` is written. -/
def State.withS (s : State) (m : Matrix) : State := { s with S := m }

/-- `RK` and `KEYV` are written (R35, R48). -/
def State.withKey (s : State) (rk : Vector Block 11) (valid : Bool) : State := { s with RK := rk, KEYV := valid }

/-- The counters are written. -/
def State.withCnt (s : State) (cnt : Vector Word 7) : State := { s with CNT := cnt }

/-- The number of the next step advances. -/
def State.tick (s : State) : State := { s with stepNo := s.stepNo + 1 }

/-- Every counter grows by the number of invocations of its class, modulo 2^32 (R49, R190). -/
def State.count (s : State) (logs : Logs) : State :=
  s.withCnt (Vector.ofFn fun k => s.CNT[k] + BitVec.ofNat 32 (countClass k logs))

/-- Some failure that the scheme has listed falls on an invocation of this step: lane `l` issues invocations 0 to
`len l - 1` (R21). -/
def State.failsWithin (s : State) (len : Nat → Nat) : Bool :=
  s.failures.any fun f => f.step == s.stepNo && decide (f.idx < len f.lane)

/-- Some invocation that this step issued fails (R21, R177). -/
def State.fails (s : State) (logs : Logs) : Bool := s.failsWithin (laneLength logs)

/-- TAKING THE FATAL FAULT, as one transition (R177): phase `FAULT`, position kept, `KEYV` cleared, `ERR` latched,
every cell emptied, the counters unspecified (free values). -/
def State.takeFault (s : State) : State :=
  { s with
    PHASE := .fault
    KEYV := false
    ERR := latch s.ERR .primFail
    B := emptyBlock
    S := emptyMatrix
    RK := Vector.replicate 11 emptyBlock
    CNT := Vector.ofFn fun k => Config.faultCount s.stepNo k }

/-- RETURN FROM THE FAULT, and any reset: the spec's state takes its reset values (R52, R164, R195); what the outside
holds (the port's `din`, its coming actions, the scheme's failures, the step number) is no state of the OAE. -/
def State.toReset (s : State) : State :=
  { State.reset with
    cmd := s.cmd, din := s.din, resp := s.resp, script := s.script, failures := s.failures, stepNo := s.stepNo }

/-- What a command or step that issues primitives does: the state with its data written, and what it issued. -/
structure Effect where
  after : State
  logs : Logs
  deriving DecidableEq, Repr

/-- A host command issues its primitives (R177, R190): `PRIM_FAIL` and the fault if one fails, else its data are
written, the counters updated and the answer is `OK`. -/
def State.finishCommand (s : State) (e : Effect) : State :=
  if s.fails e.logs then s.takeFault.answer .primFail 0 none else (e.after.count e.logs).accept

/-- A sequencer step issues its primitives (R157, R177, R190): the fault if one fails, else its data are written,
the counters updated and the position advanced. -/
def State.finishStep (s : State) (e : Effect) (p : Phase) (n : Round) (st : Stage) : State :=
  if s.fails e.logs then s.takeFault.tick else ((e.after.count e.logs).moveTo p n st).tick

/-- The gate of every command but `RDSR`, `RDCNT` and `SRST`: while busy the transaction waits, with no effect
(R82 (c); a waiting `exec` answers the state unchanged, DESIGN CHOICE, log entry 5); in phase `FAULT` it is answered `FAULTED` (R180); else the command's own rule applies. -/
def State.gate (s : State) (body : State → Out) : Out :=
  if s.busy then .next s
  else if s.PHASE = .fault then .next (s.answer .faulted 0 none)
  else body s

/-- `opc` is that of `RDSR` or `RDCNT`, which are accepted in every phase, recognised by `cmd[31:24]` alone (R82 (a)). -/
def isStatusRead (opc : Byte) : Bool := opc == 0x01 || opc == 0x02

/-- A word that decodes to no command (R87): `ILLEGAL_CMD` (R172), but `FAULTED` in phase `FAULT` unless it is a
malformed `RDSR` or `RDCNT` (R88, R180). -/
def State.illegal (s : State) (opc : Byte) : State :=
  if s.PHASE = .fault && !isStatusRead opc then s.answer .faulted 0 none else s.reject .illegalCmd

end Sys2Proof.Machine
end

