-- ==== Sys2Proof/Machine/Control.lean ====
section
/-! DEFINITION. Control and status commands, spec/45_control.md: `NOP` (R160), `RDSR` (R161), `RDCNT` (R162), `CLRCNT`
(R163), `SRST` (R164). -/
namespace Sys2Proof.Machine

/-- `NOP` (R160). -/
def execNop (s : State) : Out := s.gate fun s => .next s.accept

/-- `RDSR` (R161), accepted in every phase. -/
def execRdsr (s : State) : Out := .next (s.answer .ok s.srWord none)

/-- What `RDCNT k` reads: the counter, or in phase `FAULT` a free value, a new one each read (R162, R178). -/
def State.readCounter (s : State) (k : Fin 7) : Word :=
  if s.PHASE = .fault then Config.faultCount s.stepNo k else s.CNT[k]

/-- `RDCNT k` (R162), accepted in every phase. -/
def execRdcnt (k : Byte) (s : State) : Out :=
  match counterIndex? k with
  | none => .next (s.reject .badIndex)
  | some k => .next (s.answer .ok (s.readCounter k) none)

/-- `CLRCNT` (R163). -/
def execClrcnt (s : State) : Out := s.gate fun s => .next (s.withCnt (Vector.replicate 7 0)).accept

/-- `SRST` (R164): accepted in `IDLE`, `DONE` and `FAULT`, answered `OK` after the reset; while busy it waits. -/
def execSrst (s : State) : Out := if s.busy then .next s else .next s.toReset.accept

end Sys2Proof.Machine
end

