-- ==== Sys2Proof/Machine/Movement.lean ====
section
/-! DEFINITION. State-matrix and data-movement commands, spec/40_state_matrix.md: `PUT` (R100), `GET` (R101), `ENCC`
(R102), `MOV` (R103), `LDST` (R104), `STST` (R105). -/
namespace Sys2Proof.Machine

/-- `PUT d` (R100). -/
def execPut (d : Byte) (s : State) : Out :=
  s.gate fun s =>
    match bufferIndex? d with
    | none => .next (s.reject .badIndex)
    | some d => .next (s.setB d s.din).accept

/-- `GET s` (R101). -/
def execGet (j : Byte) (s : State) : Out :=
  s.gate fun s =>
    match bufferIndex? j with
    | none => .next (s.reject .badIndex)
    | some j =>
      match s.B[j] with
      | none => .next (s.reject .unwritten)
      | some x => .next (s.answer .ok 0 (some x))

/-- The effect of `ENCC` on a cell: `B[d] <- encp(imm8)`, one uncounted invocation (R102). -/
def enccEffect (s : State) (d : Fin 16) (imm : Byte) : Effect :=
  let r := runLane s.stepNo 0 (encp imm)
  ⟨s.setB d r.1, [r.2]⟩

/-- `ENCC d, imm8` (R102). -/
def execEncc (d imm : Byte) (s : State) : Out :=
  s.gate fun s =>
    match bufferIndex? d with
    | none => .next (s.reject .badIndex)
    | some d => .next (s.finishCommand (enccEffect s d imm))

/-- `MOV d, s` (R103): the Encrypted Byte itself is copied, no primitive is issued (R69). -/
def execMov (d j : Byte) (s : State) : Out :=
  s.gate fun s =>
    match bufferIndex? d, bufferIndex? j with
    | some d, some j =>
      match s.B[j] with
      | none => .next (s.reject .unwritten)
      | some x => .next (s.setB d x).accept
    | _, _ => .next (s.reject .badIndex)

/-- `LDST` (R104): `BAD_SIZE` unless all of `B` holds values. -/
def execLdst (s : State) : Out :=
  s.gate fun s =>
    if blockFull s.B then .next (s.withS (fromBlock s.B)).accept else .next (s.reject .badSize)

/-- `STST` (R105): `UNWRITTEN` unless all of `S` holds values. -/
def execStst (s : State) : Out :=
  s.gate fun s =>
    if matrixFull s.S then .next (s.withB (toBlock s.S)).accept else .next (s.reject .unwritten)

end Sys2Proof.Machine
end

