-- ==== Sys2Proof/Machine/Linear.lean ====
section
/-! DEFINITION. The linear transform layer, spec/42_linear.md: `XORB` (R120), the Galois-field mixer GFM with
`galoisMul` (R121) and `GMUL` (R122), `SHROW` (R123), `MIXC` (R124) and `ARK` (R125). -/
namespace Sys2Proof.Machine

/-- The effect of `XORB` on cells: `B[d] <- add(x, y)` (R120). -/
def xorbEffect (s : State) (d : Fin 16) (x y : Ct) : Effect :=
  let r := runLane s.stepNo 0 (add x y)
  ⟨s.setB d r.1, [r.2]⟩

/-- `XORB d, a, b` (R120). -/
def execXorb (d a b : Byte) (s : State) : Out :=
  s.gate fun s =>
    match bufferIndex? d, bufferIndex? a, bufferIndex? b with
    | some d, some a, some b =>
      match s.B[a], s.B[b] with
      | some x, some y => .next (s.finishCommand (xorbEffect s d x y))
      | _, _ => .next (s.reject .unwritten)
    | _, _, _ => .next (s.reject .badIndex)

/-- The doubling of the running value `p`: the high bit is taken before the shift and merged unconditionally
(R121, decision D13). -/
def double (p : Ct) : Chain Ct := do
  let t ← andc p 0x80
  let hb ← shr t 7
  let sh ← shl p 1
  let red ← mulc hb 0x1B
  add sh red

/-- Step `i` of `galoisMul` on the pair (`res`, `p`): the branch is on a bit of the public constant (R121). -/
def galoisStep (k : Byte) (rp : Ct × Ct) (i : Nat) : Chain (Ct × Ct) := do
  let res ← if k.getLsbD i then add rp.1 rp.2 else pure rp.1
  let p ← double rp.2
  return (res, p)

/-- `galoisMul(a, k)`: eight steps, always, from an encrypted zero (R121). -/
def galoisMul (a : Ct) (k : Byte) : Chain Ct := do
  let zero ← encp 0
  let rp ← (List.range 8).foldlM (galoisStep k) (zero, a)
  return rp.1

/-- The effect of `GMUL` on cells: `B[d] <- galoisMul(x, k)` (R122). -/
def gmulEffect (s : State) (d : Fin 16) (x : Ct) (k : Byte) : Effect :=
  let r := runLane s.stepNo 0 (galoisMul x k)
  ⟨s.setB d r.1, [r.2]⟩

/-- `GMUL d, s, k` (R122). -/
def execGmul (d j k : Byte) (s : State) : Out :=
  s.gate fun s =>
    match bufferIndex? d, bufferIndex? j with
    | some d, some j =>
      match s.B[j] with
      | none => .next (s.reject .unwritten)
      | some x => .next (s.finishCommand (gmulEffect s d x k))
    | _, _ => .next (s.reject .badIndex)

/-- Row `r` rotated left by `r`: `S[r][c] <- S_old[r][(c + r) mod 4]`, the cells move unchanged (R123, R69). -/
def shiftRows (m : Matrix) : Matrix := Vector.ofFn fun r => Vector.ofFn fun c => m[r][c + r]

/-- ShiftRows issues no primitive (R123); the sequencer's ShiftRows steps do the same (R150). -/
def shiftEffect (s : State) : Effect := ⟨s.withS (shiftRows s.S), []⟩

/-- `SHROW` (R123). -/
def execShrow (s : State) : Out :=
  s.gate fun s =>
    if matrixFull s.S then .next (s.withS (shiftRows s.S)).accept else .next (s.reject .unwritten)

/-- One cell of MixColumns: the four products of row `r` of `M` with column `c`, combined left to right
(R124, decision D14). -/
def mixCell (m : Fin 4 → Fin 4 → Ct) (r c : Fin 4) : Chain Ct := do
  let t0 ← galoisMul (m 0 c) (mixRow r)[0]
  let t1 ← galoisMul (m 1 c) (mixRow r)[1]
  let u1 ← add t0 t1
  let t2 ← galoisMul (m 2 c) (mixRow r)[2]
  let u2 ← add u1 t2
  let t3 ← galoisMul (m 3 c) (mixRow r)[3]
  add u2 t3

/-- MixColumns, every term from the columns as they were before (R124); the sequencer's steps do the same (R151). -/
def mixEffect (s : State) (m : Fin 4 → Fin 4 → Ct) : Effect :=
  ⟨s.withS (matrixOf (runCells s.stepNo (mixCell m))), logCells s.stepNo (mixCell m)⟩

/-- `MIXC` (R124). -/
def execMixc (s : State) : Out :=
  s.gate fun s =>
    match loadedMatrix? s.S with
    | none => .next (s.reject .unwritten)
    | some m => .next (s.finishCommand (mixEffect s m))

/-- AddRoundKey: `S[r][c] <- add(S_old[r][c], key[4r + c])` (R125); the sequencer's steps do the same (R147, R152,
R153). -/
def arkEffect (s : State) (key : Fin 16 → Ct) (m : Fin 4 → Fin 4 → Ct) : Effect :=
  let f := fun r c => add (m r c) (key (keyOffset r c))
  ⟨s.withS (matrixOf (runCells s.stepNo f)), logCells s.stepNo f⟩

/-- Round key `n`, if the expanded key is present (R48, R176). A command that reads an empty round-key cell is
rejected the same way (R34); `Inv` says that `KEYV = 1` excludes it. DEDUCED, log entry 9. -/
def roundKey? (s : State) (n : Fin 11) : Option (Fin 16 → Ct) :=
  if s.KEYV then loadedBlock? s.RK[n] else none

/-- `ARK n` (R125); the checks in the order of R181. -/
def execArk (n : Byte) (s : State) : Out :=
  s.gate fun s =>
    match roundKeyIndex? n with
    | none => .next (s.reject .badIndex)
    | some n =>
      match roundKey? s n with
      | none => .next (s.reject .noKey)
      | some key =>
        match loadedMatrix? s.S with
        | none => .next (s.reject .unwritten)
        | some m => .next (s.finishCommand (arkEffect s key m))

end Sys2Proof.Machine
end

