-- ==== Sys2Proof/Machine/Substitution.lean ====
section
/-! DEFINITION. The oblivious substitution engine SBX, spec/41_substitution.md: the scan `substitute` (R110), `SBOX`
(R111) and `SUBB` (R112). -/
namespace Sys2Proof.Machine

/-- One candidate of the scan: `acc <- cadd(eq(x, encp(i)), acc, encp(SBOX[i]))` (R110, decision D12). -/
def scanCandidate (x acc : Ct) (i : Nat) : Chain Ct := do
  let candidate ← encp (BitVec.ofNat 8 i)
  let m ← eqCt x candidate
  let entry ← encp (sbox (BitVec.ofNat 8 i))
  cadd m acc entry

/-- `substitute(x)`: all 256 candidates, always, from an encrypted zero (R110). -/
def substitute (x : Ct) : Chain Ct := do
  let zero ← encp 0
  (List.range 256).foldlM (scanCandidate x) zero

/-- The effect of `SBOX` on cells: `B[d] <- substitute(x)` (R111). -/
def sboxEffect (s : State) (d : Fin 16) (x : Ct) : Effect :=
  let r := runLane s.stepNo 0 (substitute x)
  ⟨s.setB d r.1, [r.2]⟩

/-- `SBOX d, s` (R111). -/
def execSbox (d j : Byte) (s : State) : Out :=
  s.gate fun s =>
    match bufferIndex? d, bufferIndex? j with
    | some d, some j =>
      match s.B[j] with
      | none => .next (s.reject .unwritten)
      | some x => .next (s.finishCommand (sboxEffect s d x))
    | _, _ => .next (s.reject .badIndex)

/-- SubBytes, sixteen independent lanes (R112); the sequencer's SubBytes steps do the same (R148, R149). -/
def subEffect (s : State) (m : Fin 4 → Fin 4 → Ct) : Effect :=
  let f := fun r c => substitute (m r c)
  ⟨s.withS (matrixOf (runCells s.stepNo f)), logCells s.stepNo f⟩

/-- `SUBB` (R112). -/
def execSubb (s : State) : Out :=
  s.gate fun s =>
    match loadedMatrix? s.S with
    | none => .next (s.reject .unwritten)
    | some m => .next (s.finishCommand (subEffect s m))

end Sys2Proof.Machine
end

