-- ==== Sys2Proof/Machine/KeySchedule.lean ====
section
/-! DEFINITION. The key schedule engine KSE, spec/43_key_schedule.md: `expand` (R138), `KEYEXP` (R135), the work of
the `KEYX` sequencer step (R136) and `RDRK` (R137). -/
namespace Sys2Proof.Machine

/-- A key-schedule word: four Encrypted Bytes (R50). -/
abbrev KeyWord := Vector Ct 4

/-- Byte `t` of `w[i]` from `w[i-1]` and `w[i-4]` (R138): where `i mod 4 = 0` the previous word is rotated left by one
byte and substituted, and its first byte combined with `encp(RCON[i/4 - 1])` (decision D15). -/
def wordByte (i : Nat) (prev old : KeyWord) (t : Fin 4) : Chain Ct := do
  if i % 4 = 0 then
    let u ← substitute prev[t + 1]
    if t = 0 then
      let c ← encp (rconTable.toList.getD (i / 4 - 1) 0)
      let v ← add u c
      add v old[t]
    else
      add u old[t]
  else
    add prev[t] old[t]

/-- Lane `4i + t` of the expansion step computes byte `t` of `w[i]`. -/
def wordLane (step i : Nat) (prev old : KeyWord) (t : Fin 4) : Ct × List PubOp :=
  runLane step (4 * i + t.val) (wordByte i prev old t)

/-- The next word `w[i]`. -/
def nextWord (step i : Nat) (prev old : KeyWord) : KeyWord :=
  Vector.ofFn fun t => (wordLane step i prev old t).1

/-- The master key as the first four words: `w[i] = (k[4i], k[4i+1], k[4i+2], k[4i+3])` (R64). -/
def masterWords (k : Fin 16 → Ct) : Vector KeyWord 4 :=
  Vector.ofFn fun i => Vector.ofFn fun t => k (keyOffset i t)

/-- The first `4 + m` words, in increasing `i` (R138, R139). -/
def keyWords (step : Nat) (k : Fin 16 → Ct) : (m : Nat) → Vector KeyWord (4 + m)
  | 0 => masterWords k
  | m + 1 =>
    let w := keyWords step k m
    w.push (nextWord step (4 + m) w[4 + m - 1] w[m])

/-- What lane `4i + t` issued, the master key's words nothing. -/
def expandLogs (step : Nat) (w : Vector KeyWord 44) : Logs :=
  (List.finRange 44).flatMap fun i =>
    (List.finRange 4).map fun t =>
      if 4 ≤ i.val then (wordLane step i.val w[i.val - 1] w[i.val - 4] t).2 else []

/-- Word `w[4n + c]` becomes column `c` of round key `n`: `RK[n][4r + c] = w[4n + c][r]` (R64, decision D16). -/
def regroup (w : Vector KeyWord 44) : Vector Block 11 :=
  Vector.ofFn fun n => Vector.ofFn fun j => some (w[4 * n.val + j.val % 4][j.val / 4])

/-- The `KEYX` step's data: the whole expansion of `B`, and `KEYV` set (R136). -/
def expandEffect (s : State) (k : Fin 16 → Ct) : Effect :=
  let w := keyWords s.stepNo k 40
  ⟨s.withKey (regroup w) true, expandLogs s.stepNo w⟩

/-- `KEYEXP` at acceptance (R135): the old key is discarded and the sequencer started; nothing else. -/
def execKeyexp (s : State) : Out :=
  s.gate fun s =>
    if blockFull s.B then
      .next ((s.withKey (Vector.replicate 11 emptyBlock) false).moveTo .keyx 0 .sub).accept
    else .next (s.reject .badSize)

/-- `RDRK n` (R137): round key `n` index for index, in round-key order; the Encrypted Bytes are copied (R69). -/
def execRdrk (n : Byte) (s : State) : Out :=
  s.gate fun s =>
    match roundKeyIndex? n with
    | none => .next (s.reject .badIndex)
    | some n =>
      match roundKey? s n with
      | none => .next (s.reject .noKey)
      | some key => .next (s.withB (blockOf key)).accept

end Sys2Proof.Machine
end

