-- ==== Sys2Proof/Machine/Pipeline.lean ====
section
/-! DEFINITION. The round pipeline sequencer SEQ, spec/44_round_pipeline.md: `ENCBLK` (R145), the sequencer's program
(R146, with the `KEYX` step of spec/43_key_schedule.md R136) and one sequencer step (R147 to R153, R157). -/
namespace Sys2Proof.Machine

/-- `ENCBLK` at acceptance (R145): `BAD_SIZE` is checked before `NO_KEY`; the sequencer is started. -/
def execEncblk (s : State) : Out :=
  s.gate fun s =>
    if blockFull s.B then
      if s.KEYV then .next (s.moveTo .load 0 .ark).accept else .next (s.reject .noKey)
    else .next (s.reject .badSize)

/-- What a sequencer step performs (R146, R136). -/
inductive Work where
  | loadArk
  | sub
  | shr
  | mix
  | ark
  | arkStore
  | expand
  deriving DecidableEq, Repr

/-- The sequencer's program: what the step from each position performs, and the one successor (R146 to R153, R136).
`none` at the positions it does not list. -/
def program (p : Phase) (n : Round) (st : Stage) : Option (Work × Phase × Round × Stage) :=
  match p, st with
  | .load, .ark => if n = 0 then some (.loadArk, .whitened, 1, .sub) else none
  | .whitened, .sub => if n = 1 then some (.sub, .main, 1, .shr) else none
  | .main, .sub => if 2 ≤ n ∧ n ≤ 9 then some (.sub, .main, n, .shr) else none
  | .main, .shr => if 1 ≤ n ∧ n ≤ 9 then some (.shr, .main, n, .mix) else none
  | .main, .mix => if 1 ≤ n ∧ n ≤ 9 then some (.mix, .main, n, .ark) else none
  | .main, .ark =>
    if n = 9 then some (.ark, .final, 10, .sub)
    else if 1 ≤ n ∧ n < 9 then some (.ark, .main, n + 1, .sub)
    else none
  | .final, .sub => if n = 10 then some (.sub, .final, 10, .shr) else none
  | .final, .shr => if n = 10 then some (.shr, .final, 10, .ark) else none
  | .final, .ark => if n = 10 then some (.arkStore, .done, 10, .ark) else none
  | .keyx, .sub => if n = 0 then some (.expand, .idle, 0, .sub) else none
  | _, _ => none

/-- Round key `n` for a step that uses it, `n` the round number (R46). -/
def stepKey? (s : State) (n : Round) : Option (Fin 16 → Ct) :=
  if h : n.toNat < 11 then loadedBlock? s.RK[n.toNat] else none

/-- AddRoundKey, then `toBlock` into `B`: the last step of a run (R153). -/
def arkStoreEffect (s : State) (key : Fin 16 → Ct) (m : Fin 4 → Fin 4 → Ct) : Effect :=
  let e := arkEffect s key m
  ⟨e.after.withB (toBlock e.after.S), e.logs⟩

/-- The data and invocations of a sequencer step; `none` where a cell it reads is empty, which cannot be (R147). -/
def workEffect (w : Work) (s : State) : Option Effect :=
  match w with
  | .loadArk =>
    match loadedMatrix? (fromBlock s.B), stepKey? s 0 with
    | some m, some key => some (arkEffect s key m)
    | _, _ => none
  | .sub => (loadedMatrix? s.S).map (subEffect s)
  | .shr => if matrixFull s.S then some (shiftEffect s) else none
  | .mix => (loadedMatrix? s.S).map (mixEffect s)
  | .ark =>
    match loadedMatrix? s.S, stepKey? s s.ROUND with
    | some m, some key => some (arkEffect s key m)
    | _, _ => none
  | .arkStore =>
    match loadedMatrix? s.S, stepKey? s s.ROUND with
    | some m, some key => some (arkStoreEffect s key m)
    | _, _ => none
  | .expand => (loadedBlock? s.B).map (expandEffect s)

/-- The sequencer's turn: while busy it takes the step its position names (R24, R46), else it does nothing. -/
def sequencer (s : State) : Out :=
  if s.busy then
    match program s.PHASE s.ROUND s.STAGE with
    | none => .fault .strayPosition
    | some (w, p, n, st) =>
      match workEffect w s with
      | none => .fault .emptyCell
      | some e => .next (s.finishStep e p n st)
  else .next s

end Sys2Proof.Machine
end

