-- ==== Sys2Proof/Machine/Dispatch.lean ====
section
/-! DEFINITION. One arm for each command (spec/30_encoding.md R85). -/
namespace Sys2Proof.Machine

def exec (i : Instr) (s : State) : Host.Outcome State Fault Refusal :=
  match i with
  | .nop => Sys2Proof.Machine.execNop s
  | .rdsr => Sys2Proof.Machine.execRdsr s
  | .rdcnt k => Sys2Proof.Machine.execRdcnt k s
  | .clrcnt => Sys2Proof.Machine.execClrcnt s
  | .srst => Sys2Proof.Machine.execSrst s
  | .put d => Sys2Proof.Machine.execPut d s
  | .get j => Sys2Proof.Machine.execGet j s
  | .encc d imm => Sys2Proof.Machine.execEncc d imm s
  | .mov d j => Sys2Proof.Machine.execMov d j s
  | .xorb d a b => Sys2Proof.Machine.execXorb d a b s
  | .sbox d j => Sys2Proof.Machine.execSbox d j s
  | .gmul d j k => Sys2Proof.Machine.execGmul d j k s
  | .ldst => Sys2Proof.Machine.execLdst s
  | .stst => Sys2Proof.Machine.execStst s
  | .subb => Sys2Proof.Machine.execSubb s
  | .shrow => Sys2Proof.Machine.execShrow s
  | .mixc => Sys2Proof.Machine.execMixc s
  | .ark n => Sys2Proof.Machine.execArk n s
  | .rdrk n => Sys2Proof.Machine.execRdrk n s
  | .keyexp => Sys2Proof.Machine.execKeyexp s
  | .encblk => Sys2Proof.Machine.execEncblk s

end Sys2Proof.Machine
end

