-- ==== Sys2Proof/Machine/Transaction.lean ====
section
/-! DEFINITION. The command port: acceptance (spec/30_encoding.md R82), the execution of an accepted command word,
presenting a transaction, and hard reset (spec/70_reset_and_hazards.md R195, R197). -/
namespace Sys2Proof.Machine

/-- A transaction with this command word is accepted now (R82): `RDSR` and `RDCNT` in every phase, the others while
the sequencer is not busy. -/
def State.accepts (s : State) (w : Word) : Bool := !s.busy || isStatusRead (opcodeOf w)

/-- An accepted command word is decoded and executed, or rejected as illegal (R82, R87, R88). -/
def runCommand (w : Word) (s : State) : Out :=
  match decode w with
  | .ok i => exec i s
  | .error _ => .next (s.illegal (opcodeOf w))

/-- The host presents a transaction (R80): the word and `din` are on the port and no response is there yet. -/
def State.present (s : State) (w : Word) (din : Ct) : State :=
  { s with cmd := some w, din := din, resp := none }

/-- The outside's coming actions are replaced. -/
def State.withScript (s : State) (es : List Event) : State := { s with script := es }

/-- The outside leaves this turn to the sequencer, if that is what it does next. -/
def State.yieldTurn (s : State) : State :=
  match s.script with
  | .sequencer :: es => s.withScript es
  | _ => s

/-- Hard reset (R195): the reset state from whatever state the OAE is in; a transaction that was waiting is dropped
without a response (U14; log entry 12). -/
def hardReset (s : State) : State := { s.toReset with cmd := none, resp := none }

end Sys2Proof.Machine
end

