-- ==== Sys2Proof/Machine/Step.lean ====
section
/-! DEFINITION. One step of the machine: which of the agents of spec/00_scope.md R24 moves is read from the state. -/
namespace Sys2Proof.Machine

/-- One step. Hard reset comes before everything (R195). An outstanding transaction is served as soon as it is
accepted; until then it waits and the sequencer has the turn (R82). With nothing outstanding the outside's next
action is taken; where there is none, the sequencer has the turn (R209).
DESIGN CHOICE, log entries 4 and 12. -/
def step (s : State) : Host.Outcome State Fault Refusal :=
  match s.script, s.cmd with
  | .hardReset :: es, _ => .next (hardReset (s.withScript es))
  | _, some w => if s.accepts w then runCommand w s else sequencer s.yieldTurn
  | .present w din :: es, none =>
    let t := (s.withScript es).present w din
    if t.accepts w then runCommand w t else .next t
  | .sequencer :: es, none => sequencer (s.withScript es)
  | [], none => sequencer s

/-- The state in which the host presents a table word next: no instruction is fetched, each command word comes from
the host in a transaction (R75, R80). `din` is what already stands on the port.
DESIGN CHOICE, log entry 6. -/
def State.withFetchWord (s : State) (nbits w : Nat) : State :=
  { s with cmd := none, script := .present (tableWord nbits w) s.din :: s.script }

end Sys2Proof.Machine
end

