-- ==== Sys2Proof/Machine/Reference.lean ====
section
/-! DEFINITION. The functions the spec gives on hidden values, apart from how the hardware computes them: the field
GF(2^8) (spec/00_scope.md R9), the four stages, key expansion and block encryption (spec/44_round_pipeline.md R154,
spec/43_key_schedule.md R138), and the cost table (spec/70_reset_and_hazards.md R210). Statements compare the machine
with them; no meaning uses them. -/
namespace Sys2Proof.Machine

/-- The product of two byte values as polynomials over GF(2), not yet reduced. -/
def polyMul (a b : Byte) : BitVec 16 :=
  (List.range 8).foldl (fun acc i => if b.getLsbD i then acc ^^^ (a.setWidth 16 <<< i) else acc) 0

/-- Clear the coefficient of `x^i`, `i` at least 8, by subtracting a multiple of `x^8+x^4+x^3+x+1`. -/
def reduceAt (x : BitVec 16) (i : Nat) : BitVec 16 :=
  if x.getLsbD i then x ^^^ (0x11B#16 <<< (i - 8)) else x

/-- The remainder modulo `x^8+x^4+x^3+x+1`, from the highest coefficient a product can have. -/
def polyReduce (x : BitVec 16) : Byte :=
  ([14, 13, 12, 11, 10, 9, 8].foldl reduceAt x).setWidth 8

/-- `gf_mul(a, b)`: the product in GF(2^8) (R9). -/
def gfMul (a b : Byte) : Byte := polyReduce (polyMul a b)

/-- `gf_mul(a, 2)` as R9 derives it: shift left, and `0x1B` if bit 7 was set. -/
def xtime (a : Byte) : Byte := (a <<< 1) ^^^ (if a.getLsbD 7 then 0x1B else 0)

/-- A state matrix of byte values. -/
abbrev HMatrix := Vector (Vector Byte 4) 4

/-- Sixteen byte values: a block image, or a round key in its own order. -/
abbrev HBlock := Vector Byte 16

/-- The matrix with the given entries. -/
def hMatrix (f : Fin 4 → Fin 4 → Byte) : HMatrix := Vector.ofFn fun r => Vector.ofFn fun c => f r c

/-- Block image to matrix: entry `(r, c)` is the byte at offset `4c + r` (R62). -/
def hFromBlock (b : HBlock) : HMatrix := hMatrix fun r c => b[4 * c.val + r.val]

/-- Matrix to block image (R62). -/
def hToBlock (m : HMatrix) : HBlock := Vector.ofFn fun j => m[j.val % 4][j.val / 4]

/-- SubBytes (R112). -/
def hSubBytes (m : HMatrix) : HMatrix := hMatrix fun r c => sbox m[r][c]

/-- ShiftRows (R123). -/
def hShiftRows (m : HMatrix) : HMatrix := hMatrix fun r c => m[r][(c.val + r.val) % 4]

/-- MixColumns as the four equations of R124. -/
def hMixColumns (m : HMatrix) : HMatrix :=
  hMatrix fun r c =>
    let s0 := m[0][c]
    let s1 := m[1][c]
    let s2 := m[2][c]
    let s3 := m[3][c]
    match r with
    | 0 => gfMul s0 2 ^^^ gfMul s1 3 ^^^ s2 ^^^ s3
    | 1 => s0 ^^^ gfMul s1 2 ^^^ gfMul s2 3 ^^^ s3
    | 2 => s0 ^^^ s1 ^^^ gfMul s2 2 ^^^ gfMul s3 3
    | 3 => gfMul s0 3 ^^^ s1 ^^^ s2 ^^^ gfMul s3 2

/-- AddRoundKey: the key byte of position `(r, c)` is at index `4r + c` (R125). -/
def hAddRoundKey (k : HBlock) (m : HMatrix) : HMatrix := hMatrix fun r c => m[r][c] ^^^ k[4 * r.val + c.val]

/-- One main round with round key `k` (R154). -/
def hMainRound (k : HBlock) (m : HMatrix) : HMatrix :=
  hAddRoundKey k (hMixColumns (hShiftRows (hSubBytes m)))

/-- The matrix after the whitening and the first `n` main rounds (R154). -/
def hRounds (b : HBlock) (rk : Vector HBlock 11) : Nat → HMatrix
  | 0 => hAddRoundKey rk[0] (hFromBlock b)
  | n + 1 => hMainRound (rk.toList.getD (n + 1) (Vector.replicate 16 0)) (hRounds b rk n)

/-- `encryptBlock` (R154): whitening, nine main rounds, the final round without mixing. -/
def hEncryptBlock (b : HBlock) (rk : Vector HBlock 11) : HBlock :=
  hToBlock (hAddRoundKey rk[10] (hShiftRows (hSubBytes (hRounds b rk 9))))

/-- The next key-schedule word `w[i]` from `w[i-1]` and `w[i-4]` (R138). -/
def hNextWord (i : Nat) (prev old : Vector Byte 4) : Vector Byte 4 :=
  if i % 4 = 0 then
    #v[sbox prev[1] ^^^ rconTable.toList.getD (i / 4 - 1) 0 ^^^ old[0], sbox prev[2] ^^^ old[1],
      sbox prev[3] ^^^ old[2], sbox prev[0] ^^^ old[3]]
  else Vector.ofFn fun t => prev[t] ^^^ old[t]

/-- The first `4 + m` words of the key schedule (R138). -/
def hKeyWords (k : HBlock) : (m : Nat) → Vector (Vector Byte 4) (4 + m)
  | 0 => Vector.ofFn fun i => Vector.ofFn fun t => k[4 * i.val + t.val]
  | m + 1 =>
    let w := hKeyWords k m
    w.push (hNextWord (4 + m) w[4 + m - 1] w[m])

/-- `expand`: `RK[n][4r + c] = w[4n + c][r]` (R138). -/
def hExpand (k : HBlock) : Vector HBlock 11 :=
  let w := hKeyWords k 40
  Vector.ofFn fun n => Vector.ofFn fun j => w[4 * n.val + j.val % 4][j.val / 4]

/-- The cost table (R210): the invocations of counter class 0 to 6 (`EQ SEL ADD SHL SHR AND MULC`) that a completed
command issues itself; `KEYEXP` and `ENCBLK` issue theirs in sequencer steps. -/
def cost : Instr → Fin 7 → Nat
  | .xorb _ _ _ => fun k => #v[0, 0, 1, 0, 0, 0, 0][k]
  | .sbox _ _ => fun k => #v[256, 256, 0, 0, 0, 0, 0][k]
  | .gmul _ _ m => fun k => #v[0, 0, 8 + popcount m, 8, 8, 8, 8][k]
  | .subb => fun k => #v[4096, 4096, 0, 0, 0, 0, 0][k]
  | .mixc => fun k => #v[0, 0, 640, 512, 512, 512, 512][k]
  | .ark _ => fun k => #v[0, 0, 16, 0, 0, 0, 0][k]
  | .nop => fun _ => 0
  | .rdsr => fun _ => 0
  | .rdcnt _ => fun _ => 0
  | .clrcnt => fun _ => 0
  | .srst => fun _ => 0
  | .put _ => fun _ => 0
  | .get _ => fun _ => 0
  | .encc _ _ => fun _ => 0
  | .mov _ _ => fun _ => 0
  | .ldst => fun _ => 0
  | .stst => fun _ => 0
  | .shrow => fun _ => 0
  | .rdrk _ => fun _ => 0
  | .keyexp => fun _ => 0
  | .encblk => fun _ => 0

/-- What the `KEYX` step issues (R139, R210). -/
def costKeyexp (k : Fin 7) : Nat := #v[10240, 10240, 170, 0, 0, 0, 0][k]

/-- What the forty steps of one `ENCBLK` issue (R155, R210). -/
def costEncblk (k : Fin 7) : Nat := #v[40960, 40960, 5936, 4608, 4608, 4608, 4608][k]

end Sys2Proof.Machine
end

