-- ==== Sys2Proof/Safety.lean ====
section
/-! DEFINITION. What counts as a safe state of the OAE and the terms in which claims about it are made: the invariant
`Inv` (spec/10_state.md R34, R35, R45 to R48, spec/44_round_pipeline.md R146, R147, spec/60_exceptions.md R177), the
hidden values of the cells, what is left of a state when Encrypted Bytes are erased (R187) or only their ciphertexts
are (spec/00_scope.md R22), and the sequencer's progress. -/
namespace Sys2Proof.Machine

/-- A legal position outside phase `FAULT`: `IDLE` and `DONE` stand where reset, the `KEYX` step and the last step of
a run leave them (R46, R136, R153), and a busy position is one that the program lists (R146). -/
def legalRunning (p : Phase) (n : Round) (st : Stage) : Bool :=
  match p with
  | .idle => n == 0 && decide (st = .sub)
  | .done => n == 10 && decide (st = .ark)
  | .fault => false
  | .load => (program .load n st).isSome
  | .whitened => (program .whitened n st).isSome
  | .main => (program .main n st).isSome
  | .final => (program .final n st).isSome
  | .keyx => (program .keyx n st).isSome

/-- The phases other than `FAULT`. -/
def runningPhases : List Phase := [.idle, .load, .whitened, .main, .final, .done, .keyx]

/-- A legal position: in phase `FAULT` round and stage are those of the position that failed (R177). -/
def legalPosition (p : Phase) (n : Round) (st : Stage) : Bool :=
  if p = .fault then runningPhases.any fun q => legalRunning q n st else legalRunning p n st

/-- A phase of an `ENCBLK` run. -/
def Phase.inRun (p : Phase) : Bool := p = .load || p = .whitened || p = .main || p = .final

/-- A phase of an `ENCBLK` run after the block is in `S`. -/
def Phase.afterLoad (p : Phase) : Bool := p = .whitened || p = .main || p = .final

/-- The invariant of the machine. -/
structure State.Inv (s : State) : Prop where
  /-- `SR.ERR` never holds `FAULTED` (R45, R170). -/
  errCode : s.ERR ≠ .faulted
  /-- The sequencer position is a listed one (R46, R146). -/
  position : legalPosition s.PHASE s.ROUND s.STAGE = true
  /-- With `KEYV = 1` every `RK` cell holds a value (R35). -/
  keyWhole : s.KEYV = true → ∀ n : Fin 11, blockFull s.RK[n] = true
  /-- With `KEYV = 0` no `RK` cell does (R35). -/
  keyNone : s.KEYV = false → ∀ n : Fin 11, s.RK[n] = emptyBlock
  /-- `S` is written as a whole (R105). -/
  matrixWhole : matrixFull s.S = true ∨ s.S = emptyMatrix
  /-- While a run is on, the key and the block are there (R147). -/
  runLoaded : s.PHASE.inRun = true → s.KEYV = true ∧ blockFull s.B = true
  /-- After its first step, so is the state matrix. -/
  runMatrix : s.PHASE.afterLoad = true → matrixFull s.S = true
  /-- While the key is expanded, the master key is there and no key is valid (R135, R136). -/
  keyLoaded : s.PHASE = .keyx → blockFull s.B = true ∧ s.KEYV = false
  /-- In phase `FAULT` every cell is empty, no key is valid and an error is latched (R177). -/
  faultEmpty : s.PHASE = .fault → s.B = emptyBlock ∧ s.S = emptyMatrix ∧ s.KEYV = false ∧ s.ERR ≠ .ok

/-- The hidden value a cell holds, if it holds one. -/
def hidden? (c : Cell) : Option Byte := c.map Ct.hidden

/-- `val(B[j])` is `b[j]` in every cell. -/
def State.blockIs (s : State) (b : HBlock) : Prop := ∀ j : Fin 16, hidden? s.B[j] = some b[j]

/-- `val(S[r][c])` is `m[r][c]` in every cell. -/
def State.matrixIs (s : State) (m : HMatrix) : Prop := ∀ r c : Fin 4, hidden? s.S[r][c] = some m[r][c]

/-- `val(RK[n][j])` is `rk[n][j]` in every cell. -/
def State.keyIs (s : State) (rk : Vector HBlock 11) : Prop :=
  ∀ (n : Fin 11) (j : Fin 16), hidden? s.RK[n][j] = some rk[n][j]

/-- The counters after `n k` more invocations of each class `k`, modulo 2^32 (R49). -/
def countersPlus (cnt : Vector Word 7) (n : Fin 7 → Nat) : Vector Word 7 :=
  Vector.ofFn fun k => cnt[k] + BitVec.ofNat 32 (n k)

/-- The command port takes commands of every kind now: phase `IDLE` or `DONE` (R82 (b), R184). -/
abbrev State.ready (s : State) : Prop := s.PHASE = .idle ∨ s.PHASE = .done

/-- Only lane 0 issues invocations, `n` of them. -/
def oneLane (n lane : Nat) : Nat := if lane = 0 then n else 0

/-- The sixteen lanes of a stage issue `n` invocations each. -/
def sixteenLanes (n lane : Nat) : Nat := if lane < 16 then n else 0

/-- Invocations in one lane of SubBytes: `encp(0)`, then `encp`, `eq`, `encp`, `cadd` for each candidate (R110). -/
def substituteLength : Nat := 1025

/-- Invocations of one `galoisMul(a, k)`: `encp(0)`, five in each of eight doublings, one for each bit of `k` (R121). -/
def galoisLength (k : Byte) : Nat := 41 + popcount k

/-- Invocations in one lane of MixColumns: four products by 1, 1, 2 and 3, and three combinations (R124). -/
def mixLength : Nat := 172

/-- Invocations in lane `4i + t` of the key expansion (R138). -/
def expandLength (lane : Nat) : Nat :=
  if lane < 16 then 0
  else if 176 ≤ lane then 0
  else if lane / 4 % 4 = 0 then (if lane % 4 = 0 then 1028 else 1026)
  else 1

/-- The lanes of the sequencer step that a position names. -/
def Work.lanes : Work → Nat → Nat
  | .loadArk => sixteenLanes 1
  | .sub => sixteenLanes substituteLength
  | .shr => fun _ => 0
  | .mix => sixteenLanes mixLength
  | .ark => sixteenLanes 1
  | .arkStore => sixteenLanes 1
  | .expand => expandLength

/-- The invocations that each lane of a command issues when it is not rejected (R177, R210). -/
def commandLanes : Instr → Nat → Nat
  | .encc _ _ => oneLane 1
  | .xorb _ _ _ => oneLane 1
  | .sbox _ _ => oneLane substituteLength
  | .gmul _ _ k => oneLane (galoisLength k)
  | .subb => sixteenLanes substituteLength
  | .mixc => sixteenLanes mixLength
  | .ark _ => sixteenLanes 1
  | .nop => fun _ => 0
  | .rdsr => fun _ => 0
  | .rdcnt _ => fun _ => 0
  | .clrcnt => fun _ => 0
  | .srst => fun _ => 0
  | .put _ => fun _ => 0
  | .get _ => fun _ => 0
  | .mov _ _ => fun _ => 0
  | .ldst => fun _ => 0
  | .stst => fun _ => 0
  | .shrow => fun _ => 0
  | .rdrk _ => fun _ => 0
  | .keyexp => fun _ => 0
  | .encblk => fun _ => 0

/-- An operand names a cell of `B` that holds a value (R86, R174). -/
abbrev State.readable (s : State) (a : Byte) : Prop := ∃ j : Fin 16, a.toNat = j.val ∧ s.B[j].isSome

/-- Every cell of the state matrix holds a value. -/
abbrev State.matrixLoaded (s : State) : Prop := ∀ r c : Fin 4, s.S[r][c].isSome

/-- The command is one of the seven that issue primitives, and none of its rejects applies (R177, R179). -/
abbrev State.issues (s : State) : Instr → Prop
  | .encc d _ => d.toNat ≤ 15
  | .xorb d a b => d.toNat ≤ 15 ∧ s.readable a ∧ s.readable b
  | .sbox d a => d.toNat ≤ 15 ∧ s.readable a
  | .gmul d a _ => d.toNat ≤ 15 ∧ s.readable a
  | .subb => s.matrixLoaded
  | .mixc => s.matrixLoaded
  | .ark n => s.KEYV = true ∧ (∃ k : Fin 11, n.toNat = k.val ∧ ∀ j : Fin 16, s.RK[k][j].isSome) ∧ s.matrixLoaded
  | .nop => False
  | .rdsr => False
  | .rdcnt _ => False
  | .clrcnt => False
  | .srst => False
  | .put _ => False
  | .get _ => False
  | .mov _ _ => False
  | .ldst => False
  | .stst => False
  | .shrow => False
  | .rdrk _ => False
  | .keyexp => False
  | .encblk => False

/-- No failure that the scheme has listed falls on a step from `first` to `first + n - 1`. -/
def State.noFailureFor (s : State) (n : Nat) : Prop :=
  ∀ f ∈ s.failures, f.step < s.stepNo ∨ s.stepNo + n ≤ f.step

/-- How many sequencer steps are left from a position of a run (R146), 1 for the `KEYX` step, 0 when not busy. -/
def stepsLeft (p : Phase) (n : Round) (st : Stage) : Nat :=
  match p with
  | .load => 40
  | .whitened => 39
  | .main =>
    match st with
    | .sub => 43 - 4 * n.toNat
    | .shr => 42 - 4 * n.toNat
    | .mix => 41 - 4 * n.toNat
    | .ark => 40 - 4 * n.toNat
  | .final =>
    match st with
    | .sub => 3
    | .shr => 2
    | .mix => 1
    | .ark => 1
  | .keyx => 1
  | .idle => 0
  | .done => 0
  | .fault => 0

/-- Replace every Encrypted Byte that a state holds, or that is coming from the outside. -/
def Event.mapCt (f : Ct → Ct) : Event → Event
  | .present w din => .present w (f din)
  | .hardReset => .hardReset
  | .sequencer => .sequencer

/-- Replace the Encrypted Byte of a response. -/
def Response.mapCt (f : Ct → Ct) (r : Response) : Response := { r with dout := r.dout.map f }

/-- Replace every Encrypted Byte of a state. -/
def State.mapCt (f : Ct → Ct) (s : State) : State :=
  { s with
    B := s.B.map (Option.map f)
    S := s.S.map (Vector.map (Option.map f))
    RK := s.RK.map (Vector.map (Option.map f))
    din := f s.din
    resp := s.resp.map (Response.mapCt f)
    script := s.script.map (Event.mapCt f) }

/-- Replace every Encrypted Byte of what a step answers. -/
def Out.mapCt (f : Ct → Ct) : Out → Out
  | .next s => .next (s.mapCt f)
  | .fault r => .fault r
  | .refused r => .refused r

/-- Nothing is left of an Encrypted Byte but that it is there (R187). -/
def eraseCt (_ : Ct) : Ct := ⟨0, 0⟩

/-- Only the hidden value is left of an Encrypted Byte (R22). -/
def forgetBits (x : Ct) : Ct := ⟨x.hidden, 0⟩

/-- The command word that the next step takes from the command port, if it takes one (R82). -/
def State.served (s : State) : Option Word :=
  match s.script, s.cmd with
  | .hardReset :: _, _ => none
  | _, some w => if s.accepts w then some w else none
  | .present w _ :: _, none => if s.accepts w then some w else none
  | .sequencer :: _, none => none
  | [], none => none

/-- The next step resets the machine: hard reset, or a well-formed `SRST` (R182, R195, R196). -/
def State.resets (s : State) : Bool := s.script.head? == some .hardReset || s.served == some 0x04000000

/-- A word that has a command's opcode and a nonzero unused field is no command: in phases `IDLE` and `DONE` it is answered
`ILLEGAL_CMD` with no other effect than on `SR.ERR` (R87, R171, R172). -/
def Malformed (w : Word) : Prop :=
  decode w = .error .unusedFieldNonzero ∧ ∀ s : State, s.ready → runCommand w s = .next (s.reject .illegalCmd)

/-- Format `Z` (R83): the word with every other field 0 is the command, any other word with this opcode is malformed. -/
def FormatZ (opc : Byte) (i : Instr) : Prop :=
  decode (wordOf opc 0 0 0) = .ok i ∧
  ∀ a b c : Byte, a ≠ 0 ∨ b ≠ 0 ∨ c ≠ 0 → Malformed (wordOf opc a b c)

/-- Format `A` (R83): operand `A`, and `Bf` and `C` must be 0. -/
def FormatA (opc : Byte) (i : Byte → Instr) : Prop :=
  (∀ a : Byte, decode (wordOf opc a 0 0) = .ok (i a)) ∧
  ∀ a b c : Byte, b ≠ 0 ∨ c ≠ 0 → Malformed (wordOf opc a b c)

/-- Format `AC` (R83): operands `A` and `C`, and `Bf` must be 0. -/
def FormatAC (opc : Byte) (i : Byte → Byte → Instr) : Prop :=
  (∀ a c : Byte, decode (wordOf opc a 0 c) = .ok (i a c)) ∧
  ∀ a b c : Byte, b ≠ 0 → Malformed (wordOf opc a b c)

/-- Format `AB` (R83): operands `A` and `Bf`, and `C` must be 0. -/
def FormatAB (opc : Byte) (i : Byte → Byte → Instr) : Prop :=
  (∀ a b : Byte, decode (wordOf opc a b 0) = .ok (i a b)) ∧
  ∀ a b c : Byte, c ≠ 0 → Malformed (wordOf opc a b c)

/-- Format `ABC` (R83): three operands, no unused field. -/
def FormatABC (opc : Byte) (i : Byte → Byte → Byte → Instr) : Prop :=
  ∀ a b c : Byte, decode (wordOf opc a b c) = .ok (i a b c)

/-- Run a list of commands at the command port, one after the other. -/
def execAll : List Instr → State → Out
  | [], s => .next s
  | i :: is, s =>
    match exec i s with
    | .next t => execAll is t
    | .fault r => .fault r
    | .refused r => .refused r

/-- One encryption by hand with the stage commands: 42 commands (R156, R90). -/
def stageCommands : List Instr :=
  [.ldst, .ark 0] ++ ([1, 2, 3, 4, 5, 6, 7, 8, 9] : List Byte).flatMap pseudoRound ++ pseudoFround ++ [.stst]

end Sys2Proof.Machine
end

