-- ==== Sys2Proof/Certificates/Slice0/Obligations.lean ====
section
/-! DEFINITION. The statements for the provers. Each says which rule of spec/ it formalises. A state `s` is `ready` in
phase `IDLE` or `DONE`; `s.accept` answers `OK`, `s.reject e` answers with the code `e` and latches it in `SR.ERR`, and
both leave everything else of the machine as it was.
`s.failsWithin len` says that the external scheme fails an invocation that the step issues, lane `l` issuing `len l` of
them (R21; the list of failures is the model's form of it, log entry 2). -/

open Sys2Proof Sys2Proof.Machine

/-! Encoding -/

/-- The round trip: no bit of an encoding is dropped, every operand at every value (30_encoding, R83, R85). -/
def Obligations.DecodeOfEncode : Prop :=
  ∀ i : Instr, decode (encode i) = .ok i

/-- Each legal word has one command and each command one word (30_encoding, R87). -/
def Obligations.EncodeOfDecode : Prop :=
  ∀ (w : Word) (i : Instr), decode w = .ok i → encode i = w

/-- R85: a word is the command of a row of the opcode map iff `(w AND mask) = match`. -/
def Obligations.DecoderFollowsOpcodeMap : Prop :=
  ∀ (w : Word) (row : OpcodeRow), row ∈ opcodeMap →
    (w &&& row.mask = row.bits ↔ ∃ i : Instr, decode w = .ok i ∧ i.mnemonic = row.mnemonic)

/-- R87: a word is illegal exactly where no row of the map matches it, by a reserved opcode or by a nonzero unused field. -/
def Obligations.IllegalWordsMatchNoRow : Prop :=
  ∀ w : Word,
    ((∃ e : DecodeError, decode w = .error e) ↔ ∀ row ∈ opcodeMap, w &&& row.mask ≠ row.bits) ∧
    (decode w = .error .reservedOpcode ↔ ∀ row ∈ opcodeMap, opcodeOf w ≠ opcodeOf row.bits)

/-- Words written out from the spec's encodings and examples decode to their commands. -/
def Obligations.SpecWordsDecode : Prop :=
  decode 0x10030000 = .ok (.put 3) ∧ decode 0x12000053 = .ok (.encc 0 0x53) ∧ decode 0x13050300 = .ok (.mov 5 3) ∧
  decode 0x21010000 = .ok (.sbox 1 0) ∧ decode 0x22010002 = .ok (.gmul 1 0 2) ∧
  decode 0x20040203 = .ok (.xorb 4 2 3) ∧ decode 0x350b0000 = .ok (.ark 11) ∧ decode 0x41000000 = .ok .encblk ∧
  decode 0x00000001 = .error .unusedFieldNonzero ∧ decode 0x50000000 = .error .reservedOpcode

/-! The step: which agent moves -/

/-- When the host presents a word that is accepted and decodes to `i`, the step is `exec i` at the state with the
transaction on the port; so it is for a transaction that was waiting (30_encoding, R80, R82). That it is served in the
step in which it is presented, or as soon as it is accepted, is the model's choice of turns (log entry 4). -/
def Obligations.StepRunsTheDecodedCommand : Prop :=
  ∀ (s : State) (w : Word) (i : Instr), decode w = .ok i → (s.busy = false ∨ opcodeOf w = 0x01 ∨ opcodeOf w = 0x02) →
    (∀ (din : Ct) (es : List Event), s.script = .present w din :: es → s.cmd = none →
      step s = exec i ((s.withScript es).present w din)) ∧
    (s.cmd = some w → s.script.head? ≠ some .hardReset → step s = exec i s)

/-- A word that decodes to no command, presented or waiting, is answered `ILLEGAL_CMD` with no other effect but on
`SR.ERR` by the step that serves it in phases `IDLE` and `DONE`; wherever such a word is accepted, that step is what
`runCommand` says of it (30_encoding, R82, R87, R88; 60_exceptions, R171, R172). The step in which a word is served is the
model's choice of turns (log entry 4). -/
def Obligations.IllegalWordIsRejected : Prop :=
  ∀ (s : State) (w : Word) (e : DecodeError), decode w = .error e →
    (s.ready →
      (∀ (din : Ct) (es : List Event), s.script = .present w din :: es → s.cmd = none →
        step s = .next (((s.withScript es).present w din).reject .illegalCmd)) ∧
      (s.cmd = some w → s.script.head? ≠ some .hardReset → step s = .next (s.reject .illegalCmd))) ∧
    ((s.busy = false ∨ opcodeOf w = 0x01 ∨ opcodeOf w = 0x02) →
      (∀ (din : Ct) (es : List Event), s.script = .present w din :: es → s.cmd = none →
        step s = runCommand w ((s.withScript es).present w din)) ∧
      (s.cmd = some w → s.script.head? ≠ some .hardReset → step s = runCommand w s))

/-- R82 (c): while busy a command other than `RDSR` and `RDCNT` is not accepted, whether legal or not: presented, it only
stands on the port, and while it waits the sequencer has the turn (the model's choice of turns, log entry 4). The meaning
of such a command leaves a busy state as it is (the model's choice, log entry 5; no step asks for it). -/
def Obligations.BusyCommandWaits : Prop :=
  (∀ (s : State) (w : Word), s.busy = true → opcodeOf w ≠ 0x01 → opcodeOf w ≠ 0x02 →
    s.accepts w = false ∧
    (∀ (din : Ct) (es : List Event), s.script = .present w din :: es → s.cmd = none →
      step s = .next ((s.withScript es).present w din)) ∧
    (s.cmd = some w → s.script = [] → step s = sequencer s) ∧
    (∀ es : List Event, s.cmd = some w → s.script = .sequencer :: es → step s = sequencer (s.withScript es))) ∧
  ∀ (s : State) (i : Instr), s.busy = true → i ≠ .rdsr → (∀ k : Byte, i ≠ .rdcnt k) → exec i s = .next s

/-- With nothing on the port and nothing coming from the outside, or where the outside yields, the sequencer has the
turn (the model's choice of turns, log entry 4); while not busy it changes nothing (00_scope, R24 (b)). -/
def Obligations.SequencerHasTheTurn : Prop :=
  ∀ s : State, s.cmd = none →
    (s.script = [] → step s = sequencer s) ∧
    (∀ es : List Event, s.script = .sequencer :: es → step s = sequencer (s.withScript es)) ∧
    (s.busy = false → sequencer s = .next s)

/-! Reset -/

/-- R52 and R184 at reset: every cell holds no value, `SR` reads 0, every counter is 0, `done_o = 1`, `fault_o = 0`. -/
def Obligations.ResetStateIsEmpty : Prop :=
  (∀ j : Fin 16, State.reset.B[j] = none) ∧ (∀ r c : Fin 4, State.reset.S[r][c] = none) ∧
  (∀ (n : Fin 11) (j : Fin 16), State.reset.RK[n][j] = none) ∧ State.reset.srWord = 0 ∧
  State.reset.KEYV = false ∧ State.reset.ERR = .ok ∧ State.reset.PHASE = .idle ∧ State.reset.ROUND = 0 ∧
  State.reset.STAGE = .sub ∧ (∀ k : Fin 7, State.reset.CNT[k] = 0) ∧
  State.reset.doneO = true ∧ State.reset.faultO = false

/-- R195: hard reset, in any phase, is one transition to the reset state, a transaction that was waiting is dropped without
a response, and nothing runs after it. -/
def Obligations.HardResetFromAnyState : Prop :=
  ∀ (s : State) (es : List Event), s.script = .hardReset :: es →
    ∃ t : State, step s = .next t ∧
      t.B = State.reset.B ∧ t.S = State.reset.S ∧ t.RK = State.reset.RK ∧ t.KEYV = false ∧ t.ERR = .ok ∧
      t.PHASE = .idle ∧ t.ROUND = 0 ∧ t.STAGE = .sub ∧ t.CNT = State.reset.CNT ∧ t.srWord = 0 ∧ t.busy = false ∧
      t.doneO = true ∧ t.faultO = false ∧ t.cmd = none ∧ t.resp = none ∧ t.script = es ∧ sequencer t = .next t

/-- R164, R196: `SRST` in `IDLE`, `DONE` and `FAULT` gives the reset state and is answered `OK`; while busy it is not
accepted; it is the only command that leaves `FAULT`; a malformed `SRST` is rejected, and in `FAULT` answered `FAULTED`. -/
def Obligations.SrstResets : Prop :=
  FormatZ 0x04 .srst ∧
  ∀ s : State,
    (s.busy = true → s.accepts (encode .srst) = false) ∧
    (s.busy = false → ∃ t : State, exec .srst s = .next t ∧
      t.B = State.reset.B ∧ t.S = State.reset.S ∧ t.RK = State.reset.RK ∧ t.KEYV = false ∧ t.ERR = .ok ∧
      t.PHASE = .idle ∧ t.ROUND = 0 ∧ t.STAGE = .sub ∧ t.CNT = State.reset.CNT ∧ t.srWord = 0 ∧
      t.cmd = none ∧ t.resp = some ⟨.ok, 0, none⟩ ∧ t.script = s.script ∧ t.din = s.din ∧ t.failures = s.failures) ∧
    (∀ (i : Instr) (t : State), s.PHASE = .fault → exec i s = .next t → t.PHASE ≠ .fault → i = .srst) ∧
    ∀ (w : Word) (e : DecodeError), opcodeOf w = 0x04 → decode w = .error e →
      (s.ready → runCommand w s = .next (s.reject .illegalCmd)) ∧
      (s.PHASE = .fault → runCommand w s = .next (s.answer .faulted 0 none))

/-! Control and status commands -/

/-- R160: `NOP` is answered `OK` and changes nothing; while busy it is not accepted, in phase `FAULT` it is answered `FAULTED`. -/
def Obligations.NopOnlyAnswers : Prop :=
  FormatZ 0x00 .nop ∧
  ∀ s : State,
    (s.ready → exec .nop s = .next s.accept) ∧
    (s.busy = true → s.accepts (encode .nop) = false) ∧
    (s.PHASE = .fault → exec .nop s = .next (s.answer .faulted 0 none))

/-- R161: `RDSR` returns `SR` in every phase and changes nothing; a malformed `RDSR` is rejected in every phase. -/
def Obligations.RdsrReturnsTheStatusWord : Prop :=
  FormatZ 0x01 .rdsr ∧
  ∀ s : State,
    exec .rdsr s = .next (s.answer .ok s.srWord none) ∧
    ∀ (w : Word) (e : DecodeError), opcodeOf w = 0x01 → decode w = .error e →
      runCommand w s = .next (s.reject .illegalCmd)

/-- R44, R184, and the layout of R43: each field of `SR` at its bits, the reserved bits 0 in every state, `BUSY` as a
function of `PHASE`, the eight phase codes of R47, the four stage codes of R46, the eight error codes of R170, and the two
output signals. -/
def Obligations.StatusWordLayout : Prop :=
  (∀ s : State,
    s.srWord.extractLsb' 0 1 = BitVec.ofBool (s.PHASE ≠ .idle ∧ s.PHASE ≠ .done ∧ s.PHASE ≠ .fault) ∧
    s.srWord.extractLsb' 1 1 = BitVec.ofBool s.KEYV ∧
    s.srWord.extractLsb' 2 2 = 0 ∧
    s.srWord.extractLsb' 4 4 = s.ERR.code ∧
    s.srWord.extractLsb' 8 3 = s.PHASE.code ∧
    s.srWord.extractLsb' 11 1 = 0 ∧
    s.srWord.extractLsb' 12 4 = s.ROUND ∧
    s.srWord.extractLsb' 16 2 = s.STAGE.code ∧
    s.srWord.extractLsb' 18 14 = 0 ∧
    (s.doneO = true ↔ s.PHASE = .idle ∨ s.PHASE = .done) ∧ (s.faultO = true ↔ s.PHASE = .fault)) ∧
  (Phase.code .idle = 0 ∧ Phase.code .load = 1 ∧ Phase.code .whitened = 2 ∧ Phase.code .main = 3 ∧
    Phase.code .final = 4 ∧ Phase.code .done = 5 ∧ Phase.code .keyx = 6 ∧ Phase.code .fault = 7) ∧
  (Stage.code .sub = 0 ∧ Stage.code .shr = 1 ∧ Stage.code .mix = 2 ∧ Stage.code .ark = 3) ∧
  (Status.code .ok = 0 ∧ Status.code .illegalCmd = 1 ∧ Status.code .badIndex = 2 ∧ Status.code .unwritten = 3 ∧
    Status.code .badSize = 4 ∧ Status.code .noKey = 5 ∧ Status.code .primFail = 6 ∧ Status.code .faulted = 7) ∧
  State.reset.doneO = true ∧ State.reset.faultO = false

/-- R162: `RDCNT k` returns counter `k` and changes nothing, in every phase; in phase `FAULT` it completes too and the
value is unspecified; an index above 6 is rejected, and so is a malformed word, in every phase. -/
def Obligations.RdcntReturnsTheCounter : Prop :=
  FormatA 0x02 .rdcnt ∧
  ∀ (k : Byte) (s : State),
    (∀ j : Fin 7, k.toNat = j.val → s.PHASE ≠ .fault → exec (.rdcnt k) s = .next (s.answer .ok s.CNT[j] none)) ∧
    (k.toNat ≤ 6 → s.PHASE = .fault → ∃ data : Word, exec (.rdcnt k) s = .next (s.answer .ok data none)) ∧
    (6 < k.toNat → exec (.rdcnt k) s = .next (s.reject .badIndex)) ∧
    ∀ (w : Word) (e : DecodeError), opcodeOf w = 0x02 → decode w = .error e →
      runCommand w s = .next (s.reject .illegalCmd)

/-- R163: `CLRCNT` zeroes the counters and changes nothing else; while busy it is not accepted, in phase `FAULT` it is
answered `FAULTED`. -/
def Obligations.ClrcntZeroesTheCounters : Prop :=
  FormatZ 0x03 .clrcnt ∧
  ∀ s : State,
    (s.ready → ∃ cnt : Vector Word 7,
      exec .clrcnt s = .next (s.withCnt cnt).accept ∧ ∀ k : Fin 7, cnt[k] = 0) ∧
    (s.busy = true → s.accepts (encode .clrcnt) = false) ∧
    (s.PHASE = .fault → exec .clrcnt s = .next (s.answer .faulted 0 none))

/-! State-matrix and data-movement commands -/

/-- R100: `PUT d` writes `din` to `B[d]` and changes nothing else; an index above 15 is rejected. -/
def Obligations.PutWritesDin : Prop :=
  FormatA 0x10 .put ∧
  ∀ (d : Byte) (s : State), s.ready →
    (∀ j : Fin 16, d.toNat = j.val → exec (.put d) s = .next (s.setB j s.din).accept) ∧
    (15 < d.toNat → exec (.put d) s = .next (s.reject .badIndex))

/-- R101: `GET s` returns the Encrypted Byte of `B[s]` and changes nothing. -/
def Obligations.GetReturnsTheCell : Prop :=
  FormatA 0x11 .get ∧
  ∀ (d : Byte) (s : State), s.ready →
    (∀ (j : Fin 16) (x : Ct), d.toNat = j.val → s.B[j] = some x →
      exec (.get d) s = .next (s.answer .ok 0 (some x))) ∧
    (∀ j : Fin 16, d.toNat = j.val → s.B[j] = none → exec (.get d) s = .next (s.reject .unwritten)) ∧
    (15 < d.toNat → exec (.get d) s = .next (s.reject .badIndex))

/-- R102: `ENCC d, imm8` writes an Encrypted Byte with hidden value `imm8` to `B[d]` and changes nothing else. -/
def Obligations.EnccWritesThePublicByte : Prop :=
  FormatAC 0x12 .encc ∧
  ∀ (d imm : Byte) (s : State), s.ready →
    (∀ j : Fin 16, d.toNat = j.val → s.failsWithin (oneLane 1) = false →
      ∃ y : Ct, y.hidden = imm ∧ exec (.encc d imm) s = .next (s.setB j y).accept) ∧
    (d.toNat ≤ 15 → s.failsWithin (oneLane 1) = true →
      exec (.encc d imm) s = .next (s.takeFault.answer .primFail 0 none)) ∧
    (15 < d.toNat → exec (.encc d imm) s = .next (s.reject .badIndex))

/-- R103: `MOV d, s` copies the Encrypted Byte itself and changes nothing else. -/
def Obligations.MovCopiesTheCell : Prop :=
  FormatAB 0x13 .mov ∧
  ∀ (d a : Byte) (s : State), s.ready →
    (∀ (i j : Fin 16) (x : Ct), d.toNat = i.val → a.toNat = j.val → s.B[j] = some x →
      exec (.mov d a) s = .next (s.setB i x).accept) ∧
    (∀ j : Fin 16, d.toNat ≤ 15 → a.toNat = j.val → s.B[j] = none →
      exec (.mov d a) s = .next (s.reject .unwritten)) ∧
    (15 < d.toNat ∨ 15 < a.toNat → exec (.mov d a) s = .next (s.reject .badIndex))

/-- R104: `LDST` moves the cells of `B` to `S`, offset `4c + r` to `(r, c)`, unless some cell of `B` is empty. -/
def Obligations.LdstLoadsTheMatrix : Prop :=
  FormatZ 0x30 .ldst ∧
  ∀ s : State, s.ready →
    ((∀ j : Fin 16, s.B[j].isSome) → ∃ m : Matrix, exec .ldst s = .next (s.withS m).accept ∧
      ∀ r c : Fin 4, m[r][c] = s.B[4 * c.val + r.val]) ∧
    ((∃ j : Fin 16, s.B[j] = none) → exec .ldst s = .next (s.reject .badSize))

/-- R105: `STST` moves the cells of `S` to `B`, `(r, c)` to offset `4c + r`, unless some cell of `S` is empty. -/
def Obligations.StstStoresTheMatrix : Prop :=
  FormatZ 0x31 .stst ∧
  ∀ s : State, s.ready →
    ((∀ r c : Fin 4, s.S[r][c].isSome) → ∃ b : Block, exec .stst s = .next (s.withB b).accept ∧
      ∀ r c : Fin 4, b[4 * c.val + r.val] = s.S[r][c]) ∧
    ((∃ r c : Fin 4, s.S[r][c] = none) → exec .stst s = .next (s.reject .unwritten))

/-! Substitution -/

/-- R111: `SBOX d, s` writes an Encrypted Byte with hidden value `SBOX[val(B[s])]` to `B[d]`, adds 256 to `CNT[EQ]` and
`CNT[SEL]`, and changes nothing else; its errors in their order. -/
def Obligations.SboxSubstitutesTheByte : Prop :=
  FormatAB 0x21 .sbox ∧
  ∀ (d a : Byte) (s : State), s.ready →
    (∀ (i j : Fin 16) (x : Ct), d.toNat = i.val → a.toNat = j.val → s.B[j] = some x →
      (s.failsWithin (oneLane substituteLength) = false → ∃ y : Ct, y.hidden = sbox x.hidden ∧
        exec (.sbox d a) s =
          .next ((s.setB i y).withCnt (countersPlus s.CNT #v[256, 256, 0, 0, 0, 0, 0].get)).accept) ∧
      (s.failsWithin (oneLane substituteLength) = true →
        exec (.sbox d a) s = .next (s.takeFault.answer .primFail 0 none))) ∧
    (∀ j : Fin 16, d.toNat ≤ 15 → a.toNat = j.val → s.B[j] = none →
      exec (.sbox d a) s = .next (s.reject .unwritten)) ∧
    (15 < d.toNat ∨ 15 < a.toNat → exec (.sbox d a) s = .next (s.reject .badIndex))

/-- R112: `SUBB` substitutes all sixteen cells of `S`, adds 4096 to `CNT[EQ]` and `CNT[SEL]`, and changes nothing else. -/
def Obligations.SubbSubstitutesTheMatrix : Prop :=
  FormatZ 0x32 .subb ∧
  ∀ s : State, s.ready →
    (∀ x : Fin 4 → Fin 4 → Ct, (∀ r c : Fin 4, s.S[r][c] = some (x r c)) →
      (s.failsWithin (sixteenLanes substituteLength) = false → ∃ y : Fin 4 → Fin 4 → Ct,
        (∀ r c : Fin 4, (y r c).hidden = sbox (x r c).hidden) ∧
        exec .subb s =
          .next ((s.withS (matrixOf y)).withCnt (countersPlus s.CNT #v[4096, 4096, 0, 0, 0, 0, 0].get)).accept) ∧
      (s.failsWithin (sixteenLanes substituteLength) = true →
        exec .subb s = .next (s.takeFault.answer .primFail 0 none))) ∧
    ((∃ r c : Fin 4, s.S[r][c] = none) → exec .subb s = .next (s.reject .unwritten))

/-! The linear layer -/

/-- R120: `XORB d, a, b` writes an Encrypted Byte with hidden value `val(B[a]) XOR val(B[b])` to `B[d]`, adds 1 to
`CNT[ADD]`, and changes nothing else. -/
def Obligations.XorbCombinesTwoBytes : Prop :=
  FormatABC 0x20 .xorb ∧
  ∀ (d a b : Byte) (s : State), s.ready →
    (∀ (i j k : Fin 16) (x y : Ct), d.toNat = i.val → a.toNat = j.val → b.toNat = k.val →
      s.B[j] = some x → s.B[k] = some y →
      (s.failsWithin (oneLane 1) = false → ∃ z : Ct, z.hidden = x.hidden ^^^ y.hidden ∧
        exec (.xorb d a b) s =
          .next ((s.setB i z).withCnt (countersPlus s.CNT #v[0, 0, 1, 0, 0, 0, 0].get)).accept) ∧
      (s.failsWithin (oneLane 1) = true →
        exec (.xorb d a b) s = .next (s.takeFault.answer .primFail 0 none))) ∧
    (∀ j k : Fin 16, d.toNat ≤ 15 → a.toNat = j.val → b.toNat = k.val → s.B[j] = none ∨ s.B[k] = none →
      exec (.xorb d a b) s = .next (s.reject .unwritten)) ∧
    (15 < d.toNat ∨ 15 < a.toNat ∨ 15 < b.toNat → exec (.xorb d a b) s = .next (s.reject .badIndex))

/-- R122: `GMUL d, s, k` writes an Encrypted Byte with hidden value `gf_mul(val(B[s]), k)`, the field product, to `B[d]`,
counts its invocations, and changes nothing else. -/
def Obligations.GmulIsTheFieldProduct : Prop :=
  FormatABC 0x22 .gmul ∧
  ∀ (d a k : Byte) (s : State), s.ready →
    (∀ (i j : Fin 16) (x : Ct), d.toNat = i.val → a.toNat = j.val → s.B[j] = some x →
      (s.failsWithin (oneLane (galoisLength k)) = false → ∃ y : Ct, y.hidden = gfMul x.hidden k ∧
        exec (.gmul d a k) s =
          .next ((s.setB i y).withCnt (countersPlus s.CNT #v[0, 0, 8 + popcount k, 8, 8, 8, 8].get)).accept) ∧
      (s.failsWithin (oneLane (galoisLength k)) = true →
        exec (.gmul d a k) s = .next (s.takeFault.answer .primFail 0 none))) ∧
    (∀ j : Fin 16, d.toNat ≤ 15 → a.toNat = j.val → s.B[j] = none →
      exec (.gmul d a k) s = .next (s.reject .unwritten)) ∧
    (15 < d.toNat ∨ 15 < a.toNat → exec (.gmul d a k) s = .next (s.reject .badIndex))

/-- R127 on what `galoisMul` yields: by 1 the operand, by 0 zero, two doublings the product by 4, and for every public
constant the field product. -/
def Obligations.GaloisMulLaws : Prop :=
  ∀ (x : Ct) (k : Byte) (step lane step' lane' : Nat),
    (runLane step lane (galoisMul x 1)).1.hidden = x.hidden ∧
    (runLane step lane (galoisMul x 0)).1.hidden = 0 ∧
    (runLane step' lane' (galoisMul (runLane step lane (galoisMul x 2)).1 2)).1.hidden =
      (runLane step lane (galoisMul x 4)).1.hidden ∧
    (runLane step lane (galoisMul x k)).1.hidden = gfMul x.hidden k

/-- R113, R126: what one `substitute` issues does not depend on its operand (256 of class `EQ`, 256 of class `SEL`, no other
counted invocation), and what one `galoisMul(a, k)` issues depends on `k` only. R23, R187: what each of the seven commands
that issue primitives and each sequencer step issues, key expansion among them, is the same for any two states and
operands, the public constants being the same. -/
def Obligations.EnginesAreOblivious : Prop :=
  (∀ (x y : Ct) (k : Byte) (step lane step' lane' : Nat),
    (runLane step lane (substitute x)).2 = (runLane step' lane' (substitute y)).2 ∧
    (∀ j : Fin 7, countClass j [(runLane step lane (substitute x)).2] = #v[256, 256, 0, 0, 0, 0, 0][j]) ∧
    (runLane step lane (galoisMul x k)).2 = (runLane step' lane' (galoisMul y k)).2 ∧
    (∀ j : Fin 7, countClass j [(runLane step lane (galoisMul x k)).2] = #v[0, 0, 8 + popcount k, 8, 8, 8, 8][j])) ∧
  (∀ (s t : State) (d e : Fin 16) (x x' y y' : Ct) (imm k : Byte) (m m' : Fin 4 → Fin 4 → Ct) (key key' : Fin 16 → Ct),
    (enccEffect s d imm).logs = (enccEffect t e imm).logs ∧
    (xorbEffect s d x y).logs = (xorbEffect t e x' y').logs ∧
    (sboxEffect s d x).logs = (sboxEffect t e x').logs ∧
    (gmulEffect s d x k).logs = (gmulEffect t e x' k).logs ∧
    (subEffect s m).logs = (subEffect t m').logs ∧
    (mixEffect s m).logs = (mixEffect t m').logs ∧
    (arkEffect s key m).logs = (arkEffect t key' m').logs ∧
    (expandEffect s key).logs = (expandEffect t key').logs) ∧
  ∀ (w : Work) (s t : State) (e e' : Effect), workEffect w s = some e → workEffect w t = some e' → e.logs = e'.logs

/-- R123: `SHROW` rotates row `r` left by `r`; the Encrypted Bytes move unchanged, nothing else changes, and no failure of
a primitive matters. -/
def Obligations.ShrowRotatesTheRows : Prop :=
  FormatZ 0x33 .shrow ∧
  ∀ s : State, s.ready →
    ((∀ r c : Fin 4, s.S[r][c].isSome) → ∃ m : Matrix, exec .shrow s = .next (s.withS m).accept ∧
      ∀ r c : Fin 4, m[r][c] = s.S[r][(c.val + r.val) % 4]) ∧
    ((∃ r c : Fin 4, s.S[r][c] = none) → exec .shrow s = .next (s.reject .unwritten))

/-- R124: `MIXC` replaces each column by its product with `M`, counts its invocations, and changes nothing else. -/
def Obligations.MixcMixesTheColumns : Prop :=
  FormatZ 0x34 .mixc ∧
  ∀ s : State, s.ready →
    (∀ x : Fin 4 → Fin 4 → Ct, (∀ r c : Fin 4, s.S[r][c] = some (x r c)) →
      (s.failsWithin (sixteenLanes mixLength) = false → ∃ y : Fin 4 → Fin 4 → Ct,
        (∀ c : Fin 4,
          let s0 := (x 0 c).hidden
          let s1 := (x 1 c).hidden
          let s2 := (x 2 c).hidden
          let s3 := (x 3 c).hidden
          (y 0 c).hidden = gfMul s0 2 ^^^ gfMul s1 3 ^^^ s2 ^^^ s3 ∧
          (y 1 c).hidden = s0 ^^^ gfMul s1 2 ^^^ gfMul s2 3 ^^^ s3 ∧
          (y 2 c).hidden = s0 ^^^ s1 ^^^ gfMul s2 2 ^^^ gfMul s3 3 ∧
          (y 3 c).hidden = gfMul s0 3 ^^^ s1 ^^^ s2 ^^^ gfMul s3 2) ∧
        exec .mixc s = .next
          ((s.withS (matrixOf y)).withCnt (countersPlus s.CNT #v[0, 0, 640, 512, 512, 512, 512].get)).accept) ∧
      (s.failsWithin (sixteenLanes mixLength) = true →
        exec .mixc s = .next (s.takeFault.answer .primFail 0 none))) ∧
    ((∃ r c : Fin 4, s.S[r][c] = none) → exec .mixc s = .next (s.reject .unwritten))

/-- R125: `ARK n` combines each cell `(r, c)` of `S` with byte `4r + c` of round key `n`, adds 16 to `CNT[ADD]`, and
changes nothing else; its errors in their order. -/
def Obligations.ArkAddsTheRoundKey : Prop :=
  FormatA 0x35 .ark ∧
  ∀ (a : Byte) (s : State), s.ready →
    (∀ (n : Fin 11) (key : Fin 16 → Ct), a.toNat = n.val → s.KEYV = true →
      (∀ j : Fin 16, s.RK[n][j] = some (key j)) →
      (∀ x : Fin 4 → Fin 4 → Ct, (∀ r c : Fin 4, s.S[r][c] = some (x r c)) →
        (s.failsWithin (sixteenLanes 1) = false → ∃ y : Fin 4 → Fin 4 → Ct,
          (∀ r c : Fin 4, (y r c).hidden = (x r c).hidden ^^^ (key (keyOffset r c)).hidden) ∧
          exec (.ark a) s =
            .next ((s.withS (matrixOf y)).withCnt (countersPlus s.CNT #v[0, 0, 16, 0, 0, 0, 0].get)).accept) ∧
        (s.failsWithin (sixteenLanes 1) = true →
          exec (.ark a) s = .next (s.takeFault.answer .primFail 0 none))) ∧
      ((∃ r c : Fin 4, s.S[r][c] = none) → exec (.ark a) s = .next (s.reject .unwritten))) ∧
    (a.toNat ≤ 10 → s.KEYV = false → exec (.ark a) s = .next (s.reject .noKey)) ∧
    (10 < a.toNat → exec (.ark a) s = .next (s.reject .badIndex))

/-! The key schedule -/

/-- R135: `KEYEXP` at acceptance discards the old key, starts the sequencer and changes nothing else; if a cell of `B` is
empty nothing changes and the old key stays. -/
def Obligations.KeyexpStartsTheExpansion : Prop :=
  FormatZ 0x40 .keyexp ∧
  ∀ s : State, s.ready →
    ((∀ j : Fin 16, s.B[j].isSome) → ∃ rk : Vector Block 11,
      (∀ (n : Fin 11) (j : Fin 16), rk[n][j] = none) ∧
      exec .keyexp s = .next ((s.withKey rk false).moveTo .keyx 0 .sub).accept) ∧
    ((∃ j : Fin 16, s.B[j] = none) → exec .keyexp s = .next (s.reject .badSize))

/-- R136, R138: the `KEYX` step writes the eleven round keys of the AES-128 expansion of `B`, sets `KEYV`, counts, and
goes to `(IDLE, 0, 0)`; if a primitive fails it takes the fault. -/
def Obligations.KeyxStepExpandsTheKey : Prop :=
  ∀ (s : State) (k : Fin 16 → Ct), s.PHASE = .keyx → s.ROUND = 0 → s.STAGE = .sub →
    (∀ j : Fin 16, s.B[j] = some (k j)) →
    (s.failsWithin expandLength = false → ∃ rk : Fin 11 → Fin 16 → Ct,
      (∀ (n : Fin 11) (j : Fin 16), (rk n j).hidden = (hExpand (Vector.ofFn fun j => (k j).hidden))[n][j]) ∧
      sequencer s = .next ((((s.withKey (Vector.ofFn fun n => blockOf (rk n)) true).withCnt
        (countersPlus s.CNT #v[10240, 10240, 170, 0, 0, 0, 0].get)).moveTo .idle 0 .sub).tick)) ∧
    (s.failsWithin expandLength = true → sequencer s = .next s.takeFault.tick)

/-- R137: `RDRK n` copies round key `n` to `B` index for index and changes nothing else; its errors in their order. -/
def Obligations.RdrkCopiesTheRoundKey : Prop :=
  FormatA 0x36 .rdrk ∧
  ∀ (a : Byte) (s : State), s.ready →
    (∀ n : Fin 11, a.toNat = n.val → s.KEYV = true → (∀ j : Fin 16, s.RK[n][j].isSome) →
      exec (.rdrk a) s = .next (s.withB s.RK[n]).accept) ∧
    (a.toNat ≤ 10 → s.KEYV = false → exec (.rdrk a) s = .next (s.reject .noKey)) ∧
    (10 < a.toNat → exec (.rdrk a) s = .next (s.reject .badIndex))

/-- R74: while the expanded key stays valid it does not change, whatever the step does. -/
def Obligations.ExpandedKeyIsImmutable : Prop :=
  ∀ s t : State, s.Inv → step s = .next t → s.KEYV = true → t.KEYV = true → t.RK = s.RK

/-- R48: `KEYV` becomes 1 only by the completing `KEYX` step, and 0 only by reset, by acceptance of `KEYEXP` and by a failing
primitive; those do clear it. -/
def Obligations.KeyValidChanges : Prop :=
  ∀ s t : State, s.Inv → step s = .next t →
    (s.KEYV = false → t.KEYV = true → s.PHASE = .keyx ∧ t.PHASE = .idle) ∧
    (s.KEYV = true → t.KEYV = false → s.resets = true ∨ t.PHASE = .fault ∨ s.served = some 0x40000000 ∧ t.PHASE = .keyx) ∧
    (s.PHASE = .keyx → t.PHASE = .idle → s.resets = false → t.KEYV = true) ∧
    (s.resets = true ∨ t.PHASE = .fault ∨ t.PHASE = .keyx → t.KEYV = false)

/-! The round pipeline -/

/-- R145: `ENCBLK` at acceptance starts the sequencer and changes nothing else; `BAD_SIZE` is checked before `NO_KEY`. -/
def Obligations.EncblkStartsTheRun : Prop :=
  FormatZ 0x41 .encblk ∧
  ∀ s : State, s.ready →
    ((∀ j : Fin 16, s.B[j].isSome) → s.KEYV = true → exec .encblk s = .next (s.moveTo .load 0 .ark).accept) ∧
    ((∀ j : Fin 16, s.B[j].isSome) → s.KEYV = false → exec .encblk s = .next (s.reject .noKey)) ∧
    ((∃ j : Fin 16, s.B[j] = none) → exec .encblk s = .next (s.reject .badSize))

/-- R147: the first step of a run loads the matrix from `B` and adds round key 0; there `B` holds no empty cell and
`KEYV` is 1. -/
def Obligations.LoadStepWhitens : Prop :=
  (∀ (s : State) (b key : Fin 16 → Ct), s.PHASE = .load → s.ROUND = 0 → s.STAGE = .ark →
    (∀ j : Fin 16, s.B[j] = some (b j)) → (∀ j : Fin 16, s.RK[0][j] = some (key j)) →
    s.failsWithin (sixteenLanes 1) = false → ∃ y : Fin 4 → Fin 4 → Ct,
      (∀ r c : Fin 4, (y r c).hidden = (b (blockOffset r c)).hidden ^^^ (key (keyOffset r c)).hidden) ∧
      sequencer s = .next ((((s.withS (matrixOf y)).withCnt
        (countersPlus s.CNT #v[0, 0, 16, 0, 0, 0, 0].get)).moveTo .whitened 1 .sub).tick)) ∧
  ∀ s : State, s.Inv → s.PHASE = .load → s.KEYV = true ∧ ∀ j : Fin 16, s.B[j].isSome

/-- R148, R149: the SubBytes steps, of round 1 from `WHITENED`, of rounds 2 to 9 and of the final round. -/
def Obligations.SubStepsSubstitute : Prop :=
  ∀ (s : State) (x : Fin 4 → Fin 4 → Ct) (p : Phase), s.STAGE = .sub →
    (s.PHASE = .whitened ∧ s.ROUND = 1 ∧ p = .main ∨ s.PHASE = .main ∧ 2 ≤ s.ROUND ∧ s.ROUND ≤ 9 ∧ p = .main ∨
      s.PHASE = .final ∧ s.ROUND = 10 ∧ p = .final) →
    (∀ r c : Fin 4, s.S[r][c] = some (x r c)) → s.failsWithin (sixteenLanes substituteLength) = false →
    ∃ y : Fin 4 → Fin 4 → Ct, (∀ r c : Fin 4, (y r c).hidden = sbox (x r c).hidden) ∧
      sequencer s = .next ((((s.withS (matrixOf y)).withCnt
        (countersPlus s.CNT #v[4096, 4096, 0, 0, 0, 0, 0].get)).moveTo p s.ROUND .shr).tick)

/-- R150: the ShiftRows steps; the final round goes on to AddRoundKey, the others to MixColumns; no counter changes and
no failure of a primitive matters. -/
def Obligations.ShiftStepsRotate : Prop :=
  ∀ (s : State) (next : Stage), s.STAGE = .shr →
    (s.PHASE = .main ∧ 1 ≤ s.ROUND ∧ s.ROUND ≤ 9 ∧ next = .mix ∨ s.PHASE = .final ∧ s.ROUND = 10 ∧ next = .ark) →
    (∀ r c : Fin 4, s.S[r][c].isSome) →
    ∃ m : Matrix, (∀ r c : Fin 4, m[r][c] = s.S[r][(c.val + r.val) % 4]) ∧
      sequencer s = .next ((s.withS m).moveTo s.PHASE s.ROUND next).tick

/-- R151: the MixColumns steps, rounds 1 to 9. -/
def Obligations.MixStepsMix : Prop :=
  ∀ (s : State) (m : HMatrix), s.PHASE = .main → s.STAGE = .mix → 1 ≤ s.ROUND → s.ROUND ≤ 9 → s.matrixIs m →
    s.failsWithin (sixteenLanes mixLength) = false →
    ∃ y : Fin 4 → Fin 4 → Ct, (∀ r c : Fin 4, (y r c).hidden = (hMixColumns m)[r][c]) ∧
      sequencer s = .next ((((s.withS (matrixOf y)).withCnt
        (countersPlus s.CNT #v[0, 0, 640, 512, 512, 512, 512].get)).moveTo .main s.ROUND .ark).tick)

/-- R152: the AddRoundKey steps of rounds 1 to 9; after round 9 the final round begins. -/
def Obligations.ArkStepsAddTheRoundKey : Prop :=
  ∀ (s : State) (n : Fin 11) (x : Fin 4 → Fin 4 → Ct) (key : Fin 16 → Ct),
    s.PHASE = .main → s.STAGE = .ark → s.ROUND.toNat = n.val → 1 ≤ n.val → n.val ≤ 9 →
    (∀ r c : Fin 4, s.S[r][c] = some (x r c)) → (∀ j : Fin 16, s.RK[n][j] = some (key j)) →
    s.failsWithin (sixteenLanes 1) = false →
    ∃ y : Fin 4 → Fin 4 → Ct,
      (∀ r c : Fin 4, (y r c).hidden = (x r c).hidden ^^^ (key (keyOffset r c)).hidden) ∧
      sequencer s = .next ((((s.withS (matrixOf y)).withCnt (countersPlus s.CNT #v[0, 0, 16, 0, 0, 0, 0].get)).moveTo
        (if n.val = 9 then .final else .main) (s.ROUND + 1) .sub).tick)

/-- R153: the last step of a run adds round key 10 and stores the matrix to `B`; phase `DONE` then persists until `ENCBLK`,
`KEYEXP`, a fault or reset. -/
def Obligations.FinalStepStores : Prop :=
  (∀ (s : State) (x : Fin 4 → Fin 4 → Ct) (key : Fin 16 → Ct), s.PHASE = .final → s.ROUND = 10 → s.STAGE = .ark →
    (∀ r c : Fin 4, s.S[r][c] = some (x r c)) → (∀ j : Fin 16, s.RK[10][j] = some (key j)) →
    s.failsWithin (sixteenLanes 1) = false →
    ∃ (y : Fin 4 → Fin 4 → Ct) (b : Block),
      (∀ r c : Fin 4, (y r c).hidden = (x r c).hidden ^^^ (key (keyOffset r c)).hidden) ∧
      (∀ r c : Fin 4, b[4 * c.val + r.val] = some (y r c)) ∧
      sequencer s = .next (((((s.withS (matrixOf y)).withB b).withCnt
        (countersPlus s.CNT #v[0, 0, 16, 0, 0, 0, 0].get)).moveTo .done 10 .ark).tick)) ∧
  (∀ s : State, s.PHASE = .done → sequencer s = .next s) ∧
  ∀ (i : Instr) (s t : State), s.PHASE = .done → i ≠ .encblk → i ≠ .keyexp → i ≠ .srst → exec i s = .next t →
    t.PHASE = .done ∨ t.PHASE = .fault

/-- R177: a sequencer step in which an invocation fails takes the fault, and so does a command in which one fails (none of
its rejects applying), which answers `PRIM_FAIL`. Nothing else of them happens: round and stage stay as they were, every
cell is emptied, `KEYV` is 0, the first error is kept. Only the seven commands that issue primitives answer so. -/
def Obligations.PrimFailTakesTheFault : Prop :=
  (∀ (s : State) (w : Work) (p : Phase) (n : Round) (st : Stage), s.Inv → s.busy = true →
    program s.PHASE s.ROUND s.STAGE = some (w, p, n, st) → s.failsWithin w.lanes = true →
    ∃ t : State, sequencer s = .next t ∧ t.PHASE = .fault ∧ t.ROUND = s.ROUND ∧ t.STAGE = s.STAGE ∧ t.KEYV = false ∧
      t.ERR = (if s.ERR = .ok then .primFail else s.ERR) ∧ (∀ j : Fin 16, t.B[j] = none) ∧
      (∀ r c : Fin 4, t.S[r][c] = none) ∧ (∀ (n : Fin 11) (j : Fin 16), t.RK[n][j] = none) ∧ t.resp = s.resp) ∧
  (∀ (i : Instr) (s : State), s.ready → s.issues i → s.failsWithin (commandLanes i) = true →
    exec i s = .next (s.takeFault.answer .primFail 0 none)) ∧
  ∀ (i : Instr) (s t : State) (r : Response), s.ready → exec i s = .next t → t.resp = some r → r.status = .primFail →
    i.mnemonic ∈ ["ENCC", "XORB", "SBOX", "GMUL", "SUBB", "MIXC", "ARK"] ∧ r.data = 0 ∧ r.dout = none ∧
      t.PHASE = .fault ∧ t.ROUND = s.ROUND ∧ t.STAGE = s.STAGE ∧ t.KEYV = false ∧
      t.ERR = (if s.ERR = .ok then .primFail else s.ERR) ∧ (∀ j : Fin 16, t.B[j] = none) ∧
      (∀ r c : Fin 4, t.S[r][c] = none) ∧ (∀ (n : Fin 11) (j : Fin 16), t.RK[n][j] = none)

/-- Every sequencer step that does not fail moves to a position one step nearer the end of the run; it never goes back
and never branches (44_round_pipeline, R146; 20_memory, R71). -/
def Obligations.SequencerAdvancesByOne : Prop :=
  ∀ s t : State, s.Inv → s.busy = true → sequencer s = .next t →
    t.PHASE = .fault ∨ stepsLeft t.PHASE t.ROUND t.STAGE + 1 = stepsLeft s.PHASE s.ROUND s.STAGE

/-- Every run ends: left to itself, a busy machine is not busy after the steps that its position has left, at most forty
(44_round_pipeline, R146, R158). A step here is a turn of the model: that the sequencer has every turn while nothing is
outstanding and nothing is coming is the model's choice (log entry 13), and R158 bounds no time. -/
def Obligations.EveryRunEnds : Prop :=
  ∀ s : State, s.Inv → s.cmd = none → s.script = [] →
    stepsLeft s.PHASE s.ROUND s.STAGE ≤ 40 ∧
    ∃ t : State, Host.Core.run core (stepsLeft s.PHASE s.ROUND s.STAGE) s = .next t ∧ t.busy = false

/-- From acceptance of `ENCBLK`, forty steps without a failure put into `B` the AES-128 encryption of the block under the
expanded key, leave the key as it was, and add the totals of R155 (44_round_pipeline, R154, R155). The forty steps are
turns of the model, in which the sequencer has every turn (the model's choice, log entry 13), and measure no time. -/
def Obligations.RunEncryptsTheBlock : Prop :=
  ∀ (s : State) (b : HBlock) (rk : Vector HBlock 11), s.PHASE = .load → s.ROUND = 0 → s.STAGE = .ark →
    s.cmd = none → s.script = [] → s.blockIs b → s.keyIs rk → s.noFailureFor 40 →
    ∃ t : State, Host.Core.run core 40 s = .next t ∧ t.blockIs (hEncryptBlock b rk) ∧
      t.matrixIs (hFromBlock (hEncryptBlock b rk)) ∧ t.RK = s.RK ∧ t.KEYV = s.KEYV ∧ t.ERR = s.ERR ∧
      t.PHASE = .done ∧ t.ROUND = 10 ∧ t.STAGE = .ark ∧
      t.CNT = countersPlus s.CNT #v[40960, 40960, 5936, 4608, 4608, 4608, 4608].get

/-- The forty-two stage commands by hand compute the same as one `ENCBLK`, with the same counts; only the position is
left where it was (44_round_pipeline, R156). -/
def Obligations.StageCommandsEncryptTheBlock : Prop :=
  ∀ (s : State) (b : HBlock) (rk : Vector HBlock 11), s.ready → s.KEYV = true → s.blockIs b → s.keyIs rk →
    s.noFailureFor 42 →
    ∃ t : State, execAll stageCommands s = .next t ∧ t.blockIs (hEncryptBlock b rk) ∧
      t.matrixIs (hFromBlock (hEncryptBlock b rk)) ∧ t.RK = s.RK ∧ t.KEYV = s.KEYV ∧ t.ERR = s.ERR ∧
      t.PHASE = s.PHASE ∧ t.ROUND = s.ROUND ∧ t.STAGE = s.STAGE ∧
      t.CNT = countersPlus s.CNT #v[40960, 40960, 5936, 4608, 4608, 4608, 4608].get

/-! Errors and whole-machine rules -/

/-- R180: in phase `FAULT` every command but `RDSR`, an in-range `RDCNT` and `SRST`, and every illegal word but a malformed
`RDSR` or `RDCNT`, is answered `FAULTED`, and nothing changes; those get their own status and change nothing either, the
error register being nonzero; no command but `SRST` clears the fault. -/
def Obligations.FaultAnswersFaulted : Prop :=
  ∀ s : State, s.PHASE = .fault →
    (∀ i : Instr, i ≠ .rdsr → i ≠ .srst → (∀ k : Byte, i ≠ .rdcnt k) →
      exec i s = .next (s.answer .faulted 0 none)) ∧
    (∀ (w : Word) (e : DecodeError), decode w = .error e → opcodeOf w ≠ 0x01 → opcodeOf w ≠ 0x02 →
      runCommand w s = .next (s.answer .faulted 0 none)) ∧
    (∀ (w : Word) (e : DecodeError), s.ERR ≠ .ok → decode w = .error e → opcodeOf w = 0x01 ∨ opcodeOf w = 0x02 →
      runCommand w s = .next (s.answer .illegalCmd 0 none)) ∧
    (∀ k : Byte, s.ERR ≠ .ok → 6 < k.toNat → exec (.rdcnt k) s = .next (s.answer .badIndex 0 none)) ∧
    ∀ (i : Instr) (t : State), i ≠ .srst → exec i s = .next t → t.PHASE = .fault

/-- R182: only reset leaves phase `FAULT`; until then no cell, key or error changes. -/
def Obligations.OnlyResetLeavesFault : Prop :=
  ∀ s t : State, s.PHASE = .fault → s.ERR ≠ .ok → s.resets = false → step s = .next t →
    t.PHASE = .fault ∧ t.ROUND = s.ROUND ∧ t.STAGE = s.STAGE ∧ t.ERR = s.ERR ∧ t.KEYV = s.KEYV ∧
    t.B = s.B ∧ t.S = s.S ∧ t.RK = s.RK

/-- R45: `SR.ERR` is 0 after reset; while it is 0 it takes the code of the first error, a command's status other than
`FAULTED` or the `PRIM_FAIL` of a sequencer step; once nonzero it keeps its value until reset. -/
def Obligations.FirstErrorIsKept : Prop :=
  State.reset.ERR = .ok ∧
  ∀ s t : State, s.resets = false → step s = .next t →
    (s.ERR ≠ .ok → t.ERR = s.ERR) ∧
    (s.ERR = .ok →
      (∀ (w : Word) (r : Response), s.served = some w → t.resp = some r →
        t.ERR = if r.status = .faulted then .ok else r.status) ∧
      (s.served = none → t.ERR = if s.PHASE ≠ .fault ∧ t.PHASE = .fault then .primFail else .ok))

/-- A command answered with a nonzero status other than `PRIM_FAIL` is precise: no cell, counter, flag or position
changes, `data` is 0, and `SR.ERR` latches the code if it was 0 (60_exceptions, R171, R183). -/
def Obligations.RejectsArePrecise : Prop :=
  ∀ (i : Instr) (s t : State) (r : Response), s.ready → exec i s = .next t → t.resp = some r →
    r.status ≠ .ok → r.status ≠ .primFail →
    t = s.reject r.status ∧ r.data = 0 ∧ r.dout = none ∧ t.B = s.B ∧ t.S = s.S ∧ t.RK = s.RK ∧ t.KEYV = s.KEYV ∧
      t.CNT = s.CNT ∧ t.PHASE = s.PHASE ∧ t.ROUND = s.ROUND ∧ t.STAGE = s.STAGE ∧
      t.ERR = (if s.ERR = .ok then r.status else s.ERR)

/-- R46: commands executed while not busy, other than `ENCBLK`, `KEYEXP` and `SRST`, do not move the sequencer's round and
stage, and leave the phase but for the fault. -/
def Obligations.CommandsKeepThePosition : Prop :=
  ∀ (i : Instr) (s t : State), i ≠ .encblk → i ≠ .keyexp → i ≠ .srst → exec i s = .next t →
    t.ROUND = s.ROUND ∧ t.STAGE = s.STAGE ∧ (t.PHASE = s.PHASE ∨ t.PHASE = .fault)

/-- R190, R210: a command that completes with `OK` adds to each counter the cost of the command word, whatever the hidden
values are; `CLRCNT` and `SRST` are the only others that write them. -/
def Obligations.CountersFollowTheCostTable : Prop :=
  ∀ (i : Instr) (s t : State), i ≠ .clrcnt → i ≠ .srst → s.ready → exec i s = .next t →
    t.resp.map Response.status = some .ok → t.CNT = countersPlus s.CNT (cost i)

/-- Every step keeps the invariant: the first error is a code 0 to 6, the position is a listed one, the key is whole
with `KEYV = 1` and empty with `KEYV = 0`, `S` is whole or empty, a run has its key, block and matrix, and in phase `FAULT`
every cell is empty, no key is valid and an error is latched (R34, R35, R45 to R48, R146, R147, R177). -/
def Obligations.StepKeepsTheInvariant : Prop :=
  ∀ s t : State, s.Inv → step s = .next t → t.Inv

/-- The invariant holds after reset. -/
def Obligations.ResetHasTheInvariant : Prop := State.reset.Inv

/-- Nothing in the OAE is stuck: from every state with the invariant the step answers a next state (93 section 1). -/
def Obligations.StepNeverStops : Prop :=
  ∀ s : State, s.Inv → ∃ t : State, step s = .next t

/-- No command, output or status bit is a function of a hidden value: two states that differ in nothing but their
Encrypted Bytes are taken to states that differ in nothing else (60_exceptions, R187). -/
def Obligations.NothingPublicDependsOnCiphertexts : Prop :=
  ∀ s t : State, s.mapCt eraseCt = t.mapCt eraseCt → Out.mapCt eraseCt (step s) = Out.mapCt eraseCt (step t)

/-- The hidden values that a step produces depend on hidden values alone, not on ciphertexts or their free draws
(00_scope, R22; 44_round_pipeline, R158; 43_key_schedule, R140). -/
def Obligations.HiddenValuesAreDeterministic : Prop :=
  ∀ s t : State, s.mapCt forgetBits = t.mapCt forgetBits → Out.mapCt forgetBits (step s) = Out.mapCt forgetBits (step t)
end

