-- ==== Sys2Proof/Laws/Scheme.lean ====
section
/-! SUPPORT. What chains of primitive invocations yield and issue: one rule for each primitive, and for `substitute`,
`galoisMul` and the stages built from them. `Yields c P`: whatever was issued before, the result satisfies `P`.
`Issues c ops`: the chain issues exactly the invocations `ops`, the latest first, whatever the hidden values are. -/
namespace Sys2Proof.Machine

/-- The result of the chain satisfies `P`, from every lane state. -/
def Yields {α : Type} (c : Chain α) (P : α → Prop) : Prop := ∀ l : Lane, P (c l).1

/-- The lane after the invocations `ops`, the latest first. -/
def Lane.after (l : Lane) (ops : List PubOp) : Lane := ⟨l.step, l.lane, l.idx + ops.length, ops ++ l.log⟩

/-- The chain issues exactly `ops`, the latest first, from every lane state. -/
def Issues {α : Type} (c : Chain α) (ops : List PubOp) : Prop := ∀ l : Lane, (c l).2 = l.after ops

theorem Lane.after_after (l : Lane) (a b : List PubOp) : (l.after a).after b = l.after (b ++ a) := by
  simp [Lane.after]; omega

theorem Yields.pure {α : Type} {P : α → Prop} {x : α} (h : P x) : Yields (Pure.pure x) P := fun _ => h

theorem Yields.bind {α β : Type} {c : Chain α} {f : α → Chain β} {P : α → Prop} {Q : β → Prop}
    (hc : Yields c P) (hf : ∀ x, P x → Yields (f x) Q) : Yields (c >>= f) Q :=
  fun l => hf (c l).1 (hc l) (c l).2

theorem Yields.mono {α : Type} {c : Chain α} {P Q : α → Prop} (h : Yields c P) (hPQ : ∀ x, P x → Q x) : Yields c Q :=
  fun l => hPQ _ (h l)

theorem Issues.pure {α : Type} {x : α} : Issues (Pure.pure x : Chain α) [] := fun l => by
  cases l; simp [Lane.after, Pure.pure, StateT.pure]

theorem Issues.bind {α β : Type} {c : Chain α} {f : α → Chain β} {a b : List PubOp}
    (hc : Issues c a) (hf : ∀ x, Issues (f x) b) : Issues (c >>= f) (b ++ a) := fun l => by
  have h : ((c >>= f) l) = f (c l).1 (c l).2 := rfl
  rw [h, hf, hc, Lane.after_after]

/-- A chain that runs `f` over a list. -/
theorem Yields.foldlM {α ι : Type} {f : α → ι → Chain α} {P : List ι → α → Prop} {x : α}
    (hx : P [] x) (hf : ∀ (done : List ι) (i : ι) (y : α), P done y → Yields (f y i) (P (done ++ [i]))) (is : List ι) :
    Yields (is.foldlM f x) (P is) := by
  suffices h : ∀ (is done : List ι) (y : α), P done y → Yields (is.foldlM f y) (P (done ++ is)) by
    simpa using h is [] x hx
  intro is
  induction is with
  | nil => intro done y hy; simpa using Yields.pure hy
  | cons i is ih =>
    intro done y hy
    rw [List.foldlM_cons]
    refine Yields.bind (hf done i y hy) fun z hz => ?_
    simpa using ih (done ++ [i]) z hz

/-- The invocations of a chain that runs over a list, the latest first. -/
def foldOps {ι : Type} (ops : ι → List PubOp) : List ι → List PubOp
  | [] => []
  | i :: is => foldOps ops is ++ ops i

theorem Issues.foldlM {α ι : Type} {f : α → ι → Chain α} {ops : ι → List PubOp}
    (hf : ∀ (y : α) (i : ι), Issues (f y i) (ops i)) (is : List ι) (x : α) :
    Issues (is.foldlM f x) (foldOps ops is) := by
  induction is generalizing x with
  | nil => exact Issues.pure
  | cons i is ih =>
    rw [List.foldlM_cons]
    exact Issues.bind (hf x i) fun z => ih z

/-! The primitives -/

theorem issue_issues (p : Prim) : Issues (issue p) [p.pub] := fun _ => rfl

theorem encp_yields (v : Byte) : Yields (encp v) (fun y => y.hidden = v) := fun _ => rfl
theorem encp_issues (v : Byte) : Issues (encp v) [.encp v] := fun _ => rfl
theorem eqCt_yields (a b : Ct) : Yields (eqCt a b) (fun m => m.hidden = (a.hidden == b.hidden)) := fun _ => rfl
theorem eqCt_issues (a b : Ct) : Issues (eqCt a b) [.eq] := fun _ => rfl
theorem select_yields (m : Cb) (x y : Ct) :
    Yields (select m x y) (fun z => z.hidden = if m.hidden then x.hidden else y.hidden) := fun _ => rfl
theorem select_issues (m : Cb) (x y : Ct) : Issues (select m x y) [.select] := fun _ => rfl
theorem cadd_yields (m : Cb) (acc t : Ct) :
    Yields (cadd m acc t) (fun z => z.hidden = if m.hidden then acc.hidden ^^^ t.hidden else acc.hidden) := fun _ => rfl
theorem cadd_issues (m : Cb) (acc t : Ct) : Issues (cadd m acc t) [.cadd] := fun _ => rfl
theorem add_yields (a b : Ct) : Yields (add a b) (fun z => z.hidden = a.hidden ^^^ b.hidden) := fun _ => rfl
theorem add_issues (a b : Ct) : Issues (add a b) [.add] := fun _ => rfl
theorem shl_yields (a : Ct) (n : Fin 8) : Yields (shl a n) (fun z => z.hidden = a.hidden <<< n.val) := fun _ => rfl
theorem shl_issues (a : Ct) (n : Fin 8) : Issues (shl a n) [.shl n] := fun _ => rfl
theorem shr_yields (a : Ct) (n : Fin 8) : Yields (shr a n) (fun z => z.hidden = a.hidden >>> n.val) := fun _ => rfl
theorem shr_issues (a : Ct) (n : Fin 8) : Issues (shr a n) [.shr n] := fun _ => rfl
theorem andc_yields (a : Ct) (k : Byte) : Yields (andc a k) (fun z => z.hidden = a.hidden &&& k) := fun _ => rfl
theorem andc_issues (a : Ct) (k : Byte) : Issues (andc a k) [.andc k] := fun _ => rfl
theorem mulc_yields (a : Ct) (k : Byte) : Yields (mulc a k) (fun z => z.hidden = a.hidden * k) := fun _ => rfl
theorem mulc_issues (a : Ct) (k : Byte) : Issues (mulc a k) [.mulc k] := fun _ => rfl

/-! The scan -/

/-- What one candidate of the scan issues. -/
def candidateOps (i : Nat) : List PubOp :=
  [.cadd, .encp (sbox (BitVec.ofNat 8 i)), .eq, .encp (BitVec.ofNat 8 i)]

/-- What one `substitute` issues, whatever its operand (R113). -/
def substituteOps : List PubOp := foldOps candidateOps (List.range 256) ++ [.encp 0]

theorem scanCandidate_issues (x acc : Ct) (i : Nat) : Issues (scanCandidate x acc i) (candidateOps i) := fun _ => rfl

theorem substitute_issues (x : Ct) : Issues (substitute x) substituteOps :=
  Issues.bind (encp_issues 0) fun z => Issues.foldlM (scanCandidate_issues x) _ z

theorem scanCandidate_yields (x acc : Ct) (i : Nat) : Yields (scanCandidate x acc i) fun y =>
    y.hidden = if x.hidden = BitVec.ofNat 8 i then acc.hidden ^^^ sbox (BitVec.ofNat 8 i) else acc.hidden := by
  refine Yields.bind (encp_yields _) fun c hc => Yields.bind (eqCt_yields x c) fun m hm => ?_
  refine Yields.bind (encp_yields _) fun e he => (cadd_yields m acc e).mono fun y hy => ?_
  rw [hy, hm, he, hc]
  simp

/-- After the candidates below `n`, the accumulator holds the table's entry if the operand was among them. -/
theorem scan_yields (x zero : Ct) (hz : zero.hidden = 0) (n : Nat) (hn : n ≤ 256) :
    Yields ((List.range n).foldlM (scanCandidate x) zero) fun y =>
      y.hidden = if x.hidden.toNat < n then sbox x.hidden else 0 := by
  induction n with
  | zero => exact Yields.pure (by simpa using hz)
  | succ n ih =>
    rw [List.range_succ, List.foldlM_append]
    refine Yields.bind (ih (by omega)) fun y hy => ?_
    have hm : (List.foldlM (scanCandidate x) y [n] : Chain Ct) = scanCandidate x y n := by simp
    rw [hm]
    refine (scanCandidate_yields x y n).mono fun z hz => ?_
    rw [hz, hy]
    have e : x.hidden = BitVec.ofNat 8 n ↔ x.hidden.toNat = n := by
      constructor
      · intro h; rw [h]; simp; omega
      · intro h; rw [← h]; simp
    by_cases h : x.hidden.toNat = n
    · have h' := e.mpr h
      simp [h, ← h']
    · have h' : ¬ x.hidden = BitVec.ofNat 8 n := fun c => h (e.mp c)
      have : (x.hidden.toNat < n + 1) = (x.hidden.toNat < n) := by apply propext; omega
      simp only [h', if_false, this]

/-- The result law of `substitute` (R110). -/
theorem substitute_yields (x : Ct) : Yields (substitute x) fun y => y.hidden = sbox x.hidden := by
  refine Yields.bind (encp_yields 0) fun z hz => (scan_yields x z hz 256 (le_refl _)).mono fun y hy => ?_
  have := x.hidden.isLt
  simpa [this] using hy

/-! The Galois-field mixer -/

/-- What one doubling issues. -/
def doubleOps : List PubOp := [.add, .mulc 0x1B, .shl 1, .shr 7, .andc 0x80]

theorem double_issues (p : Ct) : Issues (double p) doubleOps := fun _ => rfl

theorem double_value : ∀ v : Byte, (v <<< 1) ^^^ (((v &&& 0x80#8) >>> 7) * 0x1B#8) = xtime v := by decide

theorem double_yields (p : Ct) : Yields (double p) fun y => y.hidden = xtime p.hidden := by
  intro l
  have : ((double p) l).1.hidden = (p.hidden <<< 1) ^^^ (((p.hidden &&& 0x80#8) >>> 7) * 0x1B#8) := rfl
  rw [this, double_value]

/-- What step `i` of `galoisMul` issues: it depends on the public constant only (R126). -/
def galoisStepOps (k : Byte) (i : Nat) : List PubOp := doubleOps ++ if k.getLsbD i then [.add] else []

/-- What one `galoisMul(a, k)` issues. -/
def galoisOps (k : Byte) : List PubOp := foldOps (galoisStepOps k) (List.range 8) ++ [.encp 0]

theorem galoisStep_issues (k : Byte) (rp : Ct × Ct) (i : Nat) : Issues (galoisStep k rp i) (galoisStepOps k i) := by
  unfold galoisStep galoisStepOps
  cases k.getLsbD i <;> exact fun _ => rfl

theorem galoisMul_issues (a : Ct) (k : Byte) : Issues (galoisMul a k) (galoisOps k) := by
  refine Issues.bind (encp_issues 0) fun z => ?_
  exact Issues.bind (b := []) (Issues.foldlM (galoisStep_issues k) _ _) fun rp => Issues.pure

/-- The pair (`res`, `p`) of hidden values after the steps below `n`. -/
def galoisPair (a k : Byte) : Nat → Byte × Byte
  | 0 => (0, a)
  | n + 1 =>
    let rp := galoisPair a k n
    (if k.getLsbD n then rp.1 ^^^ rp.2 else rp.1, xtime rp.2)

theorem galoisStep_yields (k : Byte) (rp : Ct × Ct) (i : Nat) : Yields (galoisStep k rp i) fun y =>
    y.1.hidden = (if k.getLsbD i then rp.1.hidden ^^^ rp.2.hidden else rp.1.hidden) ∧
    y.2.hidden = xtime rp.2.hidden := by
  unfold galoisStep
  cases h : k.getLsbD i
  · refine Yields.bind (P := fun x => x = rp.1) (Yields.pure rfl) fun x hx => ?_
    refine Yields.bind (double_yields rp.2) fun p hp => Yields.pure ?_
    simp [hx, hp]
  · refine Yields.bind (add_yields rp.1 rp.2) fun x hx => ?_
    refine Yields.bind (double_yields rp.2) fun p hp => Yields.pure ?_
    simp [hx, hp]

theorem galoisSteps_yields (a k : Byte) (x zero : Ct) (hz : zero.hidden = 0) (hx : x.hidden = a) (n : Nat) :
    Yields ((List.range n).foldlM (galoisStep k) (zero, x)) fun y =>
      y.1.hidden = (galoisPair a k n).1 ∧ y.2.hidden = (galoisPair a k n).2 := by
  induction n with
  | zero => exact Yields.pure ⟨hz, hx⟩
  | succ n ih =>
    rw [List.range_succ, List.foldlM_append]
    refine Yields.bind ih fun y hy => ?_
    have hm : (List.foldlM (galoisStep k) y [n] : Chain (Ct × Ct)) = galoisStep k y n := by simp
    rw [hm]
    refine (galoisStep_yields k y n).mono fun z hz => ?_
    simp only [galoisPair, hz, hy, and_self]

theorem galoisMul_yields_pair (a : Ct) (k : Byte) :
    Yields (galoisMul a k) fun y => y.hidden = (galoisPair a.hidden k 8).1 := by
  refine Yields.bind (encp_yields 0) fun z hz => ?_
  exact Yields.bind (galoisSteps_yields a.hidden k a z hz rfl 8) fun rp h => Yields.pure h.1

end Sys2Proof.Machine
end

