-- ==== Sys2Proof/Laws/Field.lean ====
section
/-! SUPPORT. GF(2^8): the shift-and-conditional-reduce of `galoisMul` (spec/42_linear.md R121) computes the field
product of spec/00_scope.md R9. Reduction is linear over XOR, so it is enough to compare the eight powers of `x`. -/
namespace Sys2Proof.Machine

theorem reduceAt_xor (x y : BitVec 16) (i : Nat) : reduceAt (x ^^^ y) i = reduceAt x i ^^^ reduceAt y i := by
  have swap : ∀ m : BitVec 16, x ^^^ y ^^^ m = x ^^^ m ^^^ y := fun m => by
    rw [BitVec.xor_assoc, BitVec.xor_comm y m, ← BitVec.xor_assoc]
  have cancel : ∀ m : BitVec 16, x ^^^ y = x ^^^ m ^^^ (y ^^^ m) := fun m => by
    rw [BitVec.xor_assoc x m, ← BitVec.xor_assoc m, BitVec.xor_comm m y, BitVec.xor_assoc y, BitVec.xor_self,
      BitVec.xor_zero]
  unfold reduceAt
  rw [BitVec.getLsbD_xor]
  cases x.getLsbD i <;> cases y.getLsbD i
  · simp
  · simpa using BitVec.xor_assoc _ _ _
  · simpa using swap _
  · simpa using cancel _

theorem polyReduce_xor (x y : BitVec 16) : polyReduce (x ^^^ y) = polyReduce x ^^^ polyReduce y := by
  simp only [polyReduce, List.foldl_cons, List.foldl_nil, reduceAt_xor, BitVec.setWidth_xor]

theorem polyReduce_ite_xor (b : Bool) (x y : BitVec 16) :
    polyReduce (if b then x ^^^ y else x) = if b then polyReduce x ^^^ polyReduce y else polyReduce x := by
  cases b <;> simp [polyReduce_xor]

/-- `xtime` applied `n` times: the product by `x^n`. -/
def xtimes : Nat → Byte → Byte
  | 0, a => a
  | n + 1, a => xtime (xtimes n a)

theorem polyReduce_shift (i : Fin 8) : ∀ a : Byte, polyReduce (a.setWidth 16 <<< i.val) = xtimes i.val a := by
  revert i; decide +kernel

theorem galoisPair_snd (a k : Byte) (n : Nat) : (galoisPair a k n).2 = xtimes n a := by
  induction n with
  | zero => rfl
  | succ n ih => simp [galoisPair, xtimes, ih]

/-- The partial product of the first `n` bits of `b`. -/
theorem polyReduce_partial (a b : Byte) (n : Nat) (hn : n ≤ 8) :
    polyReduce ((List.range n).foldl (fun acc i => if b.getLsbD i then acc ^^^ (a.setWidth 16 <<< i) else acc) 0) =
      (galoisPair a b n).1 := by
  induction n with
  | zero =>
    have h : polyReduce 0 = 0 := by decide
    simpa [galoisPair] using h
  | succ n ih =>
    have hs : polyReduce (a.setWidth 16 <<< n) = xtimes n a := polyReduce_shift ⟨n, by omega⟩ a
    rw [List.range_succ, List.foldl_append, List.foldl_cons, List.foldl_nil, polyReduce_ite_xor, ih (by omega), hs]
    simp only [galoisPair, galoisPair_snd]

theorem gfMul_eq_pair (a b : Byte) : gfMul a b = (galoisPair a b 8).1 := polyReduce_partial a b 8 (le_refl 8)

/-- The result law of `galoisMul` (R121): the field product, for every public constant (R127). -/
theorem galoisMul_yields (a : Ct) (k : Byte) : Yields (galoisMul a k) fun y => y.hidden = gfMul a.hidden k := by
  simpa only [gfMul_eq_pair] using galoisMul_yields_pair a k

/-- Doubling is the product by `x` (R9). -/
theorem gfMul_two (a : Byte) : gfMul a 2 = xtime a := by rw [gfMul_eq_pair]; simp [galoisPair]

/-- The product by 1 is the identity (R127). -/
theorem gfMul_one (a : Byte) : gfMul a 1 = a := by rw [gfMul_eq_pair]; simp [galoisPair]

end Sys2Proof.Machine
end

