-- ==== Sys2Proof/Laws/State.lean ====
section
/-! SUPPORT. One lemma for each field and each named update of the state, so that no proof unfolds a record update. -/
namespace Sys2Proof.Machine

/-! `State.answer` -/

@[simp] theorem State.answer_B (s : State) (st : Status) (data : Word) (dout : Option Ct) : (s.answer st data dout).B = s.B := rfl
@[simp] theorem State.answer_S (s : State) (st : Status) (data : Word) (dout : Option Ct) : (s.answer st data dout).S = s.S := rfl
@[simp] theorem State.answer_RK (s : State) (st : Status) (data : Word) (dout : Option Ct) : (s.answer st data dout).RK = s.RK := rfl
@[simp] theorem State.answer_KEYV (s : State) (st : Status) (data : Word) (dout : Option Ct) : (s.answer st data dout).KEYV = s.KEYV := rfl
@[simp] theorem State.answer_ERR (s : State) (st : Status) (data : Word) (dout : Option Ct) : (s.answer st data dout).ERR = s.ERR := rfl
@[simp] theorem State.answer_PHASE (s : State) (st : Status) (data : Word) (dout : Option Ct) : (s.answer st data dout).PHASE = s.PHASE := rfl
@[simp] theorem State.answer_ROUND (s : State) (st : Status) (data : Word) (dout : Option Ct) : (s.answer st data dout).ROUND = s.ROUND := rfl
@[simp] theorem State.answer_STAGE (s : State) (st : Status) (data : Word) (dout : Option Ct) : (s.answer st data dout).STAGE = s.STAGE := rfl
@[simp] theorem State.answer_CNT (s : State) (st : Status) (data : Word) (dout : Option Ct) : (s.answer st data dout).CNT = s.CNT := rfl
@[simp] theorem State.answer_cmd (s : State) (st : Status) (data : Word) (dout : Option Ct) : (s.answer st data dout).cmd = none := rfl
@[simp] theorem State.answer_din (s : State) (st : Status) (data : Word) (dout : Option Ct) : (s.answer st data dout).din = s.din := rfl
@[simp] theorem State.answer_resp (s : State) (st : Status) (data : Word) (dout : Option Ct) : (s.answer st data dout).resp = some ⟨st, data, dout⟩ := rfl
@[simp] theorem State.answer_script (s : State) (st : Status) (data : Word) (dout : Option Ct) : (s.answer st data dout).script = s.script := rfl
@[simp] theorem State.answer_failures (s : State) (st : Status) (data : Word) (dout : Option Ct) : (s.answer st data dout).failures = s.failures := rfl
@[simp] theorem State.answer_stepNo (s : State) (st : Status) (data : Word) (dout : Option Ct) : (s.answer st data dout).stepNo = s.stepNo + 1 := rfl

/-! `State.latchErr` -/

@[simp] theorem State.latchErr_B (s : State) (code : Status) : (s.latchErr code).B = s.B := rfl
@[simp] theorem State.latchErr_S (s : State) (code : Status) : (s.latchErr code).S = s.S := rfl
@[simp] theorem State.latchErr_RK (s : State) (code : Status) : (s.latchErr code).RK = s.RK := rfl
@[simp] theorem State.latchErr_KEYV (s : State) (code : Status) : (s.latchErr code).KEYV = s.KEYV := rfl
@[simp] theorem State.latchErr_ERR (s : State) (code : Status) : (s.latchErr code).ERR = latch s.ERR code := rfl
@[simp] theorem State.latchErr_PHASE (s : State) (code : Status) : (s.latchErr code).PHASE = s.PHASE := rfl
@[simp] theorem State.latchErr_ROUND (s : State) (code : Status) : (s.latchErr code).ROUND = s.ROUND := rfl
@[simp] theorem State.latchErr_STAGE (s : State) (code : Status) : (s.latchErr code).STAGE = s.STAGE := rfl
@[simp] theorem State.latchErr_CNT (s : State) (code : Status) : (s.latchErr code).CNT = s.CNT := rfl
@[simp] theorem State.latchErr_cmd (s : State) (code : Status) : (s.latchErr code).cmd = s.cmd := rfl
@[simp] theorem State.latchErr_din (s : State) (code : Status) : (s.latchErr code).din = s.din := rfl
@[simp] theorem State.latchErr_resp (s : State) (code : Status) : (s.latchErr code).resp = s.resp := rfl
@[simp] theorem State.latchErr_script (s : State) (code : Status) : (s.latchErr code).script = s.script := rfl
@[simp] theorem State.latchErr_failures (s : State) (code : Status) : (s.latchErr code).failures = s.failures := rfl
@[simp] theorem State.latchErr_stepNo (s : State) (code : Status) : (s.latchErr code).stepNo = s.stepNo := rfl

/-! `State.reject` -/

@[simp] theorem State.reject_B (s : State) (code : Status) : (s.reject code).B = s.B := rfl
@[simp] theorem State.reject_S (s : State) (code : Status) : (s.reject code).S = s.S := rfl
@[simp] theorem State.reject_RK (s : State) (code : Status) : (s.reject code).RK = s.RK := rfl
@[simp] theorem State.reject_KEYV (s : State) (code : Status) : (s.reject code).KEYV = s.KEYV := rfl
@[simp] theorem State.reject_ERR (s : State) (code : Status) : (s.reject code).ERR = latch s.ERR code := rfl
@[simp] theorem State.reject_PHASE (s : State) (code : Status) : (s.reject code).PHASE = s.PHASE := rfl
@[simp] theorem State.reject_ROUND (s : State) (code : Status) : (s.reject code).ROUND = s.ROUND := rfl
@[simp] theorem State.reject_STAGE (s : State) (code : Status) : (s.reject code).STAGE = s.STAGE := rfl
@[simp] theorem State.reject_CNT (s : State) (code : Status) : (s.reject code).CNT = s.CNT := rfl
@[simp] theorem State.reject_cmd (s : State) (code : Status) : (s.reject code).cmd = none := rfl
@[simp] theorem State.reject_din (s : State) (code : Status) : (s.reject code).din = s.din := rfl
@[simp] theorem State.reject_resp (s : State) (code : Status) : (s.reject code).resp = some ⟨code, 0, none⟩ := rfl
@[simp] theorem State.reject_script (s : State) (code : Status) : (s.reject code).script = s.script := rfl
@[simp] theorem State.reject_failures (s : State) (code : Status) : (s.reject code).failures = s.failures := rfl
@[simp] theorem State.reject_stepNo (s : State) (code : Status) : (s.reject code).stepNo = s.stepNo + 1 := rfl

/-! `State.accept` -/

@[simp] theorem State.accept_B (s : State) : (s.accept).B = s.B := rfl
@[simp] theorem State.accept_S (s : State) : (s.accept).S = s.S := rfl
@[simp] theorem State.accept_RK (s : State) : (s.accept).RK = s.RK := rfl
@[simp] theorem State.accept_KEYV (s : State) : (s.accept).KEYV = s.KEYV := rfl
@[simp] theorem State.accept_ERR (s : State) : (s.accept).ERR = s.ERR := rfl
@[simp] theorem State.accept_PHASE (s : State) : (s.accept).PHASE = s.PHASE := rfl
@[simp] theorem State.accept_ROUND (s : State) : (s.accept).ROUND = s.ROUND := rfl
@[simp] theorem State.accept_STAGE (s : State) : (s.accept).STAGE = s.STAGE := rfl
@[simp] theorem State.accept_CNT (s : State) : (s.accept).CNT = s.CNT := rfl
@[simp] theorem State.accept_cmd (s : State) : (s.accept).cmd = none := rfl
@[simp] theorem State.accept_din (s : State) : (s.accept).din = s.din := rfl
@[simp] theorem State.accept_resp (s : State) : (s.accept).resp = some ⟨.ok, 0, none⟩ := rfl
@[simp] theorem State.accept_script (s : State) : (s.accept).script = s.script := rfl
@[simp] theorem State.accept_failures (s : State) : (s.accept).failures = s.failures := rfl
@[simp] theorem State.accept_stepNo (s : State) : (s.accept).stepNo = s.stepNo + 1 := rfl

/-! `State.moveTo` -/

@[simp] theorem State.moveTo_B (s : State) (p : Phase) (n : Round) (g : Stage) : (s.moveTo p n g).B = s.B := rfl
@[simp] theorem State.moveTo_S (s : State) (p : Phase) (n : Round) (g : Stage) : (s.moveTo p n g).S = s.S := rfl
@[simp] theorem State.moveTo_RK (s : State) (p : Phase) (n : Round) (g : Stage) : (s.moveTo p n g).RK = s.RK := rfl
@[simp] theorem State.moveTo_KEYV (s : State) (p : Phase) (n : Round) (g : Stage) : (s.moveTo p n g).KEYV = s.KEYV := rfl
@[simp] theorem State.moveTo_ERR (s : State) (p : Phase) (n : Round) (g : Stage) : (s.moveTo p n g).ERR = s.ERR := rfl
@[simp] theorem State.moveTo_PHASE (s : State) (p : Phase) (n : Round) (g : Stage) : (s.moveTo p n g).PHASE = p := rfl
@[simp] theorem State.moveTo_ROUND (s : State) (p : Phase) (n : Round) (g : Stage) : (s.moveTo p n g).ROUND = n := rfl
@[simp] theorem State.moveTo_STAGE (s : State) (p : Phase) (n : Round) (g : Stage) : (s.moveTo p n g).STAGE = g := rfl
@[simp] theorem State.moveTo_CNT (s : State) (p : Phase) (n : Round) (g : Stage) : (s.moveTo p n g).CNT = s.CNT := rfl
@[simp] theorem State.moveTo_cmd (s : State) (p : Phase) (n : Round) (g : Stage) : (s.moveTo p n g).cmd = s.cmd := rfl
@[simp] theorem State.moveTo_din (s : State) (p : Phase) (n : Round) (g : Stage) : (s.moveTo p n g).din = s.din := rfl
@[simp] theorem State.moveTo_resp (s : State) (p : Phase) (n : Round) (g : Stage) : (s.moveTo p n g).resp = s.resp := rfl
@[simp] theorem State.moveTo_script (s : State) (p : Phase) (n : Round) (g : Stage) : (s.moveTo p n g).script = s.script := rfl
@[simp] theorem State.moveTo_failures (s : State) (p : Phase) (n : Round) (g : Stage) : (s.moveTo p n g).failures = s.failures := rfl
@[simp] theorem State.moveTo_stepNo (s : State) (p : Phase) (n : Round) (g : Stage) : (s.moveTo p n g).stepNo = s.stepNo := rfl

/-! `State.setB` -/

@[simp] theorem State.setB_B (s : State) (d : Fin 16) (x : Ct) : (s.setB d x).B = s.B.set d (some x) := rfl
@[simp] theorem State.setB_S (s : State) (d : Fin 16) (x : Ct) : (s.setB d x).S = s.S := rfl
@[simp] theorem State.setB_RK (s : State) (d : Fin 16) (x : Ct) : (s.setB d x).RK = s.RK := rfl
@[simp] theorem State.setB_KEYV (s : State) (d : Fin 16) (x : Ct) : (s.setB d x).KEYV = s.KEYV := rfl
@[simp] theorem State.setB_ERR (s : State) (d : Fin 16) (x : Ct) : (s.setB d x).ERR = s.ERR := rfl
@[simp] theorem State.setB_PHASE (s : State) (d : Fin 16) (x : Ct) : (s.setB d x).PHASE = s.PHASE := rfl
@[simp] theorem State.setB_ROUND (s : State) (d : Fin 16) (x : Ct) : (s.setB d x).ROUND = s.ROUND := rfl
@[simp] theorem State.setB_STAGE (s : State) (d : Fin 16) (x : Ct) : (s.setB d x).STAGE = s.STAGE := rfl
@[simp] theorem State.setB_CNT (s : State) (d : Fin 16) (x : Ct) : (s.setB d x).CNT = s.CNT := rfl
@[simp] theorem State.setB_cmd (s : State) (d : Fin 16) (x : Ct) : (s.setB d x).cmd = s.cmd := rfl
@[simp] theorem State.setB_din (s : State) (d : Fin 16) (x : Ct) : (s.setB d x).din = s.din := rfl
@[simp] theorem State.setB_resp (s : State) (d : Fin 16) (x : Ct) : (s.setB d x).resp = s.resp := rfl
@[simp] theorem State.setB_script (s : State) (d : Fin 16) (x : Ct) : (s.setB d x).script = s.script := rfl
@[simp] theorem State.setB_failures (s : State) (d : Fin 16) (x : Ct) : (s.setB d x).failures = s.failures := rfl
@[simp] theorem State.setB_stepNo (s : State) (d : Fin 16) (x : Ct) : (s.setB d x).stepNo = s.stepNo := rfl

/-! `State.withB` -/

@[simp] theorem State.withB_B (s : State) (b : Block) : (s.withB b).B = b := rfl
@[simp] theorem State.withB_S (s : State) (b : Block) : (s.withB b).S = s.S := rfl
@[simp] theorem State.withB_RK (s : State) (b : Block) : (s.withB b).RK = s.RK := rfl
@[simp] theorem State.withB_KEYV (s : State) (b : Block) : (s.withB b).KEYV = s.KEYV := rfl
@[simp] theorem State.withB_ERR (s : State) (b : Block) : (s.withB b).ERR = s.ERR := rfl
@[simp] theorem State.withB_PHASE (s : State) (b : Block) : (s.withB b).PHASE = s.PHASE := rfl
@[simp] theorem State.withB_ROUND (s : State) (b : Block) : (s.withB b).ROUND = s.ROUND := rfl
@[simp] theorem State.withB_STAGE (s : State) (b : Block) : (s.withB b).STAGE = s.STAGE := rfl
@[simp] theorem State.withB_CNT (s : State) (b : Block) : (s.withB b).CNT = s.CNT := rfl
@[simp] theorem State.withB_cmd (s : State) (b : Block) : (s.withB b).cmd = s.cmd := rfl
@[simp] theorem State.withB_din (s : State) (b : Block) : (s.withB b).din = s.din := rfl
@[simp] theorem State.withB_resp (s : State) (b : Block) : (s.withB b).resp = s.resp := rfl
@[simp] theorem State.withB_script (s : State) (b : Block) : (s.withB b).script = s.script := rfl
@[simp] theorem State.withB_failures (s : State) (b : Block) : (s.withB b).failures = s.failures := rfl
@[simp] theorem State.withB_stepNo (s : State) (b : Block) : (s.withB b).stepNo = s.stepNo := rfl

/-! `State.withS` -/

@[simp] theorem State.withS_B (s : State) (m : Matrix) : (s.withS m).B = s.B := rfl
@[simp] theorem State.withS_S (s : State) (m : Matrix) : (s.withS m).S = m := rfl
@[simp] theorem State.withS_RK (s : State) (m : Matrix) : (s.withS m).RK = s.RK := rfl
@[simp] theorem State.withS_KEYV (s : State) (m : Matrix) : (s.withS m).KEYV = s.KEYV := rfl
@[simp] theorem State.withS_ERR (s : State) (m : Matrix) : (s.withS m).ERR = s.ERR := rfl
@[simp] theorem State.withS_PHASE (s : State) (m : Matrix) : (s.withS m).PHASE = s.PHASE := rfl
@[simp] theorem State.withS_ROUND (s : State) (m : Matrix) : (s.withS m).ROUND = s.ROUND := rfl
@[simp] theorem State.withS_STAGE (s : State) (m : Matrix) : (s.withS m).STAGE = s.STAGE := rfl
@[simp] theorem State.withS_CNT (s : State) (m : Matrix) : (s.withS m).CNT = s.CNT := rfl
@[simp] theorem State.withS_cmd (s : State) (m : Matrix) : (s.withS m).cmd = s.cmd := rfl
@[simp] theorem State.withS_din (s : State) (m : Matrix) : (s.withS m).din = s.din := rfl
@[simp] theorem State.withS_resp (s : State) (m : Matrix) : (s.withS m).resp = s.resp := rfl
@[simp] theorem State.withS_script (s : State) (m : Matrix) : (s.withS m).script = s.script := rfl
@[simp] theorem State.withS_failures (s : State) (m : Matrix) : (s.withS m).failures = s.failures := rfl
@[simp] theorem State.withS_stepNo (s : State) (m : Matrix) : (s.withS m).stepNo = s.stepNo := rfl

/-! `State.withKey` -/

@[simp] theorem State.withKey_B (s : State) (rk : Vector Block 11) (v : Bool) : (s.withKey rk v).B = s.B := rfl
@[simp] theorem State.withKey_S (s : State) (rk : Vector Block 11) (v : Bool) : (s.withKey rk v).S = s.S := rfl
@[simp] theorem State.withKey_RK (s : State) (rk : Vector Block 11) (v : Bool) : (s.withKey rk v).RK = rk := rfl
@[simp] theorem State.withKey_KEYV (s : State) (rk : Vector Block 11) (v : Bool) : (s.withKey rk v).KEYV = v := rfl
@[simp] theorem State.withKey_ERR (s : State) (rk : Vector Block 11) (v : Bool) : (s.withKey rk v).ERR = s.ERR := rfl
@[simp] theorem State.withKey_PHASE (s : State) (rk : Vector Block 11) (v : Bool) : (s.withKey rk v).PHASE = s.PHASE := rfl
@[simp] theorem State.withKey_ROUND (s : State) (rk : Vector Block 11) (v : Bool) : (s.withKey rk v).ROUND = s.ROUND := rfl
@[simp] theorem State.withKey_STAGE (s : State) (rk : Vector Block 11) (v : Bool) : (s.withKey rk v).STAGE = s.STAGE := rfl
@[simp] theorem State.withKey_CNT (s : State) (rk : Vector Block 11) (v : Bool) : (s.withKey rk v).CNT = s.CNT := rfl
@[simp] theorem State.withKey_cmd (s : State) (rk : Vector Block 11) (v : Bool) : (s.withKey rk v).cmd = s.cmd := rfl
@[simp] theorem State.withKey_din (s : State) (rk : Vector Block 11) (v : Bool) : (s.withKey rk v).din = s.din := rfl
@[simp] theorem State.withKey_resp (s : State) (rk : Vector Block 11) (v : Bool) : (s.withKey rk v).resp = s.resp := rfl
@[simp] theorem State.withKey_script (s : State) (rk : Vector Block 11) (v : Bool) : (s.withKey rk v).script = s.script := rfl
@[simp] theorem State.withKey_failures (s : State) (rk : Vector Block 11) (v : Bool) : (s.withKey rk v).failures = s.failures := rfl
@[simp] theorem State.withKey_stepNo (s : State) (rk : Vector Block 11) (v : Bool) : (s.withKey rk v).stepNo = s.stepNo := rfl

/-! `State.withCnt` -/

@[simp] theorem State.withCnt_B (s : State) (cnt : Vector Word 7) : (s.withCnt cnt).B = s.B := rfl
@[simp] theorem State.withCnt_S (s : State) (cnt : Vector Word 7) : (s.withCnt cnt).S = s.S := rfl
@[simp] theorem State.withCnt_RK (s : State) (cnt : Vector Word 7) : (s.withCnt cnt).RK = s.RK := rfl
@[simp] theorem State.withCnt_KEYV (s : State) (cnt : Vector Word 7) : (s.withCnt cnt).KEYV = s.KEYV := rfl
@[simp] theorem State.withCnt_ERR (s : State) (cnt : Vector Word 7) : (s.withCnt cnt).ERR = s.ERR := rfl
@[simp] theorem State.withCnt_PHASE (s : State) (cnt : Vector Word 7) : (s.withCnt cnt).PHASE = s.PHASE := rfl
@[simp] theorem State.withCnt_ROUND (s : State) (cnt : Vector Word 7) : (s.withCnt cnt).ROUND = s.ROUND := rfl
@[simp] theorem State.withCnt_STAGE (s : State) (cnt : Vector Word 7) : (s.withCnt cnt).STAGE = s.STAGE := rfl
@[simp] theorem State.withCnt_CNT (s : State) (cnt : Vector Word 7) : (s.withCnt cnt).CNT = cnt := rfl
@[simp] theorem State.withCnt_cmd (s : State) (cnt : Vector Word 7) : (s.withCnt cnt).cmd = s.cmd := rfl
@[simp] theorem State.withCnt_din (s : State) (cnt : Vector Word 7) : (s.withCnt cnt).din = s.din := rfl
@[simp] theorem State.withCnt_resp (s : State) (cnt : Vector Word 7) : (s.withCnt cnt).resp = s.resp := rfl
@[simp] theorem State.withCnt_script (s : State) (cnt : Vector Word 7) : (s.withCnt cnt).script = s.script := rfl
@[simp] theorem State.withCnt_failures (s : State) (cnt : Vector Word 7) : (s.withCnt cnt).failures = s.failures := rfl
@[simp] theorem State.withCnt_stepNo (s : State) (cnt : Vector Word 7) : (s.withCnt cnt).stepNo = s.stepNo := rfl

/-! `State.tick` -/

@[simp] theorem State.tick_B (s : State) : (s.tick).B = s.B := rfl
@[simp] theorem State.tick_S (s : State) : (s.tick).S = s.S := rfl
@[simp] theorem State.tick_RK (s : State) : (s.tick).RK = s.RK := rfl
@[simp] theorem State.tick_KEYV (s : State) : (s.tick).KEYV = s.KEYV := rfl
@[simp] theorem State.tick_ERR (s : State) : (s.tick).ERR = s.ERR := rfl
@[simp] theorem State.tick_PHASE (s : State) : (s.tick).PHASE = s.PHASE := rfl
@[simp] theorem State.tick_ROUND (s : State) : (s.tick).ROUND = s.ROUND := rfl
@[simp] theorem State.tick_STAGE (s : State) : (s.tick).STAGE = s.STAGE := rfl
@[simp] theorem State.tick_CNT (s : State) : (s.tick).CNT = s.CNT := rfl
@[simp] theorem State.tick_cmd (s : State) : (s.tick).cmd = s.cmd := rfl
@[simp] theorem State.tick_din (s : State) : (s.tick).din = s.din := rfl
@[simp] theorem State.tick_resp (s : State) : (s.tick).resp = s.resp := rfl
@[simp] theorem State.tick_script (s : State) : (s.tick).script = s.script := rfl
@[simp] theorem State.tick_failures (s : State) : (s.tick).failures = s.failures := rfl
@[simp] theorem State.tick_stepNo (s : State) : (s.tick).stepNo = s.stepNo + 1 := rfl

/-! `State.count` -/

@[simp] theorem State.count_B (s : State) (logs : Logs) : (s.count logs).B = s.B := rfl
@[simp] theorem State.count_S (s : State) (logs : Logs) : (s.count logs).S = s.S := rfl
@[simp] theorem State.count_RK (s : State) (logs : Logs) : (s.count logs).RK = s.RK := rfl
@[simp] theorem State.count_KEYV (s : State) (logs : Logs) : (s.count logs).KEYV = s.KEYV := rfl
@[simp] theorem State.count_ERR (s : State) (logs : Logs) : (s.count logs).ERR = s.ERR := rfl
@[simp] theorem State.count_PHASE (s : State) (logs : Logs) : (s.count logs).PHASE = s.PHASE := rfl
@[simp] theorem State.count_ROUND (s : State) (logs : Logs) : (s.count logs).ROUND = s.ROUND := rfl
@[simp] theorem State.count_STAGE (s : State) (logs : Logs) : (s.count logs).STAGE = s.STAGE := rfl
@[simp] theorem State.count_CNT (s : State) (logs : Logs) : (s.count logs).CNT = Vector.ofFn fun k => s.CNT[k] + BitVec.ofNat 32 (countClass k logs) := rfl
@[simp] theorem State.count_cmd (s : State) (logs : Logs) : (s.count logs).cmd = s.cmd := rfl
@[simp] theorem State.count_din (s : State) (logs : Logs) : (s.count logs).din = s.din := rfl
@[simp] theorem State.count_resp (s : State) (logs : Logs) : (s.count logs).resp = s.resp := rfl
@[simp] theorem State.count_script (s : State) (logs : Logs) : (s.count logs).script = s.script := rfl
@[simp] theorem State.count_failures (s : State) (logs : Logs) : (s.count logs).failures = s.failures := rfl
@[simp] theorem State.count_stepNo (s : State) (logs : Logs) : (s.count logs).stepNo = s.stepNo := rfl

/-! `State.takeFault` -/

@[simp] theorem State.takeFault_B (s : State) : (s.takeFault).B = emptyBlock := rfl
@[simp] theorem State.takeFault_S (s : State) : (s.takeFault).S = emptyMatrix := rfl
@[simp] theorem State.takeFault_RK (s : State) : (s.takeFault).RK = Vector.replicate 11 emptyBlock := rfl
@[simp] theorem State.takeFault_KEYV (s : State) : (s.takeFault).KEYV = false := rfl
@[simp] theorem State.takeFault_ERR (s : State) : (s.takeFault).ERR = latch s.ERR .primFail := rfl
@[simp] theorem State.takeFault_PHASE (s : State) : (s.takeFault).PHASE = .fault := rfl
@[simp] theorem State.takeFault_ROUND (s : State) : (s.takeFault).ROUND = s.ROUND := rfl
@[simp] theorem State.takeFault_STAGE (s : State) : (s.takeFault).STAGE = s.STAGE := rfl
@[simp] theorem State.takeFault_CNT (s : State) : (s.takeFault).CNT = Vector.ofFn fun k => Config.faultCount s.stepNo k := rfl
@[simp] theorem State.takeFault_cmd (s : State) : (s.takeFault).cmd = s.cmd := rfl
@[simp] theorem State.takeFault_din (s : State) : (s.takeFault).din = s.din := rfl
@[simp] theorem State.takeFault_resp (s : State) : (s.takeFault).resp = s.resp := rfl
@[simp] theorem State.takeFault_script (s : State) : (s.takeFault).script = s.script := rfl
@[simp] theorem State.takeFault_failures (s : State) : (s.takeFault).failures = s.failures := rfl
@[simp] theorem State.takeFault_stepNo (s : State) : (s.takeFault).stepNo = s.stepNo := rfl

/-! `State.toReset` -/

@[simp] theorem State.toReset_B (s : State) : (s.toReset).B = State.reset.B := rfl
@[simp] theorem State.toReset_S (s : State) : (s.toReset).S = State.reset.S := rfl
@[simp] theorem State.toReset_RK (s : State) : (s.toReset).RK = State.reset.RK := rfl
@[simp] theorem State.toReset_KEYV (s : State) : (s.toReset).KEYV = State.reset.KEYV := rfl
@[simp] theorem State.toReset_ERR (s : State) : (s.toReset).ERR = State.reset.ERR := rfl
@[simp] theorem State.toReset_PHASE (s : State) : (s.toReset).PHASE = State.reset.PHASE := rfl
@[simp] theorem State.toReset_ROUND (s : State) : (s.toReset).ROUND = State.reset.ROUND := rfl
@[simp] theorem State.toReset_STAGE (s : State) : (s.toReset).STAGE = State.reset.STAGE := rfl
@[simp] theorem State.toReset_CNT (s : State) : (s.toReset).CNT = State.reset.CNT := rfl
@[simp] theorem State.toReset_cmd (s : State) : (s.toReset).cmd = s.cmd := rfl
@[simp] theorem State.toReset_din (s : State) : (s.toReset).din = s.din := rfl
@[simp] theorem State.toReset_resp (s : State) : (s.toReset).resp = s.resp := rfl
@[simp] theorem State.toReset_script (s : State) : (s.toReset).script = s.script := rfl
@[simp] theorem State.toReset_failures (s : State) : (s.toReset).failures = s.failures := rfl
@[simp] theorem State.toReset_stepNo (s : State) : (s.toReset).stepNo = s.stepNo := rfl

/-! `State.present` -/

@[simp] theorem State.present_B (s : State) (w : Word) (d : Ct) : (s.present w d).B = s.B := rfl
@[simp] theorem State.present_S (s : State) (w : Word) (d : Ct) : (s.present w d).S = s.S := rfl
@[simp] theorem State.present_RK (s : State) (w : Word) (d : Ct) : (s.present w d).RK = s.RK := rfl
@[simp] theorem State.present_KEYV (s : State) (w : Word) (d : Ct) : (s.present w d).KEYV = s.KEYV := rfl
@[simp] theorem State.present_ERR (s : State) (w : Word) (d : Ct) : (s.present w d).ERR = s.ERR := rfl
@[simp] theorem State.present_PHASE (s : State) (w : Word) (d : Ct) : (s.present w d).PHASE = s.PHASE := rfl
@[simp] theorem State.present_ROUND (s : State) (w : Word) (d : Ct) : (s.present w d).ROUND = s.ROUND := rfl
@[simp] theorem State.present_STAGE (s : State) (w : Word) (d : Ct) : (s.present w d).STAGE = s.STAGE := rfl
@[simp] theorem State.present_CNT (s : State) (w : Word) (d : Ct) : (s.present w d).CNT = s.CNT := rfl
@[simp] theorem State.present_cmd (s : State) (w : Word) (d : Ct) : (s.present w d).cmd = some w := rfl
@[simp] theorem State.present_din (s : State) (w : Word) (d : Ct) : (s.present w d).din = d := rfl
@[simp] theorem State.present_resp (s : State) (w : Word) (d : Ct) : (s.present w d).resp = none := rfl
@[simp] theorem State.present_script (s : State) (w : Word) (d : Ct) : (s.present w d).script = s.script := rfl
@[simp] theorem State.present_failures (s : State) (w : Word) (d : Ct) : (s.present w d).failures = s.failures := rfl
@[simp] theorem State.present_stepNo (s : State) (w : Word) (d : Ct) : (s.present w d).stepNo = s.stepNo := rfl

/-! `State.withScript` -/

@[simp] theorem State.withScript_B (s : State) (es : List Event) : (s.withScript es).B = s.B := rfl
@[simp] theorem State.withScript_S (s : State) (es : List Event) : (s.withScript es).S = s.S := rfl
@[simp] theorem State.withScript_RK (s : State) (es : List Event) : (s.withScript es).RK = s.RK := rfl
@[simp] theorem State.withScript_KEYV (s : State) (es : List Event) : (s.withScript es).KEYV = s.KEYV := rfl
@[simp] theorem State.withScript_ERR (s : State) (es : List Event) : (s.withScript es).ERR = s.ERR := rfl
@[simp] theorem State.withScript_PHASE (s : State) (es : List Event) : (s.withScript es).PHASE = s.PHASE := rfl
@[simp] theorem State.withScript_ROUND (s : State) (es : List Event) : (s.withScript es).ROUND = s.ROUND := rfl
@[simp] theorem State.withScript_STAGE (s : State) (es : List Event) : (s.withScript es).STAGE = s.STAGE := rfl
@[simp] theorem State.withScript_CNT (s : State) (es : List Event) : (s.withScript es).CNT = s.CNT := rfl
@[simp] theorem State.withScript_cmd (s : State) (es : List Event) : (s.withScript es).cmd = s.cmd := rfl
@[simp] theorem State.withScript_din (s : State) (es : List Event) : (s.withScript es).din = s.din := rfl
@[simp] theorem State.withScript_resp (s : State) (es : List Event) : (s.withScript es).resp = s.resp := rfl
@[simp] theorem State.withScript_script (s : State) (es : List Event) : (s.withScript es).script = es := rfl
@[simp] theorem State.withScript_failures (s : State) (es : List Event) : (s.withScript es).failures = s.failures := rfl
@[simp] theorem State.withScript_stepNo (s : State) (es : List Event) : (s.withScript es).stepNo = s.stepNo := rfl

/-! `hardReset` and `State.yieldTurn` -/

@[simp] theorem hardReset_B (s : State) : (hardReset s).B = State.reset.B := rfl
@[simp] theorem hardReset_S (s : State) : (hardReset s).S = State.reset.S := rfl
@[simp] theorem hardReset_RK (s : State) : (hardReset s).RK = State.reset.RK := rfl
@[simp] theorem hardReset_KEYV (s : State) : (hardReset s).KEYV = State.reset.KEYV := rfl
@[simp] theorem hardReset_ERR (s : State) : (hardReset s).ERR = State.reset.ERR := rfl
@[simp] theorem hardReset_PHASE (s : State) : (hardReset s).PHASE = State.reset.PHASE := rfl
@[simp] theorem hardReset_ROUND (s : State) : (hardReset s).ROUND = State.reset.ROUND := rfl
@[simp] theorem hardReset_STAGE (s : State) : (hardReset s).STAGE = State.reset.STAGE := rfl
@[simp] theorem hardReset_CNT (s : State) : (hardReset s).CNT = State.reset.CNT := rfl
@[simp] theorem hardReset_cmd (s : State) : (hardReset s).cmd = none := rfl
@[simp] theorem hardReset_din (s : State) : (hardReset s).din = s.din := rfl
@[simp] theorem hardReset_resp (s : State) : (hardReset s).resp = none := rfl
@[simp] theorem hardReset_script (s : State) : (hardReset s).script = s.script := rfl
@[simp] theorem hardReset_failures (s : State) : (hardReset s).failures = s.failures := rfl
@[simp] theorem hardReset_stepNo (s : State) : (hardReset s).stepNo = s.stepNo := rfl

@[simp] theorem State.yieldTurn_B (s : State) : s.yieldTurn.B = s.B := by
  unfold State.yieldTurn; split <;> rfl
@[simp] theorem State.yieldTurn_S (s : State) : s.yieldTurn.S = s.S := by
  unfold State.yieldTurn; split <;> rfl
@[simp] theorem State.yieldTurn_RK (s : State) : s.yieldTurn.RK = s.RK := by
  unfold State.yieldTurn; split <;> rfl
@[simp] theorem State.yieldTurn_KEYV (s : State) : s.yieldTurn.KEYV = s.KEYV := by
  unfold State.yieldTurn; split <;> rfl
@[simp] theorem State.yieldTurn_ERR (s : State) : s.yieldTurn.ERR = s.ERR := by
  unfold State.yieldTurn; split <;> rfl
@[simp] theorem State.yieldTurn_PHASE (s : State) : s.yieldTurn.PHASE = s.PHASE := by
  unfold State.yieldTurn; split <;> rfl
@[simp] theorem State.yieldTurn_ROUND (s : State) : s.yieldTurn.ROUND = s.ROUND := by
  unfold State.yieldTurn; split <;> rfl
@[simp] theorem State.yieldTurn_STAGE (s : State) : s.yieldTurn.STAGE = s.STAGE := by
  unfold State.yieldTurn; split <;> rfl
@[simp] theorem State.yieldTurn_CNT (s : State) : s.yieldTurn.CNT = s.CNT := by
  unfold State.yieldTurn; split <;> rfl
@[simp] theorem State.yieldTurn_cmd (s : State) : s.yieldTurn.cmd = s.cmd := by
  unfold State.yieldTurn; split <;> rfl
@[simp] theorem State.yieldTurn_din (s : State) : s.yieldTurn.din = s.din := by
  unfold State.yieldTurn; split <;> rfl
@[simp] theorem State.yieldTurn_resp (s : State) : s.yieldTurn.resp = s.resp := by
  unfold State.yieldTurn; split <;> rfl
@[simp] theorem State.yieldTurn_failures (s : State) : s.yieldTurn.failures = s.failures := by
  unfold State.yieldTurn; split <;> rfl
@[simp] theorem State.yieldTurn_stepNo (s : State) : s.yieldTurn.stepNo = s.stepNo := by
  unfold State.yieldTurn; split <;> rfl

/-! What the updates leave of the views of the state -/

@[simp] theorem State.busy_answer (s : State) (st : Status) (data : Word) (dout : Option Ct) :
    (s.answer st data dout).busy = s.busy := rfl
@[simp] theorem State.busy_yieldTurn (s : State) : s.yieldTurn.busy = s.busy := by simp [State.busy]
@[simp] theorem State.busy_present (s : State) (w : Word) (d : Ct) : (s.present w d).busy = s.busy := rfl
@[simp] theorem State.busy_withScript (s : State) (es : List Event) : (s.withScript es).busy = s.busy := rfl

theorem State.ready_not_busy {s : State} (h : s.PHASE = .idle ∨ s.PHASE = .done) : s.busy = false := by
  rcases h with h | h <;> simp [State.busy, h, Phase.busy]

theorem State.ready_not_fault {s : State} (h : s.PHASE = .idle ∨ s.PHASE = .done) : s.PHASE ≠ .fault := by
  rcases h with h | h <;> simp [h]

/-- In phase `IDLE` or `DONE` the gate lets the command's own rule apply. -/
theorem State.gate_ready {s : State} (h : s.PHASE = .idle ∨ s.PHASE = .done) (body : State → Out) :
    s.gate body = body s := by
  simp [State.gate, State.ready_not_busy h, State.ready_not_fault h]

/-- While busy the gate holds every command. -/
theorem State.gate_busy {s : State} (h : s.busy = true) (body : State → Out) : s.gate body = .next s := by
  simp [State.gate, h]

/-- In phase `FAULT` the gate answers `FAULTED`. -/
theorem State.gate_fault {s : State} (h : s.PHASE = .fault) (body : State → Out) :
    s.gate body = .next (s.answer .faulted 0 none) := by
  simp [State.gate, State.busy, h, Phase.busy]

/-- Everything the gate can do. -/
theorem State.gate_cases (s : State) (body : State → Out) :
    (s.busy = true ∧ s.gate body = .next s) ∨
    (s.PHASE = .fault ∧ s.gate body = .next (s.answer .faulted 0 none)) ∨
    ((s.PHASE = .idle ∨ s.PHASE = .done) ∧ s.gate body = body s) := by
  cases h : s.PHASE
  case idle => exact .inr (.inr ⟨.inl rfl, State.gate_ready (.inl h) body⟩)
  case done => exact .inr (.inr ⟨.inr rfl, State.gate_ready (.inr h) body⟩)
  case fault => exact .inr (.inl ⟨rfl, State.gate_fault h body⟩)
  all_goals
    have hb : s.busy = true := by simp [State.busy, h, Phase.busy]
    exact .inl ⟨hb, State.gate_busy hb body⟩

end Sys2Proof.Machine
end

