-- ==== Sys2Proof/Laws/Effects.lean ====
section
/-! SUPPORT. What each stage writes and issues: its cells' hidden values, the invocations of its lanes, how many of each
class, and when the step fails. Callers cite these and never unfold a chain. -/
namespace Sys2Proof.Machine

/-! Running lanes -/

theorem runLane_log {α : Type} {c : Chain α} {ops : List PubOp} (h : Issues c ops) (step lane : Nat) :
    (runLane step lane c).2 = ops := by
  show (c (Lane.start step lane)).2.log = ops
  rw [h]
  simp [Lane.after, Lane.start]

theorem runLane_yields {α : Type} {c : Chain α} {P : α → Prop} (h : Yields c P) (step lane : Nat) :
    P (runLane step lane c).1 := h _

theorem runCells_yields {f : Fin 4 → Fin 4 → Chain Ct} {r c : Fin 4} {P : Ct → Prop} (h : Yields (f r c) P)
    (step : Nat) : P (runCells step f r c) := h _

theorem logCells_eq {f : Fin 4 → Fin 4 → Chain Ct} {ops : Fin 4 → Fin 4 → List PubOp}
    (h : ∀ r c, Issues (f r c) (ops r c)) (step : Nat) :
    logCells step f =
      (List.finRange 16).map fun j => ops ⟨j.val / 4, by omega⟩ ⟨j.val % 4, by omega⟩ := by
  unfold logCells
  exact List.map_congr_left fun j _ => runLane_log (h _ _) _ _

theorem logCells_replicate {f : Fin 4 → Fin 4 → Chain Ct} {ops : List PubOp} (h : ∀ r c, Issues (f r c) ops)
    (step : Nat) : logCells step f = List.replicate 16 ops := by
  rw [logCells_eq (ops := fun _ _ => ops) h]; rfl

/-! Counting and failing -/

/-- How many of the invocations are of class `k`. -/
def classCount (k : Fin 7) (ops : List PubOp) : Nat := ops.countP fun o => PubOp.counter o == some k

theorem countClass_one (k : Fin 7) (ops : List PubOp) : countClass k [ops] = classCount k ops := by
  simp [countClass, classCount]

theorem countClass_nil (k : Fin 7) : countClass k [] = 0 := rfl

theorem countClass_replicate (k : Fin 7) (n : Nat) (ops : List PubOp) :
    countClass k (List.replicate n ops) = n * classCount k ops := by
  simp [countClass, classCount]

theorem laneLength_one (ops : List PubOp) : laneLength [ops] = oneLane ops.length := by
  funext lane
  cases lane <;> simp [laneLength, oneLane]

theorem laneLength_nil : laneLength [] = fun _ => 0 := by
  funext lane; simp [laneLength]

theorem laneLength_replicate (ops : List PubOp) :
    laneLength (List.replicate 16 ops) = sixteenLanes ops.length := by
  funext lane
  unfold laneLength sixteenLanes
  by_cases h : lane < 16
  · rw [List.getD_eq_getElem?_getD, List.getElem?_replicate]
    simp [h]
  · rw [List.getD_eq_getElem?_getD, List.getElem?_replicate]
    simp [h]

theorem State.count_eq (s : State) (logs : Logs) :
    s.count logs = s.withCnt (countersPlus s.CNT fun k => countClass k logs) := rfl

theorem countersPlus_zero (cnt : Vector Word 7) : countersPlus cnt (fun _ => 0) = cnt := by
  ext i hi
  simp [countersPlus]

theorem countersPlus_plus (cnt : Vector Word 7) (a b : Fin 7 → Nat) :
    countersPlus (countersPlus cnt a) b = countersPlus cnt fun k => a k + b k := by
  ext1 i hi
  simp [countersPlus, BitVec.ofNat_add, BitVec.add_assoc]

theorem State.failsWithin_none (s : State) : s.failsWithin (fun _ => 0) = false := by
  simp [State.failsWithin]

theorem State.finishCommand_ok {s : State} {e : Effect} (h : s.fails e.logs = false) :
    s.finishCommand e = (e.after.count e.logs).accept := by
  simp [State.finishCommand, h]

theorem State.finishCommand_fault {s : State} {e : Effect} (h : s.fails e.logs = true) :
    s.finishCommand e = s.takeFault.answer .primFail 0 none := by
  simp [State.finishCommand, h]

theorem State.finishStep_ok {s : State} {e : Effect} (h : s.fails e.logs = false) (p : Phase) (n : Round) (st : Stage) :
    s.finishStep e p n st = ((e.after.count e.logs).moveTo p n st).tick := by
  simp [State.finishStep, h]

theorem State.finishStep_fault {s : State} {e : Effect} (h : s.fails e.logs = true) (p : Phase) (n : Round)
    (st : Stage) : s.finishStep e p n st = s.takeFault.tick := by
  simp [State.finishStep, h]

/-! Groups of cells -/

theorem blockFull_iff (b : Block) : blockFull b = true ↔ ∀ j : Fin 16, b[j].isSome := by
  simp [blockFull]

theorem matrixFull_iff (m : Matrix) : matrixFull m = true ↔ ∀ r c : Fin 4, m[r][c].isSome := by
  simp [matrixFull]

theorem loadedBlock?_full {b : Block} (h : blockFull b = true) :
    ∃ f, loadedBlock? b = some f ∧ ∀ j : Fin 16, b[j] = some (f j) := by
  have h' := (blockFull_iff b).mp h
  exact ⟨fun j => b[j].get (h' j), by unfold loadedBlock?; rw [dif_pos h'], fun j => by simp⟩

theorem loadedBlock?_some {b : Block} {f : Fin 16 → Ct} (h : loadedBlock? b = some f) :
    ∀ j : Fin 16, b[j] = some (f j) := by
  unfold loadedBlock? at h
  split at h
  · cases h; intro j; simp
  · cases h

theorem loadedBlock?_none {b : Block} (h : blockFull b = false) : loadedBlock? b = none := by
  unfold loadedBlock?
  rw [dif_neg]
  intro c
  rw [(blockFull_iff b).mpr c] at h
  cases h

theorem loadedMatrix?_full {m : Matrix} (h : matrixFull m = true) :
    ∃ f, loadedMatrix? m = some f ∧ ∀ r c : Fin 4, m[r][c] = some (f r c) := by
  have h' := (matrixFull_iff m).mp h
  exact ⟨fun r c => m[r][c].get (h' r c), by unfold loadedMatrix?; rw [dif_pos h'], fun r c => by simp⟩

theorem loadedMatrix?_some {m : Matrix} {f : Fin 4 → Fin 4 → Ct} (h : loadedMatrix? m = some f) :
    ∀ r c : Fin 4, m[r][c] = some (f r c) := by
  unfold loadedMatrix? at h
  split at h
  · cases h; intro r c; simp
  · cases h

theorem State.matrixLoaded_cells {s : State} (h : s.matrixLoaded) :
    ∃ f, loadedMatrix? s.S = some f ∧ ∀ r c : Fin 4, s.S[r][c] = some (f r c) :=
  loadedMatrix?_full ((matrixFull_iff s.S).2 h)

theorem loadedMatrix?_none {m : Matrix} (h : matrixFull m = false) : loadedMatrix? m = none := by
  unfold loadedMatrix?
  rw [dif_neg]
  intro c
  rw [(matrixFull_iff m).mpr c] at h
  cases h

/-- The bytes of a block, given cell by cell. -/
theorem loadedBlock?_eq {b : Block} {f : Fin 16 → Ct} (h : ∀ j : Fin 16, b[j] = some (f j)) :
    loadedBlock? b = some f := by
  obtain ⟨g, hg, hc⟩ := loadedBlock?_full ((blockFull_iff b).mpr fun j => by rw [h]; rfl)
  rw [hg]
  exact congrArg some (funext fun j => Option.some.inj ((hc j).symm.trans (h j)))

/-- The bytes of a matrix, given cell by cell. -/
theorem loadedMatrix?_eq {m : Matrix} {f : Fin 4 → Fin 4 → Ct} (h : ∀ r c : Fin 4, m[r][c] = some (f r c)) :
    loadedMatrix? m = some f := by
  obtain ⟨g, hg, hc⟩ := loadedMatrix?_full ((matrixFull_iff m).mpr fun r c => by rw [h]; rfl)
  rw [hg]
  exact congrArg some (funext fun r => funext fun c => Option.some.inj ((hc r c).symm.trans (h r c)))

/-- The cells of a block whose hidden values are known. -/
theorem State.blockIs_cells {s : State} {b : HBlock} (h : s.blockIs b) :
    ∃ x : Fin 16 → Ct, (∀ j : Fin 16, s.B[j] = some (x j)) ∧ ∀ j : Fin 16, (x j).hidden = b[j] := by
  have hj : ∀ j : Fin 16, ∃ x, s.B[j] = some x ∧ x.hidden = b[j] := fun j => Option.map_eq_some_iff.mp (h j)
  exact ⟨fun j => (hj j).choose, fun j => (hj j).choose_spec.1, fun j => (hj j).choose_spec.2⟩

/-- The cells of a matrix whose hidden values are known. -/
theorem State.matrixIs_cells {s : State} {m : HMatrix} (h : s.matrixIs m) :
    ∃ x : Fin 4 → Fin 4 → Ct, (∀ r c : Fin 4, s.S[r][c] = some (x r c)) ∧ ∀ r c : Fin 4, (x r c).hidden = m[r][c] := by
  have hj : ∀ r c : Fin 4, ∃ x, s.S[r][c] = some x ∧ x.hidden = m[r][c] := fun r c => Option.map_eq_some_iff.mp (h r c)
  exact ⟨fun r c => (hj r c).choose, fun r c => (hj r c).choose_spec.1, fun r c => (hj r c).choose_spec.2⟩

/-- The cells of the expanded key whose hidden values are known. -/
theorem State.keyIs_cells {s : State} {rk : Vector HBlock 11} (h : s.keyIs rk) :
    ∃ x : Fin 11 → Fin 16 → Ct, (∀ (n : Fin 11) (j : Fin 16), s.RK[n][j] = some (x n j)) ∧
      ∀ (n : Fin 11) (j : Fin 16), (x n j).hidden = rk[n][j] := by
  have hj : ∀ (n : Fin 11) (j : Fin 16), ∃ x, s.RK[n][j] = some x ∧ x.hidden = rk[n][j] := fun n j =>
    Option.map_eq_some_iff.mp (h n j)
  exact ⟨fun n j => (hj n j).choose, fun n j => (hj n j).choose_spec.1, fun n j => (hj n j).choose_spec.2⟩

/-- A step in which no listed failure falls does not fail. -/
theorem State.failsWithin_of_noFailure {s : State} {n : Nat} (h : s.noFailureFor (n + 1)) (len : Nat → Nat) :
    s.failsWithin len = false := by
  unfold State.failsWithin
  rw [List.any_eq_false]
  intro f hf
  have hn : f.step ≠ s.stepNo := by rcases h f hf with h | h <;> omega
  simp [hn]

@[simp] theorem matrixOf_get (f : Fin 4 → Fin 4 → Ct) (r c : Fin 4) : (matrixOf f)[r][c] = some (f r c) := by
  simp [matrixOf]

@[simp] theorem blockOf_get (f : Fin 16 → Ct) (j : Fin 16) : (blockOf f)[j] = some (f j) := by
  simp [blockOf]

@[simp] theorem fromBlock_get (b : Block) (r c : Fin 4) : (fromBlock b)[r][c] = b[blockOffset r c] := by
  simp [fromBlock]

@[simp] theorem matrixFull_matrixOf (f : Fin 4 → Fin 4 → Ct) : matrixFull (matrixOf f) = true :=
  (matrixFull_iff _).mpr fun r c => by rw [matrixOf_get]; rfl

@[simp] theorem blockFull_blockOf (f : Fin 16 → Ct) : blockFull (blockOf f) = true :=
  (blockFull_iff _).mpr fun j => by rw [blockOf_get]; rfl

theorem matrixFull_fromBlock {b : Block} (h : blockFull b = true) : matrixFull (fromBlock b) = true :=
  (matrixFull_iff _).mpr fun r c => by rw [fromBlock_get]; exact (blockFull_iff b).mp h _

theorem blockFull_toBlock {m : Matrix} (h : matrixFull m = true) : blockFull (toBlock m) = true :=
  (blockFull_iff _).mpr fun j => by
    have := (matrixFull_iff m).mp h ⟨j.val % 4, by omega⟩ ⟨j.val / 4, by omega⟩
    simpa [toBlock] using this

theorem matrixFull_shiftRows {m : Matrix} (h : matrixFull m = true) : matrixFull (shiftRows m) = true :=
  (matrixFull_iff _).mpr fun r c => by
    have := (matrixFull_iff m).mp h r (c + r)
    simpa [shiftRows] using this

@[simp] theorem shiftRows_get (m : Matrix) (r c : Fin 4) : (shiftRows m)[r][c] = m[r][c + r] := by
  simp [shiftRows]

/-! The stages: cells, invocations, counts -/

theorem classCount_append (k : Fin 7) (a b : List PubOp) : classCount k (a ++ b) = classCount k a + classCount k b :=
  List.countP_append

theorem foldOps_length {ι : Type} (ops : ι → List PubOp) (is : List ι) :
    (foldOps ops is).length = (is.map fun i => (ops i).length).sum := by
  induction is with
  | nil => rfl
  | cons i is ih => simp [foldOps, ih]; omega

theorem foldOps_count {ι : Type} (k : Fin 7) (ops : ι → List PubOp) (is : List ι) :
    classCount k (foldOps ops is) = (is.map fun i => classCount k (ops i)).sum := by
  induction is with
  | nil => rfl
  | cons i is ih => simp [foldOps, classCount_append, ih]; omega

theorem substituteOps_length : substituteOps.length = substituteLength := by
  have h : ∀ i, (candidateOps i).length = 4 := fun _ => rfl
  simp only [substituteOps, List.length_append, foldOps_length, h, List.map_const', List.length_range,
    List.sum_replicate, smul_eq_mul]
  rfl

theorem substituteOps_count (k : Fin 7) : classCount k substituteOps = #v[256, 256, 0, 0, 0, 0, 0][k] := by
  have h : ∀ i, classCount k (candidateOps i) = #v[1, 1, 0, 0, 0, 0, 0][k] := fun i => by
    match k with
    | 0 => rfl
    | 1 => rfl
    | 2 => rfl
    | 3 => rfl
    | 4 => rfl
    | 5 => rfl
    | 6 => rfl
  simp only [substituteOps, classCount_append, foldOps_count, h, List.map_const', List.length_range, List.sum_replicate,
    smul_eq_mul]
  clear h; revert k; decide

theorem galoisStepOps_count (k : Byte) (i : Nat) (j : Fin 7) :
    classCount j (galoisStepOps k i) = #v[0, 0, 1, 1, 1, 1, 1][j] + #v[0, 0, (k.getLsbD i).toNat, 0, 0, 0, 0][j] := by
  unfold galoisStepOps
  cases k.getLsbD i <;> revert j <;> decide

theorem countP_range8 (p : Nat → Bool) : (List.range 8).countP p = (p 0).toNat + (p 1).toNat + (p 2).toNat +
    (p 3).toNat + (p 4).toNat + (p 5).toNat + (p 6).toNat + (p 7).toNat := by
  have h : List.range 8 = [0, 1, 2, 3, 4, 5, 6, 7] := rfl
  have c : ∀ b : Bool, (if b = true then 1 else 0) = b.toNat := fun b => by cases b <;> rfl
  simp only [h, List.countP_cons, List.countP_nil, c]
  omega

theorem popcount_eq (k : Byte) : popcount k = (k.getLsbD 0).toNat + (k.getLsbD 1).toNat + (k.getLsbD 2).toNat +
    (k.getLsbD 3).toNat + (k.getLsbD 4).toNat + (k.getLsbD 5).toNat + (k.getLsbD 6).toNat + (k.getLsbD 7).toNat :=
  countP_range8 _

theorem galoisOps_length (k : Byte) : (galoisOps k).length = galoisLength k := by
  have h : ∀ i, (galoisStepOps k i).length = 5 + (k.getLsbD i).toNat := fun i => by
    unfold galoisStepOps; cases k.getLsbD i <;> rfl
  have hr : List.range 8 = [0, 1, 2, 3, 4, 5, 6, 7] := rfl
  simp only [galoisOps, List.length_append, foldOps_length, h, hr, List.map_cons, List.map_nil, List.sum_cons,
    List.sum_nil, List.length_cons, List.length_nil, galoisLength, popcount_eq]
  omega

theorem galoisOps_count (k : Byte) (j : Fin 7) :
    classCount j (galoisOps k) = #v[0, 0, 8 + popcount k, 8, 8, 8, 8][j] := by
  have hr : List.range 8 = [0, 1, 2, 3, 4, 5, 6, 7] := rfl
  have h0 : classCount j [.encp 0] = 0 := by revert j; decide
  simp only [galoisOps, classCount_append, foldOps_count, galoisStepOps_count, hr, List.map_cons, List.map_nil,
    List.sum_cons, List.sum_nil, h0, popcount_eq]
  match j with
  | 0 => rfl
  | 1 => rfl
  | 2 => simp; omega
  | 3 => rfl
  | 4 => rfl
  | 5 => rfl
  | 6 => rfl

theorem enccEffect_after (s : State) (d : Fin 16) (imm : Byte) :
    ∃ y : Ct, (enccEffect s d imm).after = s.setB d y ∧ y.hidden = imm :=
  ⟨_, rfl, runLane_yields (encp_yields imm) _ _⟩

theorem enccEffect_logs (s : State) (d : Fin 16) (imm : Byte) : (enccEffect s d imm).logs = [[.encp imm]] := rfl

theorem sboxEffect_after (s : State) (d : Fin 16) (x : Ct) :
    ∃ y : Ct, (sboxEffect s d x).after = s.setB d y ∧ y.hidden = sbox x.hidden :=
  ⟨_, rfl, runLane_yields (substitute_yields x) _ _⟩

theorem sboxEffect_logs (s : State) (d : Fin 16) (x : Ct) : (sboxEffect s d x).logs = [substituteOps] := by
  simp [sboxEffect, runLane_log (substitute_issues x)]

theorem xorbEffect_after (s : State) (d : Fin 16) (x y : Ct) :
    ∃ z : Ct, (xorbEffect s d x y).after = s.setB d z ∧ z.hidden = x.hidden ^^^ y.hidden :=
  ⟨_, rfl, runLane_yields (add_yields x y) _ _⟩

theorem xorbEffect_logs (s : State) (d : Fin 16) (x y : Ct) : (xorbEffect s d x y).logs = [[.add]] := rfl

theorem gmulEffect_after (s : State) (d : Fin 16) (x : Ct) (k : Byte) :
    ∃ y : Ct, (gmulEffect s d x k).after = s.setB d y ∧ y.hidden = gfMul x.hidden k :=
  ⟨_, rfl, runLane_yields (galoisMul_yields x k) _ _⟩

theorem gmulEffect_logs (s : State) (d : Fin 16) (x : Ct) (k : Byte) : (gmulEffect s d x k).logs = [galoisOps k] := by
  simp [gmulEffect, runLane_log (galoisMul_issues x k)]

theorem subEffect_after (s : State) (m : Fin 4 → Fin 4 → Ct) :
    ∃ f, (subEffect s m).after = s.withS (matrixOf f) ∧ ∀ r c, (f r c).hidden = sbox (m r c).hidden :=
  ⟨_, rfl, fun r c => runCells_yields (f := fun r c => substitute (m r c)) (substitute_yields (m r c)) _⟩

theorem subEffect_logs (s : State) (m : Fin 4 → Fin 4 → Ct) :
    (subEffect s m).logs = List.replicate 16 substituteOps :=
  logCells_replicate (fun r c => substitute_issues (m r c)) _

theorem arkEffect_after (s : State) (key : Fin 16 → Ct) (m : Fin 4 → Fin 4 → Ct) :
    ∃ f, (arkEffect s key m).after = s.withS (matrixOf f) ∧
      ∀ r c, (f r c).hidden = (m r c).hidden ^^^ (key (keyOffset r c)).hidden :=
  ⟨_, rfl, fun r c =>
    runCells_yields (f := fun r c => add (m r c) (key (keyOffset r c))) (add_yields (m r c) (key (keyOffset r c))) _⟩

theorem arkEffect_logs (s : State) (key : Fin 16 → Ct) (m : Fin 4 → Fin 4 → Ct) :
    (arkEffect s key m).logs = List.replicate 16 [.add] :=
  logCells_replicate (fun r c => add_issues (m r c) (key (keyOffset r c))) _

/-- One `add`. -/
def addOps : List PubOp := [.add]

/-- What the lane of a cell of row `r` issues in MixColumns. -/
def mixOps (r : Fin 4) : List PubOp :=
  let g : Fin 4 → List PubOp := fun j => galoisOps (mixRow r)[j]
  (((((addOps ++ g 3) ++ addOps) ++ g 2) ++ addOps) ++ g 1) ++ g 0

theorem mixCell_issues (m : Fin 4 → Fin 4 → Ct) (r c : Fin 4) : Issues (mixCell m r c) (mixOps r) :=
  Issues.bind (galoisMul_issues _ _) fun _ =>
  Issues.bind (galoisMul_issues _ _) fun _ =>
  Issues.bind (add_issues _ _) fun _ =>
  Issues.bind (galoisMul_issues _ _) fun _ =>
  Issues.bind (add_issues _ _) fun _ =>
  Issues.bind (galoisMul_issues _ _) fun _ => add_issues _ _

theorem mixOps_length (r : Fin 4) : (mixOps r).length = mixLength := by
  simp only [mixOps, List.length_append, galoisOps_length, galoisLength]
  revert r; decide

theorem mixOps_count (r : Fin 4) (k : Fin 7) : classCount k (mixOps r) = #v[0, 0, 40, 32, 32, 32, 32][k] := by
  simp only [mixOps, classCount_append, galoisOps_count]
  revert r k; decide

theorem mixCell_yields (m : Fin 4 → Fin 4 → Ct) (r c : Fin 4) : Yields (mixCell m r c) fun y =>
    y.hidden = gfMul (m 0 c).hidden (mixRow r)[0] ^^^ gfMul (m 1 c).hidden (mixRow r)[1] ^^^
      gfMul (m 2 c).hidden (mixRow r)[2] ^^^ gfMul (m 3 c).hidden (mixRow r)[3] := by
  refine Yields.bind (galoisMul_yields _ _) fun t0 h0 => ?_
  refine Yields.bind (galoisMul_yields _ _) fun t1 h1 => ?_
  refine Yields.bind (add_yields _ _) fun u1 g1 => ?_
  refine Yields.bind (galoisMul_yields _ _) fun t2 h2 => ?_
  refine Yields.bind (add_yields _ _) fun u2 g2 => ?_
  refine Yields.bind (galoisMul_yields _ _) fun t3 h3 => ?_
  refine (add_yields _ _).mono fun y hy => ?_
  rw [hy, g2, g1, h0, h1, h2, h3]

theorem mixEffect_after (s : State) (m : Fin 4 → Fin 4 → Ct) :
    ∃ f, (mixEffect s m).after = s.withS (matrixOf f) ∧
      ∀ r c, (f r c).hidden = gfMul (m 0 c).hidden (mixRow r)[0] ^^^ gfMul (m 1 c).hidden (mixRow r)[1] ^^^
        gfMul (m 2 c).hidden (mixRow r)[2] ^^^ gfMul (m 3 c).hidden (mixRow r)[3] :=
  ⟨_, rfl, fun r c => runCells_yields (f := mixCell m) (mixCell_yields m r c) _⟩

theorem mixEffect_logs (s : State) (m : Fin 4 → Fin 4 → Ct) :
    (mixEffect s m).logs = (List.finRange 16).map fun j => mixOps ⟨j.val / 4, by omega⟩ :=
  logCells_eq (ops := fun r _ => mixOps r) (mixCell_issues m) _

theorem mixEffect_count (s : State) (m : Fin 4 → Fin 4 → Ct) (k : Fin 7) :
    countClass k (mixEffect s m).logs = #v[0, 0, 640, 512, 512, 512, 512][k] := by
  have h : ∀ ops, List.countP (fun o => PubOp.counter o == some k) ops = classCount k ops := fun _ => rfl
  simp only [mixEffect_logs, countClass, List.map_map, Function.comp_def, h, mixOps_count, List.map_const',
    List.sum_replicate, List.length_finRange, smul_eq_mul]
  clear h; revert k; decide

theorem mixEffect_lanes (s : State) (m : Fin 4 → Fin 4 → Ct) :
    laneLength (mixEffect s m).logs = sixteenLanes mixLength := by
  funext lane
  unfold laneLength sixteenLanes
  rw [mixEffect_logs, List.getD_eq_getElem?_getD, List.getElem?_map]
  by_cases h : lane < 16
  · simp [h, mixOps_length]
  · simp [h]

/-! The key expansion -/

/-- What lane `4i + t` issues in the key expansion. -/
def wordOps (i : Nat) (t : Fin 4) : List PubOp :=
  if i % 4 = 0 then
    if t = 0 then ((addOps ++ addOps) ++ [.encp (rconTable.toList.getD (i / 4 - 1) 0)]) ++ substituteOps
    else addOps ++ substituteOps
  else addOps

theorem wordByte_issues (i : Nat) (prev old : KeyWord) (t : Fin 4) : Issues (wordByte i prev old t) (wordOps i t) := by
  unfold wordByte wordOps
  split
  · split
    · exact Issues.bind (substitute_issues _) fun _ =>
        Issues.bind (encp_issues _) fun _ => Issues.bind (add_issues _ _) fun _ => add_issues _ _
    · exact Issues.bind (substitute_issues _) fun _ => add_issues _ _
  · exact add_issues _ _

/-- The hidden values of a key-schedule word. -/
def hiddenWord (w : KeyWord) : Vector Byte 4 := w.map Ct.hidden

theorem wordByte_yields (i : Nat) (prev old : KeyWord) (t : Fin 4) : Yields (wordByte i prev old t) fun y =>
    y.hidden = (hNextWord i (hiddenWord prev) (hiddenWord old))[t] := by
  unfold wordByte hNextWord
  split
  · split
    · refine Yields.bind (substitute_yields _) fun u hu => Yields.bind (encp_yields _) fun c hc =>
        Yields.bind (add_yields _ _) fun v hv => (add_yields _ _).mono fun y hy => ?_
      rename_i ht
      subst ht
      rw [hy, hv, hu, hc]
      simp [hiddenWord]
    · refine Yields.bind (substitute_yields _) fun u hu => (add_yields _ _).mono fun y hy => ?_
      rw [hy, hu]
      match t with
      | 0 => contradiction
      | 1 => simp [hiddenWord]
      | 2 => simp [hiddenWord]
      | 3 => simp [hiddenWord]
  · refine (add_yields _ _).mono fun y hy => ?_
    rw [hy]
    simp [hiddenWord]

/-- What the whole expansion issues, lane by lane. -/
def expandOps : Logs :=
  (List.finRange 44).flatMap fun i =>
    (List.finRange 4).map fun t => if 4 ≤ i.val then wordOps i.val t else []

theorem expandLogs_eq (step : Nat) (w : Vector KeyWord 44) : expandLogs step w = expandOps := by
  unfold expandLogs expandOps
  refine List.flatMap_congr fun i _ => List.map_congr_left fun t _ => ?_
  split
  · exact runLane_log (wordByte_issues _ _ _ _) _ _
  · rfl

theorem wordOps_count (i : Nat) (t : Fin 4) (k : Fin 7) : classCount k (wordOps i t) =
    if i % 4 = 0 then (if t = 0 then #v[256, 256, 2, 0, 0, 0, 0][k] else #v[256, 256, 1, 0, 0, 0, 0][k])
    else #v[0, 0, 1, 0, 0, 0, 0][k] := by
  have he : classCount k [.encp (rconTable.toList.getD (i / 4 - 1) 0)] = 0 := rfl
  unfold wordOps
  split
  · split <;> simp only [classCount_append, substituteOps_count, he] <;> clear he <;> revert k <;> decide
  · clear he; revert k; decide

theorem wordOps_length (i : Nat) (t : Fin 4) : (wordOps i t).length =
    if i % 4 = 0 then (if t = 0 then 1028 else 1026) else 1 := by
  unfold wordOps
  split
  · split <;> simp only [List.length_append, substituteOps_length] <;> rfl
  · rfl

theorem flatMap_finRange {β : Type} (n : Nat) (g : Nat → List β) :
    ((List.finRange n).flatMap fun i => g i.val) = (List.range n).flatMap g := by
  rw [← List.map_coe_finRange_eq_range, List.flatMap_map]

theorem finRange4_map {β : Type} (g : Fin 4 → β) : (List.finRange 4).map g = [g 0, g 1, g 2, g 3] := rfl

theorem expandOps_count (k : Fin 7) : countClass k expandOps = costKeyexp k := by
  have h : ∀ (i : Nat) (t : Fin 4),
      List.countP (fun o => PubOp.counter o == some k) (if 4 ≤ i then wordOps i t else []) =
      if 4 ≤ i then (if i % 4 = 0 then
        (if t = 0 then #v[256, 256, 2, 0, 0, 0, 0][k] else #v[256, 256, 1, 0, 0, 0, 0][k])
        else #v[0, 0, 1, 0, 0, 0, 0][k]) else 0 := fun i t => by
    split
    · exact wordOps_count i t k
    · rfl
  unfold countClass expandOps
  rw [flatMap_finRange 44 fun i => (List.finRange 4).map fun t => if 4 ≤ i then wordOps i t else []]
  simp only [finRange4_map, List.map_flatMap, List.map_cons, List.map_nil, h]
  clear h; revert k; decide +kernel

theorem expandOps_lengths : expandOps.map List.length = (List.range 176).map expandLength := by
  have h : ∀ (i : Nat) (t : Fin 4), (if 4 ≤ i then wordOps i t else []).length =
      if 4 ≤ i then (if i % 4 = 0 then (if t = 0 then 1028 else 1026) else 1) else 0 := fun i t => by
    split
    · exact wordOps_length i t
    · rfl
  unfold expandOps
  rw [flatMap_finRange 44 fun i => (List.finRange 4).map fun t => if 4 ≤ i then wordOps i t else []]
  simp only [finRange4_map, List.map_flatMap, List.map_cons, List.map_nil, h]
  decide +kernel

theorem laneLength_expand : laneLength expandOps = expandLength := by
  funext lane
  have h : laneLength expandOps lane = (expandOps.map List.length).getD lane 0 := by
    simp only [laneLength, List.getD_eq_getElem?_getD, List.getElem?_map]
    cases expandOps[lane]? <;> rfl
  rw [h, expandOps_lengths, List.getD_eq_getElem?_getD, List.getElem?_map]
  by_cases hl : lane < 176
  · simp [List.getElem?_range hl]
  · have h1 : (List.range 176)[lane]? = none := List.getElem?_eq_none (by simp; omega)
    have h2 : expandLength lane = 0 := by
      unfold expandLength
      rw [if_neg (by omega), if_pos (by omega)]
    simp [h1, h2]

theorem nextWord_hidden (step i : Nat) (prev old : KeyWord) :
    hiddenWord (nextWord step i prev old) = hNextWord i (hiddenWord prev) (hiddenWord old) := by
  ext1 t ht
  have := runLane_yields (wordByte_yields i prev old ⟨t, ht⟩) step (4 * i + t)
  simpa [hiddenWord, nextWord, wordLane] using this

/-- The hidden values of the schedule are the reference's, word by word (R138). -/
theorem keyWords_hidden (step : Nat) (k : Fin 16 → Ct) (m : Nat) :
    (keyWords step k m).map hiddenWord = hKeyWords (Vector.ofFn fun j => (k j).hidden) m := by
  induction m with
  | zero =>
    ext i hi t ht
    simp [keyWords, hKeyWords, masterWords, hiddenWord, keyOffset]
  | succ m ih =>
    have get : ∀ (i : Nat) (hi : i < 4 + m), hiddenWord (keyWords step k m)[i] =
        (hKeyWords (Vector.ofFn fun j => (k j).hidden) m)[i] := fun i hi => by
      rw [← ih]; simp
    simp only [keyWords, hKeyWords, Vector.map_push, ih, nextWord_hidden, get]

theorem expandEffect_logs (s : State) (k : Fin 16 → Ct) : (expandEffect s k).logs = expandOps := expandLogs_eq _ _

theorem expandEffect_after (s : State) (k : Fin 16 → Ct) :
    ∃ rk : Fin 11 → Fin 16 → Ct,
      (expandEffect s k).after = s.withKey (Vector.ofFn fun n => blockOf (rk n)) true ∧
      ∀ (n : Fin 11) (j : Fin 16), (rk n j).hidden = (hExpand (Vector.ofFn fun j => (k j).hidden))[n][j] := by
  refine ⟨fun n j => (keyWords s.stepNo k 40)[4 * n.val + j.val % 4][j.val / 4], rfl, fun n j => ?_⟩
  simp only [hExpand, ← keyWords_hidden s.stepNo k 40]
  simp [hiddenWord]

end Sys2Proof.Machine
end

