-- ==== Sys2Proof/Laws/Costs.lean ====
section
/-! SUPPORT. What each effect costs: how many invocations each of its lanes issues and how many of each counter class
(spec/70_reset_and_hazards.md R210), and what finishing an effect of a known cost does. -/
namespace Sys2Proof.Machine

/-- The lanes of the effect issue `len` invocations, `n k` of them of class `k`. -/
structure Effect.Costs (e : Effect) (len : Nat → Nat) (n : Fin 7 → Nat) : Prop where
  lanes : laneLength e.logs = len
  counts : ∀ k, countClass k e.logs = n k

theorem State.fails_costs {s : State} {e : Effect} {len : Nat → Nat} {n : Fin 7 → Nat} (h : e.Costs len n) :
    s.fails e.logs = s.failsWithin len := by rw [State.fails, h.lanes]

theorem State.count_costs {e : Effect} {len : Nat → Nat} {n : Fin 7 → Nat} (h : e.Costs len n) :
    e.after.count e.logs = e.after.withCnt (countersPlus e.after.CNT n) := by
  rw [State.count_eq, funext h.counts]

theorem State.finishCommand_costs_ok {s : State} {e : Effect} {len : Nat → Nat} {n : Fin 7 → Nat} (h : e.Costs len n)
    (hf : s.failsWithin len = false) :
    s.finishCommand e = (e.after.withCnt (countersPlus e.after.CNT n)).accept := by
  rw [State.finishCommand_ok (by rw [State.fails_costs h, hf]), State.count_costs h]

theorem State.finishCommand_costs_fault {s : State} {e : Effect} {len : Nat → Nat} {n : Fin 7 → Nat}
    (h : e.Costs len n) (hf : s.failsWithin len = true) :
    s.finishCommand e = s.takeFault.answer .primFail 0 none :=
  State.finishCommand_fault (by rw [State.fails_costs h, hf])

theorem State.finishStep_costs_ok {s : State} {e : Effect} {len : Nat → Nat} {n : Fin 7 → Nat} (h : e.Costs len n)
    (hf : s.failsWithin len = false) (p : Phase) (r : Round) (g : Stage) :
    s.finishStep e p r g = ((e.after.withCnt (countersPlus e.after.CNT n)).moveTo p r g).tick := by
  rw [State.finishStep_ok (by rw [State.fails_costs h, hf]), State.count_costs h]

theorem State.finishStep_costs_fault {s : State} {e : Effect} {len : Nat → Nat} {n : Fin 7 → Nat}
    (h : e.Costs len n) (hf : s.failsWithin len = true) (p : Phase) (r : Round) (g : Stage) :
    s.finishStep e p r g = s.takeFault.tick :=
  State.finishStep_fault (by rw [State.fails_costs h, hf]) p r g

theorem Effect.costs_one {e : Effect} {ops : List PubOp} (h : e.logs = [ops]) {len : Nat} {n : Fin 7 → Nat}
    (hl : ops.length = len) (hn : ∀ k, classCount k ops = n k) : e.Costs (oneLane len) n :=
  ⟨by rw [h, laneLength_one, hl], fun k => by rw [h, countClass_one, hn]⟩

theorem Effect.costs_sixteen {e : Effect} {ops : List PubOp} (h : e.logs = List.replicate 16 ops) {len : Nat}
    {n : Fin 7 → Nat} (hl : ops.length = len) (hn : ∀ k, 16 * classCount k ops = n k) : e.Costs (sixteenLanes len) n :=
  ⟨by rw [h, laneLength_replicate, hl], fun k => by rw [h, countClass_replicate, hn]⟩

theorem enccEffect_costs (s : State) (d : Fin 16) (imm : Byte) : (enccEffect s d imm).Costs (oneLane 1) fun _ => 0 :=
  Effect.costs_one (enccEffect_logs s d imm) rfl fun _ => rfl

theorem sboxEffect_costs (s : State) (d : Fin 16) (x : Ct) :
    (sboxEffect s d x).Costs (oneLane substituteLength) #v[256, 256, 0, 0, 0, 0, 0].get :=
  Effect.costs_one (sboxEffect_logs s d x) substituteOps_length fun k => substituteOps_count k

theorem xorbEffect_costs (s : State) (d : Fin 16) (x y : Ct) :
    (xorbEffect s d x y).Costs (oneLane 1) #v[0, 0, 1, 0, 0, 0, 0].get :=
  Effect.costs_one (xorbEffect_logs s d x y) rfl fun k => by revert k; decide

theorem gmulEffect_costs (s : State) (d : Fin 16) (x : Ct) (k : Byte) :
    (gmulEffect s d x k).Costs (oneLane (galoisLength k)) #v[0, 0, 8 + popcount k, 8, 8, 8, 8].get :=
  Effect.costs_one (gmulEffect_logs s d x k) (galoisOps_length k) fun j => galoisOps_count k j

theorem subEffect_costs (s : State) (m : Fin 4 → Fin 4 → Ct) :
    (subEffect s m).Costs (sixteenLanes substituteLength) #v[4096, 4096, 0, 0, 0, 0, 0].get :=
  Effect.costs_sixteen (subEffect_logs s m) substituteOps_length fun k => by
    rw [substituteOps_count]; revert k; decide

theorem arkEffect_costs (s : State) (key : Fin 16 → Ct) (m : Fin 4 → Fin 4 → Ct) :
    (arkEffect s key m).Costs (sixteenLanes 1) #v[0, 0, 16, 0, 0, 0, 0].get :=
  Effect.costs_sixteen (arkEffect_logs s key m) rfl fun k => by revert k; decide

theorem arkStoreEffect_costs (s : State) (key : Fin 16 → Ct) (m : Fin 4 → Fin 4 → Ct) :
    (arkStoreEffect s key m).Costs (sixteenLanes 1) #v[0, 0, 16, 0, 0, 0, 0].get :=
  ⟨(arkEffect_costs s key m).lanes, (arkEffect_costs s key m).counts⟩

theorem mixEffect_costs (s : State) (m : Fin 4 → Fin 4 → Ct) :
    (mixEffect s m).Costs (sixteenLanes mixLength) #v[0, 0, 640, 512, 512, 512, 512].get :=
  ⟨mixEffect_lanes s m, fun k => mixEffect_count s m k⟩

theorem shiftEffect_costs (s : State) : (shiftEffect s).Costs (fun _ => 0) fun _ => 0 :=
  ⟨laneLength_nil, fun _ => rfl⟩

theorem expandEffect_costs (s : State) (k : Fin 16 → Ct) :
    (expandEffect s k).Costs expandLength #v[10240, 10240, 170, 0, 0, 0, 0].get :=
  ⟨by rw [expandEffect_logs, laneLength_expand], fun j => by rw [expandEffect_logs, expandOps_count]; rfl⟩

/-- What the sequencer step of a kind of work costs, by counter class (R210). -/
def Work.cost : Work → Fin 7 → Nat
  | .loadArk => #v[0, 0, 16, 0, 0, 0, 0].get
  | .sub => #v[4096, 4096, 0, 0, 0, 0, 0].get
  | .shr => fun _ => 0
  | .mix => #v[0, 0, 640, 512, 512, 512, 512].get
  | .ark => #v[0, 0, 16, 0, 0, 0, 0].get
  | .arkStore => #v[0, 0, 16, 0, 0, 0, 0].get
  | .expand => #v[10240, 10240, 170, 0, 0, 0, 0].get

/-- What a sequencer step costs depends on its work alone. -/
theorem workEffect_costs {w : Work} {s : State} {e : Effect} (h : workEffect w s = some e) : e.Costs w.lanes w.cost := by
  cases w <;> simp only [workEffect] at h
  case loadArk => split at h <;> [(cases h; exact arkEffect_costs _ _ _); cases h]
  case sub =>
    obtain ⟨m, -, rfl⟩ := Option.map_eq_some_iff.mp h
    exact subEffect_costs _ _
  case shr => split at h <;> [(cases h; exact shiftEffect_costs _); cases h]
  case mix =>
    obtain ⟨m, -, rfl⟩ := Option.map_eq_some_iff.mp h
    exact mixEffect_costs _ _
  case ark => split at h <;> [(cases h; exact arkEffect_costs _ _ _); cases h]
  case arkStore => split at h <;> [(cases h; exact arkStoreEffect_costs _ _ _); cases h]
  case expand =>
    obtain ⟨m, -, rfl⟩ := Option.map_eq_some_iff.mp h
    exact expandEffect_costs _ _

end Sys2Proof.Machine
end

