-- ==== Sys2Proof/Laws/Encoding.lean ====
section
/-! SUPPORT. Command words and their fields (spec/30_encoding.md R83): a word is its four fields, masking goes field by
field, and how a decoded word is taken apart by opcode. -/
namespace Sys2Proof

theorem getLsbD_wordOf (o a b c : Byte) (i : Nat) : (wordOf o a b c).getLsbD i =
    if i < 8 then c.getLsbD i
    else if i < 16 then b.getLsbD (i - 8)
    else if i < 24 then a.getLsbD (i - 16)
    else o.getLsbD (i - 24) := by
  simp only [wordOf, BitVec.getLsbD_append, Nat.sub_sub]
  by_cases h8 : i < 8
  · simp [h8]
  by_cases h16 : i < 16
  · simp [h8, h16, show i - 8 < 8 by omega]
  by_cases h24 : i < 24
  · simp [h8, h16, h24, show ¬ i - 8 < 8 by omega, show i - 16 < 8 by omega]
  · simp [h8, h16, h24, show ¬ i - 8 < 8 by omega, show ¬ i - 16 < 8 by omega]

@[simp] theorem opcodeOf_wordOf (o a b c : Byte) : opcodeOf (wordOf o a b c) = o := by
  apply BitVec.eq_of_getLsbD_eq
  intro i hi
  simp [opcodeOf, getLsbD_wordOf, hi, show ¬ 24 + i < 8 by omega, show ¬ 24 + i < 16 by omega]

@[simp] theorem fieldA_wordOf (o a b c : Byte) : fieldA (wordOf o a b c) = a := by
  apply BitVec.eq_of_getLsbD_eq
  intro i hi
  simp [fieldA, getLsbD_wordOf, hi, show ¬ 16 + i < 8 by omega, show 16 + i < 24 by omega]

@[simp] theorem fieldB_wordOf (o a b c : Byte) : fieldB (wordOf o a b c) = b := by
  apply BitVec.eq_of_getLsbD_eq
  intro i hi
  simp [fieldB, getLsbD_wordOf, hi, show 8 + i < 16 by omega]

@[simp] theorem fieldC_wordOf (o a b c : Byte) : fieldC (wordOf o a b c) = c := by
  apply BitVec.eq_of_getLsbD_eq
  intro i hi
  simp [fieldC, getLsbD_wordOf, hi]

/-- A word is its four fields. -/
theorem wordOf_fields (w : Word) : wordOf (opcodeOf w) (fieldA w) (fieldB w) (fieldC w) = w := by
  apply BitVec.eq_of_getLsbD_eq
  intro i hi
  simp only [getLsbD_wordOf, opcodeOf, fieldA, fieldB, fieldC, BitVec.getLsbD_extractLsb']
  by_cases h8 : i < 8
  · simp [h8]
  by_cases h16 : i < 16
  · simp [h8, h16, show i - 8 < 8 by omega, show 8 + (i - 8) = i by omega]
  by_cases h24 : i < 24
  · simp [h8, h16, h24, show i - 16 < 8 by omega, show 16 + (i - 16) = i by omega]
  · simp [h8, h16, h24, show i - 24 < 8 by omega, show 24 + (i - 24) = i by omega]

theorem wordOf_inj {o a b c o' a' b' c' : Byte} :
    wordOf o a b c = wordOf o' a' b' c' ↔ o = o' ∧ a = a' ∧ b = b' ∧ c = c' := by
  refine ⟨fun h => ⟨?_, ?_, ?_, ?_⟩, fun ⟨ho, ha, hb, hc⟩ => by rw [ho, ha, hb, hc]⟩
  · simpa using congrArg opcodeOf h
  · simpa using congrArg fieldA h
  · simpa using congrArg fieldB h
  · simpa using congrArg fieldC h

/-- Masking goes field by field. -/
theorem wordOf_and (o a b c o' a' b' c' : Byte) :
    wordOf o a b c &&& wordOf o' a' b' c' = wordOf (o &&& o') (a &&& a') (b &&& b') (c &&& c') := by
  apply BitVec.eq_of_getLsbD_eq
  intro i hi
  simp only [BitVec.getLsbD_and, getLsbD_wordOf]
  split <;> [rfl; (split <;> [rfl; (split <;> rfl)])]

theorem decode_wordOf (o a b c : Byte) : decode (wordOf o a b c) = decodeFields o a b c := by
  simp only [decode, opcodeOf_wordOf, fieldA_wordOf, fieldB_wordOf, fieldC_wordOf]

theorem decode_fields (w : Word) : decode w = decodeFields (opcodeOf w) (fieldA w) (fieldB w) (fieldC w) := rfl

theorem ifZero_ok {b : Bool} {i j : Instr} : ifZero b i = .ok j ↔ b = true ∧ i = j := by
  unfold ifZero; split <;> simp [*]

theorem ifZero_error {b : Bool} {i : Instr} {e : DecodeError} :
    ifZero b i = .error e ↔ b = false ∧ e = .unusedFieldNonzero := by
  unfold ifZero; split <;> simp_all [eq_comm]

/-- Take one opcode off a decoded word: either it is this one or the decoding goes on with the others. -/
theorem decode_ite {c : Prop} [Decidable c] {x y r : Except DecodeError Instr} {Q : Prop}
    (hx : c → x = r → Q) (hy : ¬c → y = r → Q) : (if c then x else y) = r → Q := by
  intro h
  split at h
  · exact hx ‹_› h
  · exact hy ‹_› h

/-- A masked field is the field where the mask is ones, and 0 where it is zeros. -/
@[simp] theorem and_ones (a : Byte) : a &&& 0xFF#8 = a := by
  have h : (0xFF#8) = BitVec.allOnes 8 := rfl
  rw [h, BitVec.and_allOnes]

end Sys2Proof
end

