-- ==== Sys2Proof/Laws/Operands.lean ====
section
/-! SUPPORT. Operands: when an index is in range (spec/30_encoding.md R86), and the formats of command words (R83) read
off the decoder's row for an opcode. -/
namespace Sys2Proof.Machine

theorem bufferIndex?_some {d : Byte} {j : Fin 16} (h : d.toNat = j.val) : bufferIndex? d = some j := by
  unfold bufferIndex?
  rw [dif_pos (by omega)]
  exact congrArg some (Fin.ext h)

theorem State.readable_cell {s : State} {a : Byte} (h : s.readable a) :
    ∃ (j : Fin 16) (x : Ct), bufferIndex? a = some j ∧ s.B[j] = some x := by
  obtain ⟨j, hj, hs⟩ := h
  obtain ⟨x, hx⟩ := Option.isSome_iff_exists.1 hs
  exact ⟨j, x, bufferIndex?_some hj, hx⟩

theorem bufferIndex?_none {d : Byte} (h : 15 < d.toNat) : bufferIndex? d = none := by
  unfold bufferIndex?
  rw [dif_neg (by omega)]

theorem bufferIndex?_le {d : Byte} (h : d.toNat ≤ 15) : ∃ j, bufferIndex? d = some j :=
  ⟨⟨d.toNat, by omega⟩, bufferIndex?_some rfl⟩

theorem roundKeyIndex?_some {d : Byte} {j : Fin 11} (h : d.toNat = j.val) : roundKeyIndex? d = some j := by
  unfold roundKeyIndex?
  rw [dif_pos (by omega)]
  exact congrArg some (Fin.ext h)

theorem roundKeyIndex?_none {d : Byte} (h : 10 < d.toNat) : roundKeyIndex? d = none := by
  unfold roundKeyIndex?
  rw [dif_neg (by omega)]

theorem roundKeyIndex?_le {d : Byte} (h : d.toNat ≤ 10) : ∃ j, roundKeyIndex? d = some j :=
  ⟨⟨d.toNat, by omega⟩, roundKeyIndex?_some rfl⟩

theorem counterIndex?_some {d : Byte} {j : Fin 7} (h : d.toNat = j.val) : counterIndex? d = some j := by
  unfold counterIndex?
  rw [dif_pos (by omega)]
  exact congrArg some (Fin.ext h)

theorem counterIndex?_none {d : Byte} (h : 6 < d.toNat) : counterIndex? d = none := by
  unfold counterIndex?
  rw [dif_neg (by omega)]

/-- Why a cell keeps a block from being full. -/
theorem blockFull_false {b : Block} {j : Fin 16} (h : b[j] = none) : blockFull b = false := by
  unfold blockFull
  simp only [decide_eq_false_iff_not, not_forall]
  exact ⟨j, by rw [h]; simp⟩

/-- Why a cell keeps a matrix from being full. -/
theorem matrixFull_false {m : Matrix} {r c : Fin 4} (h : m[r][c] = none) : matrixFull m = false := by
  unfold matrixFull
  simp only [decide_eq_false_iff_not, not_forall]
  exact ⟨r, c, by rw [h]; simp⟩

theorem toBlock_get (m : Matrix) (r c : Fin 4) : (toBlock m)[4 * c.val + r.val] = m[r][c] := by
  simp only [toBlock, Vector.getElem_ofFn, Fin.getElem_fin]
  congr 2 <;> omega

theorem malformed_of_decode {w : Word} (h : decode w = .error .unusedFieldNonzero) : Malformed w := by
  refine ⟨h, fun s hs => ?_⟩
  have hf : s.PHASE ≠ .fault := by rcases hs with h | h <;> simp [h]
  simp [runCommand, h, State.illegal, hf]

theorem formatZ_of_row {o : Byte} {i : Instr}
    (h : ∀ a b c, decodeFields o a b c = ifZero (a == 0 && b == 0 && c == 0) i) : FormatZ o i := by
  refine ⟨by simp [decode_wordOf, h, ifZero], fun a b c h' => malformed_of_decode ?_⟩
  simp only [decode_wordOf, h, ifZero_error, Bool.and_eq_false_iff, beq_eq_false_iff_ne, and_true]
  tauto

theorem formatA_of_row {o : Byte} {i : Byte → Instr}
    (h : ∀ a b c, decodeFields o a b c = ifZero (b == 0 && c == 0) (i a)) : FormatA o i := by
  refine ⟨by simp [decode_wordOf, h, ifZero], fun a b c h' => malformed_of_decode ?_⟩
  simp only [decode_wordOf, h, ifZero_error, Bool.and_eq_false_iff, beq_eq_false_iff_ne, and_true]
  tauto

theorem formatAB_of_row {o : Byte} {i : Byte → Byte → Instr}
    (h : ∀ a b c, decodeFields o a b c = ifZero (c == 0) (i a b)) : FormatAB o i := by
  refine ⟨by simp [decode_wordOf, h, ifZero], fun a b c h' => malformed_of_decode ?_⟩
  simpa only [decode_wordOf, h, ifZero_error, beq_eq_false_iff_ne, and_true] using h'

theorem formatAC_of_row {o : Byte} {i : Byte → Byte → Instr}
    (h : ∀ a b c, decodeFields o a b c = ifZero (b == 0) (i a c)) : FormatAC o i := by
  refine ⟨by simp [decode_wordOf, h, ifZero], fun a b c h' => malformed_of_decode ?_⟩
  simpa only [decode_wordOf, h, ifZero_error, beq_eq_false_iff_ne, and_true] using h'

theorem formatABC_of_row {o : Byte} {i : Byte → Byte → Byte → Instr}
    (h : ∀ a b c, decodeFields o a b c = .ok (i a b c)) : FormatABC o i := fun a b c => by
  rw [decode_wordOf, h]

end Sys2Proof.Machine
end

