-- ==== Sys2Proof/Laws/Step.lean ====
section
/-! SUPPORT. Everything a step can do, said once: what the data of a sequencer step are, the five things the sequencer's
turn can be, the program's positions, and which agent moves in a step. -/
namespace Sys2Proof.Machine

/-- The data that a sequencer step writes: the matrix, the matrix and the block, or the expanded key. -/
theorem workEffect_writes {w : Work} {s : State} {e : Effect} (h : workEffect w s = some e) :
    (w ≠ .arkStore ∧ w ≠ .expand ∧ ∃ m : Matrix, matrixFull m = true ∧ e.after = s.withS m) ∨
    (w = .arkStore ∧ ∃ m : Matrix, matrixFull m = true ∧ e.after = (s.withS m).withB (toBlock m)) ∨
    (w = .expand ∧ ∃ rk : Vector Block 11, (∀ n : Fin 11, blockFull rk[n] = true) ∧ e.after = s.withKey rk true) := by
  cases w <;> simp only [workEffect] at h
  case loadArk =>
    split at h <;> cases h
    exact .inl ⟨by simp, by simp, _, matrixFull_matrixOf _, rfl⟩
  case sub =>
    obtain ⟨m, -, rfl⟩ := Option.map_eq_some_iff.mp h
    exact .inl ⟨by simp, by simp, _, matrixFull_matrixOf _, rfl⟩
  case shr =>
    split at h <;> cases h
    rename_i hm
    exact .inl ⟨by simp, by simp, _, matrixFull_shiftRows hm, rfl⟩
  case mix =>
    obtain ⟨m, -, rfl⟩ := Option.map_eq_some_iff.mp h
    exact .inl ⟨by simp, by simp, _, matrixFull_matrixOf _, rfl⟩
  case ark =>
    split at h <;> cases h
    exact .inl ⟨by simp, by simp, _, matrixFull_matrixOf _, rfl⟩
  case arkStore =>
    split at h <;> cases h
    exact .inr (.inl ⟨rfl, _, matrixFull_matrixOf _, rfl⟩)
  case expand =>
    obtain ⟨k, -, rfl⟩ := Option.map_eq_some_iff.mp h
    obtain ⟨rk, hrk, -⟩ := expandEffect_after s k
    refine .inr (.inr ⟨rfl, _, fun n => ?_, hrk⟩)
    simp

/-- The state after a sequencer step that does not fail. -/
def State.afterWork (w : Work) (e : Effect) (p : Phase) (n : Round) (g : Stage) : State :=
  ((e.after.withCnt (countersPlus e.after.CNT w.cost)).moveTo p n g).tick

/-- Everything the sequencer's turn can do. -/
theorem sequencer_cases (s : State) :
    (s.busy = false ∧ sequencer s = .next s) ∨
    (s.busy = true ∧ program s.PHASE s.ROUND s.STAGE = none ∧ sequencer s = .fault .strayPosition) ∨
    ∃ (w : Work) (p : Phase) (n : Round) (g : Stage), s.busy = true ∧
      program s.PHASE s.ROUND s.STAGE = some (w, p, n, g) ∧
      ((workEffect w s = none ∧ sequencer s = .fault .emptyCell) ∨
        ∃ e : Effect, workEffect w s = some e ∧
          ((s.failsWithin w.lanes = true ∧ sequencer s = .next s.takeFault.tick) ∨
            (s.failsWithin w.lanes = false ∧ sequencer s = .next (State.afterWork w e p n g)))) := by
  unfold sequencer
  cases hb : s.busy
  · exact .inl ⟨rfl, by simp⟩
  · cases hp : program s.PHASE s.ROUND s.STAGE with
    | none => exact .inr (.inl ⟨rfl, rfl, by simp⟩)
    | some r =>
      obtain ⟨w, p, n, g⟩ := r
      refine .inr (.inr ⟨w, p, n, g, rfl, rfl, ?_⟩)
      cases he : workEffect w s with
      | none => exact .inl ⟨rfl, by simp [he]⟩
      | some e =>
        refine .inr ⟨e, rfl, ?_⟩
        have hc := workEffect_costs he
        cases hf : s.failsWithin w.lanes
        · exact .inr ⟨rfl, by simp [he, State.finishStep_costs_ok hc hf, State.afterWork]⟩
        · exact .inl ⟨rfl, by simp [he, State.finishStep_costs_fault hc hf]⟩

/-- The sequencer's step at a listed position, with the cells it reads there and no failure. -/
theorem sequencer_ok {s : State} {w : Work} {p : Phase} {n : Round} {g : Stage} {e : Effect} (hb : s.busy = true)
    (hp : program s.PHASE s.ROUND s.STAGE = some (w, p, n, g)) (he : workEffect w s = some e)
    (hf : s.failsWithin w.lanes = false) : sequencer s = .next (State.afterWork w e p n g) := by
  have hc := workEffect_costs he
  simp [sequencer, hb, hp, he, State.finishStep_costs_ok hc hf, State.afterWork]

/-- The sequencer's step at a listed position, with the cells it reads there and a failure. -/
theorem sequencer_fails {s : State} {w : Work} {p : Phase} {n : Round} {g : Stage} {e : Effect} (hb : s.busy = true)
    (hp : program s.PHASE s.ROUND s.STAGE = some (w, p, n, g)) (he : workEffect w s = some e)
    (hf : s.failsWithin w.lanes = true) : sequencer s = .next s.takeFault.tick := by
  have hc := workEffect_costs he
  simp [sequencer, hb, hp, he, State.finishStep_costs_fault hc hf]

/-- Acceptance, read from the phase and the opcode (R82). -/
theorem State.accepts_iff (s : State) (w : Word) :
    s.accepts w = true ↔ s.busy = false ∨ opcodeOf w = 0x01 ∨ opcodeOf w = 0x02 := by
  simp [State.accepts, isStatusRead]

/-- What holds of a row of the sequencer's program: it leads to a legal position one step nearer the end, loads the matrix
only at the start, stores only at the end, and expands the key only in phase `KEYX`. -/
def programRow (P : Phase) (R : Round) (G : Stage) : Option (Work × Phase × Round × Stage) → Bool
  | none => true
  | some (w, p, n, g) =>
    legalPosition p n g && decide (p ≠ .fault) && decide (p ≠ .keyx) && P.busy &&
      decide (stepsLeft p n g + 1 = stepsLeft P R G) &&
      decide (w = .loadArk ↔ P = .load) && decide (w = .expand ↔ P = .keyx) && decide (w = .arkStore ↔ p = .done) &&
      decide (w = .expand ↔ p = .idle) && decide (w ≠ .expand → P.inRun) &&
      decide ((w = .sub ∨ w = .mix ∨ w = .shr ∨ w = .ark ∨ w = .arkStore) → P.afterLoad) &&
      decide ((w = .loadArk → R = 0) ∧ (w = .ark ∨ w = .arkStore → R.toNat < 11) ∧ R.toNat < 11)

theorem program_rows (P : Phase) (G : Stage) : ∀ R : Round, programRow P R G (program P R G) = true := by
  cases P <;> cases G <;> decide +kernel

theorem program_row {P : Phase} {R : Round} {G : Stage} {w : Work} {p : Phase} {n : Round} {g : Stage}
    (h : program P R G = some (w, p, n, g)) : programRow P R G (some (w, p, n, g)) = true := by
  rw [← h]; exact program_rows P G R

/-- Which agent moves in a step, and from which state. -/
theorem step_cases (s : State) :
    (∃ es : List Event, s.script = .hardReset :: es ∧ step s = .next (hardReset (s.withScript es))) ∨
    (∃ w : Word, s.served = some w ∧ s.script.head? ≠ some .hardReset ∧ s.accepts w = true ∧
      ((s.cmd = some w ∧ step s = runCommand w s) ∨
        ∃ (din : Ct) (es : List Event), s.script = .present w din :: es ∧ s.cmd = none ∧
          step s = runCommand w ((s.withScript es).present w din))) ∨
    (s.served = none ∧ ∃ (w : Word) (din : Ct) (es : List Event), s.script = .present w din :: es ∧ s.cmd = none ∧
      s.accepts w = false ∧ step s = .next ((s.withScript es).present w din)) ∨
    (s.served = none ∧ s.script.head? ≠ some .hardReset ∧ step s = sequencer s.yieldTurn) := by
  have ha : ∀ (w : Word) (din : Ct) (es : List Event), ((s.withScript es).present w din).accepts w = s.accepts w :=
    fun _ _ _ => rfl
  rcases hs : s.script with _ | ⟨ev, es⟩
  · rcases hc : s.cmd with _ | w
    · exact .inr (.inr (.inr ⟨by simp [State.served, hs, hc], by simp, by simp [step, hs, hc, State.yieldTurn]⟩))
    · cases h : s.accepts w
      · exact .inr (.inr (.inr ⟨by simp [State.served, hs, hc, h], by simp, by simp [step, hs, hc, h]⟩))
      · exact .inr (.inl ⟨w, by simp [State.served, hs, hc, h], by simp, h, .inl ⟨rfl, by simp [step, hs, hc, h]⟩⟩)
  · cases ev with
    | hardReset => exact .inl ⟨es, rfl, by simp [step, hs]⟩
    | present w din =>
      rcases hc : s.cmd with _ | w'
      · cases h : s.accepts w
        · exact .inr (.inr (.inl ⟨by simp [State.served, hs, hc, h], w, din, es, rfl, rfl, h, by
            simp [step, hs, hc, ha, h]⟩))
        · exact .inr (.inl ⟨w, by simp [State.served, hs, hc, h], by simp, h, .inr ⟨din, es, rfl, rfl, by
            simp [step, hs, hc, ha, h]⟩⟩)
      · cases h : s.accepts w'
        · exact .inr (.inr (.inr ⟨by simp [State.served, hs, hc, h], by simp, by simp [step, hs, hc, h]⟩))
        · exact .inr (.inl ⟨w', by simp [State.served, hs, hc, h], by simp, h, .inl ⟨rfl, by simp [step, hs, hc, h]⟩⟩)
    | sequencer =>
      rcases hc : s.cmd with _ | w'
      · exact .inr (.inr (.inr ⟨by simp [State.served, hs, hc], by simp, by simp [step, hs, hc, State.yieldTurn]⟩))
      · cases h : s.accepts w'
        · exact .inr (.inr (.inr ⟨by simp [State.served, hs, hc, h], by simp, by simp [step, hs, hc, h]⟩))
        · exact .inr (.inl ⟨w', by simp [State.served, hs, hc, h], by simp, h, .inl ⟨rfl, by simp [step, hs, hc, h]⟩⟩)

/-- A run whose first step answers a next state goes on from there. -/
theorem run_next {s t : State} (h : step s = .next t) (n : Nat) :
    Host.Core.run core (n + 1) s = Host.Core.run core n t := by
  have h' : core.step s = .next t := h
  refine (Host.Core.run.eq_2 core s n).trans ?_
  rw [h']

end Sys2Proof.Machine
end

