-- ==== Sys2Proof/Laws/Exec.lean ====
section
/-! SUPPORT. Everything a command can do to the state, said once for all commands: `Did s t`. -/
namespace Sys2Proof.Machine

/-- What the command `i`, executed in state `s`, can leave. -/
inductive Did (i : Instr) (s : State) : State → Prop
  /-- The transaction waits (R82). -/
  | waits (h : s.busy = true) : Did i s s
  /-- It is answered `OK` and nothing else happens. -/
  | answers (hz : cost i = fun _ => 0) (data : Word) (dout : Option Ct) : Did i s (s.answer .ok data dout)
  /-- It is answered `FAULTED` (R180). -/
  | faulted (h : s.PHASE = .fault) (h1 : i ≠ .srst) : Did i s (s.answer .faulted 0 none)
  /-- It is rejected (R171). -/
  | rejects (code : Status) (h : code ≠ .ok) (h' : code ≠ .faulted) (h'' : code ≠ .primFail) : Did i s (s.reject code)
  /-- A primitive fails (R177). -/
  | fails (h : s.ready) : Did i s (s.takeFault.answer .primFail 0 none)
  /-- One cell of `B`, and what the counters gain. -/
  | cell (h : s.ready) (d : Fin 16) (x : Ct) : Did i s ((s.setB d x).withCnt (countersPlus s.CNT (cost i))).accept
  /-- All of `B`. -/
  | block (h : s.ready) (hz : cost i = fun _ => 0) (b : Block) (hb : blockFull b = true) : Did i s (s.withB b).accept
  /-- All of `S`, and what the counters gain. -/
  | matrix (h : s.ready) (m : Matrix) (hm : matrixFull m = true) :
      Did i s ((s.withS m).withCnt (countersPlus s.CNT (cost i))).accept
  /-- The counters are zeroed (R163). -/
  | clears (hi : i = .clrcnt) (h : s.ready) : Did i s (s.withCnt (Vector.replicate 7 0)).accept
  /-- The reset state (R164). -/
  | resets (hi : i = .srst) (h : s.busy = false) : Did i s s.toReset.accept
  /-- `KEYEXP` is accepted (R135). -/
  | startsKeyx (hi : i = .keyexp) (h : s.ready) (hb : blockFull s.B = true) :
      Did i s ((s.withKey (Vector.replicate 11 emptyBlock) false).moveTo .keyx 0 .sub).accept
  /-- `ENCBLK` is accepted (R145). -/
  | startsRun (hi : i = .encblk) (h : s.ready) (hb : blockFull s.B = true) (hk : s.KEYV = true) :
      Did i s (s.moveTo .load 0 .ark).accept

/-- Adding nothing to the counters. -/
theorem State.withCnt_none (s : State) : s.withCnt (countersPlus s.CNT fun _ => 0) = s := by
  rw [countersPlus_zero]; rfl

/-- A command behind the gate. -/
theorem did_gate {i : Instr} {s : State} {body : State → Out} (hi : i ≠ .srst)
    (h : s.ready → ∃ t, body s = .next t ∧ Did i s t) : ∃ t, s.gate body = .next t ∧ Did i s t := by
  rcases State.gate_cases s body with ⟨hb, he⟩ | ⟨hf, he⟩ | ⟨hr, he⟩
  · exact ⟨s, he, .waits hb⟩
  · exact ⟨_, he, .faulted hf hi⟩
  · obtain ⟨t, ht, hd⟩ := h hr
    exact ⟨t, he.trans ht, hd⟩

theorem did_reject {i : Instr} {s : State} (code : Status) (h : code ≠ .ok := by decide)
    (h' : code ≠ .faulted := by decide) (h'' : code ≠ .primFail := by decide) :
    ∃ t, (Host.Outcome.next (s.reject code) : Out) = .next t ∧ Did i s t := ⟨_, rfl, .rejects code h h' h''⟩

/-- A cell is written and no primitive issued. -/
theorem did_cell {i : Instr} {s : State} (hr : s.ready) (hz : cost i = fun _ => 0) (d : Fin 16) (x : Ct) :
    Did i s (s.setB d x).accept := by
  have h := Did.cell (i := i) hr d x
  rwa [hz, show s.CNT = (s.setB d x).CNT from rfl, State.withCnt_none] at h

/-- The matrix is written and no primitive issued. -/
theorem did_matrix {i : Instr} {s : State} (hr : s.ready) (hz : cost i = fun _ => 0) (m : Matrix)
    (hm : matrixFull m = true) : Did i s (s.withS m).accept := by
  have h := Did.matrix (i := i) hr m hm
  rwa [hz, show s.CNT = (s.withS m).CNT from rfl, State.withCnt_none] at h

/-- A command that issues primitives: the fault, or its data with the counters. -/
theorem did_finish {i : Instr} {s : State} {e : Effect} {len : Nat → Nat} (hr : s.ready) (hc : e.Costs len (cost i))
    (h : Did i s (e.after.withCnt (countersPlus e.after.CNT (cost i))).accept) :
    ∃ t, (Host.Outcome.next (s.finishCommand e) : Out) = .next t ∧ Did i s t := by
  cases hf : s.failsWithin len
  · exact ⟨_, congrArg _ (State.finishCommand_costs_ok hc hf), h⟩
  · exact ⟨_, congrArg _ (State.finishCommand_costs_fault hc hf), .fails hr⟩

/-- Every command answers a next state, and leaves one of the states that `Did` lists. -/
theorem exec_did (i : Instr) (s : State) : ∃ t, exec i s = .next t ∧ Did i s t := by
  cases i
  case nop =>
    simp only [exec, execNop]
    exact did_gate (by simp) fun _ => ⟨s.accept, rfl, .answers rfl _ _⟩
  case rdsr => exact ⟨_, rfl, .answers rfl _ _⟩
  case rdcnt k =>
    simp only [exec, execRdcnt]
    split
    · exact did_reject _
    · exact ⟨_, rfl, .answers rfl _ _⟩
  case clrcnt =>
    simp only [exec, execClrcnt]
    exact did_gate (by simp) fun hr => ⟨_, rfl, .clears rfl hr⟩
  case srst =>
    simp only [exec, execSrst]
    cases h : s.busy
    · exact ⟨_, rfl, .resets rfl h⟩
    · exact ⟨_, rfl, .waits h⟩
  case put d =>
    simp only [exec, execPut]
    refine did_gate (by simp) fun hr => ?_
    split
    · exact did_reject _
    · exact ⟨_, rfl, did_cell hr rfl _ _⟩
  case get j =>
    simp only [exec, execGet]
    refine did_gate (by simp) fun hr => ?_
    split
    · exact did_reject _
    · split
      · exact did_reject _
      · exact ⟨_, rfl, .answers rfl _ _⟩
  case encc d imm =>
    simp only [exec, execEncc]
    refine did_gate (by simp) fun hr => ?_
    split
    · exact did_reject _
    · exact did_finish hr (enccEffect_costs _ _ _) (.cell hr _ _)
  case mov d j =>
    simp only [exec, execMov]
    refine did_gate (by simp) fun hr => ?_
    split
    · split
      · exact did_reject _
      · exact ⟨_, rfl, did_cell hr rfl _ _⟩
    · exact did_reject _
  case xorb d a b =>
    simp only [exec, execXorb]
    refine did_gate (by simp) fun hr => ?_
    split
    · split
      · exact did_finish hr (xorbEffect_costs _ _ _ _) (.cell hr _ _)
      · exact did_reject _
    · exact did_reject _
  case sbox d j =>
    simp only [exec, execSbox]
    refine did_gate (by simp) fun hr => ?_
    split
    · split
      · exact did_reject _
      · exact did_finish hr (sboxEffect_costs _ _ _) (.cell hr _ _)
    · exact did_reject _
  case gmul d j k =>
    simp only [exec, execGmul]
    refine did_gate (by simp) fun hr => ?_
    split
    · split
      · exact did_reject _
      · exact did_finish hr (gmulEffect_costs _ _ _ _) (.cell hr _ _)
    · exact did_reject _
  case ldst =>
    simp only [exec, execLdst]
    refine did_gate (by simp) fun hr => ?_
    split
    · exact ⟨_, rfl, did_matrix hr rfl _ (matrixFull_fromBlock ‹_›)⟩
    · exact did_reject _
  case stst =>
    simp only [exec, execStst]
    refine did_gate (by simp) fun hr => ?_
    split
    · exact ⟨_, rfl, .block hr rfl _ (blockFull_toBlock ‹_›)⟩
    · exact did_reject _
  case subb =>
    simp only [exec, execSubb]
    refine did_gate (by simp) fun hr => ?_
    split
    · exact did_reject _
    · exact did_finish hr (subEffect_costs _ _) (.matrix hr _ (matrixFull_matrixOf _))
  case shrow =>
    simp only [exec, execShrow]
    refine did_gate (by simp) fun hr => ?_
    split
    · exact ⟨_, rfl, did_matrix hr rfl _ (matrixFull_shiftRows ‹_›)⟩
    · exact did_reject _
  case mixc =>
    simp only [exec, execMixc]
    refine did_gate (by simp) fun hr => ?_
    split
    · exact did_reject _
    · exact did_finish hr (mixEffect_costs _ _) (.matrix hr _ (matrixFull_matrixOf _))
  case ark n =>
    simp only [exec, execArk]
    refine did_gate (by simp) fun hr => ?_
    split
    · exact did_reject _
    · split
      · exact did_reject _
      · split
        · exact did_reject _
        · exact did_finish hr (arkEffect_costs _ _ _) (.matrix hr _ (matrixFull_matrixOf _))
  case rdrk n =>
    simp only [exec, execRdrk]
    refine did_gate (by simp) fun hr => ?_
    split
    · exact did_reject _
    · split
      · exact did_reject _
      · exact ⟨_, rfl, .block hr rfl _ (blockFull_blockOf _)⟩
  case keyexp =>
    simp only [exec, execKeyexp]
    refine did_gate (by simp) fun hr => ?_
    split
    · exact ⟨_, rfl, .startsKeyx rfl hr ‹_›⟩
    · exact did_reject _
  case encblk =>
    simp only [exec, execEncblk]
    refine did_gate (by simp) fun hr => ?_
    split
    · split
      · exact ⟨_, rfl, .startsRun rfl hr ‹_› ‹_›⟩
      · exact did_reject _
    · exact did_reject _

/-- Every command but `RDSR`, `RDCNT` and `SRST` stands behind the gate. -/
theorem exec_gated {i : Instr} (h1 : i ≠ .rdsr) (h2 : i ≠ .srst) (h3 : ∀ k : Byte, i ≠ .rdcnt k) :
    ∃ body : State → Out, ∀ s : State, exec i s = s.gate body := by
  cases i
  case rdsr => exact absurd rfl h1
  case srst => exact absurd rfl h2
  case rdcnt k => exact absurd rfl (h3 k)
  all_goals exact ⟨_, fun _ => rfl⟩

/-- An accepted word: the command it decodes to, or a rejection. -/
theorem runCommand_cases (w : Word) (s : State) :
    (∃ i : Instr, decode w = .ok i ∧ runCommand w s = exec i s) ∨
    (∃ e : DecodeError, decode w = .error e ∧
      ((s.PHASE = .fault ∧ runCommand w s = .next (s.answer .faulted 0 none)) ∨
        runCommand w s = .next (s.reject .illegalCmd))) := by
  unfold runCommand
  cases h : decode w with
  | ok i => exact .inl ⟨i, rfl, rfl⟩
  | error e =>
    refine .inr ⟨e, rfl, ?_⟩
    dsimp only
    unfold State.illegal
    split
    · rename_i hf
      simp only [Bool.and_eq_true, decide_eq_true_eq] at hf
      exact .inl ⟨hf.1, rfl⟩
    · exact .inr rfl

end Sys2Proof.Machine
end

