-- ==== Sys2Proof/Laws/PerInstr.lean ====
section
/-! SUPPORT. The family `OpcodeRow`: the word of a command lies in its own row of the opcode map and in no other
(spec/30_encoding.md R85), one lemma for each command. -/
namespace Sys2Proof.Laws.OpcodeRow

set_option Elab.async false

/-- The word of `i` matches a row of the opcode map iff the row bears the mnemonic of `i`. -/
def Statement (i : Instr) : Prop :=
  ∀ row ∈ opcodeMap, (encode i &&& row.mask = row.bits ↔ row.mnemonic = i.mnemonic)

/-- A word in a row, field by field. -/
theorem row_iff (o a b c : Byte) (m v : Word) :
    wordOf o a b c &&& m = v ↔
      o &&& opcodeOf m = opcodeOf v ∧ a &&& fieldA m = fieldA v ∧ b &&& fieldB m = fieldB v ∧
        c &&& fieldC m = fieldC v := by
  conv => lhs; rw [← wordOf_fields m, ← wordOf_fields v, wordOf_and, wordOf_inj]

/-- What a row's mask and match must be in a field that is an operand (`used`) or must be zero. -/
def fieldShape (used : Bool) (mask bits : Byte) : Bool := bits == 0 && mask == if used then 0 else 0xFF

theorem fieldShape_and {used : Bool} {mask bits a : Byte} (h : fieldShape used mask bits = true)
    (ha : used = false → a = 0) : a &&& mask = bits := by
  cases used <;> simp_all [fieldShape]

/-- The row with opcode `o` is the one with mnemonic `m`, and its operands are the given fields. -/
def rowShape (o : Byte) (m : String) (ua ub uc : Bool) (row : OpcodeRow) : Bool :=
  opcodeOf row.mask == 0xFF && (decide (o = opcodeOf row.bits) == decide (row.mnemonic = m)) &&
  (decide (o ≠ opcodeOf row.bits) ||
    fieldShape ua (fieldA row.mask) (fieldA row.bits) && fieldShape ub (fieldB row.mask) (fieldB row.bits) &&
      fieldShape uc (fieldC row.mask) (fieldC row.bits))

theorem of_rowShape {i : Instr} (o a b c : Byte) (ua ub uc : Bool) (m : String) (he : encode i = wordOf o a b c)
    (hm : i.mnemonic = m) (ha : ua = false → a = 0) (hb : ub = false → b = 0) (hc : uc = false → c = 0)
    (h : ∀ row ∈ opcodeMap, rowShape o m ua ub uc row = true) : Statement i := by
  intro row hrow
  have hs := h row hrow
  simp only [rowShape, Bool.and_eq_true, beq_iff_eq, Bool.or_eq_true, decide_eq_true_eq, decide_eq_decide] at hs
  obtain ⟨⟨hmask, hname⟩, hfields⟩ := hs
  rw [he, hm, row_iff, hmask, ← hname, show (255 : Byte) = 0xFF#8 from rfl, and_ones]
  refine ⟨fun h => h.1, fun ho => ⟨ho, ?_⟩⟩
  obtain ⟨⟨fa, fb⟩, fc⟩ := hfields.resolve_left fun hne => hne ho
  exact ⟨fieldShape_and fa ha, fieldShape_and fb hb, fieldShape_and fc hc⟩

theorem nop : Statement (.nop) :=
  of_rowShape 0x00 0 0 0 false false false "NOP" rfl rfl (fun _ => rfl) (fun _ => rfl) (fun _ => rfl) (by decide +kernel)

theorem rdsr : Statement (.rdsr) :=
  of_rowShape 0x01 0 0 0 false false false "RDSR" rfl rfl (fun _ => rfl) (fun _ => rfl) (fun _ => rfl) (by decide +kernel)

theorem rdcnt (k : Byte) : Statement (.rdcnt k) :=
  of_rowShape 0x02 k 0 0 true false false "RDCNT" rfl rfl (fun h => nomatch h) (fun _ => rfl) (fun _ => rfl) (by decide +kernel)

theorem clrcnt : Statement (.clrcnt) :=
  of_rowShape 0x03 0 0 0 false false false "CLRCNT" rfl rfl (fun _ => rfl) (fun _ => rfl) (fun _ => rfl) (by decide +kernel)

theorem srst : Statement (.srst) :=
  of_rowShape 0x04 0 0 0 false false false "SRST" rfl rfl (fun _ => rfl) (fun _ => rfl) (fun _ => rfl) (by decide +kernel)

theorem put (d : Byte) : Statement (.put d) :=
  of_rowShape 0x10 d 0 0 true false false "PUT" rfl rfl (fun h => nomatch h) (fun _ => rfl) (fun _ => rfl) (by decide +kernel)

theorem get (j : Byte) : Statement (.get j) :=
  of_rowShape 0x11 j 0 0 true false false "GET" rfl rfl (fun h => nomatch h) (fun _ => rfl) (fun _ => rfl) (by decide +kernel)

theorem encc (d imm : Byte) : Statement (.encc d imm) :=
  of_rowShape 0x12 d 0 imm true false true "ENCC" rfl rfl (fun h => nomatch h) (fun _ => rfl) (fun h => nomatch h) (by decide +kernel)

theorem mov (d j : Byte) : Statement (.mov d j) :=
  of_rowShape 0x13 d j 0 true true false "MOV" rfl rfl (fun h => nomatch h) (fun h => nomatch h) (fun _ => rfl) (by decide +kernel)

theorem xorb (d a b : Byte) : Statement (.xorb d a b) :=
  of_rowShape 0x20 d a b true true true "XORB" rfl rfl (fun h => nomatch h) (fun h => nomatch h) (fun h => nomatch h) (by decide +kernel)

theorem sbox (d j : Byte) : Statement (.sbox d j) :=
  of_rowShape 0x21 d j 0 true true false "SBOX" rfl rfl (fun h => nomatch h) (fun h => nomatch h) (fun _ => rfl) (by decide +kernel)

theorem gmul (d j k : Byte) : Statement (.gmul d j k) :=
  of_rowShape 0x22 d j k true true true "GMUL" rfl rfl (fun h => nomatch h) (fun h => nomatch h) (fun h => nomatch h) (by decide +kernel)

theorem ldst : Statement (.ldst) :=
  of_rowShape 0x30 0 0 0 false false false "LDST" rfl rfl (fun _ => rfl) (fun _ => rfl) (fun _ => rfl) (by decide +kernel)

theorem stst : Statement (.stst) :=
  of_rowShape 0x31 0 0 0 false false false "STST" rfl rfl (fun _ => rfl) (fun _ => rfl) (fun _ => rfl) (by decide +kernel)

theorem subb : Statement (.subb) :=
  of_rowShape 0x32 0 0 0 false false false "SUBB" rfl rfl (fun _ => rfl) (fun _ => rfl) (fun _ => rfl) (by decide +kernel)

theorem shrow : Statement (.shrow) :=
  of_rowShape 0x33 0 0 0 false false false "SHROW" rfl rfl (fun _ => rfl) (fun _ => rfl) (fun _ => rfl) (by decide +kernel)

theorem mixc : Statement (.mixc) :=
  of_rowShape 0x34 0 0 0 false false false "MIXC" rfl rfl (fun _ => rfl) (fun _ => rfl) (fun _ => rfl) (by decide +kernel)

theorem ark (n : Byte) : Statement (.ark n) :=
  of_rowShape 0x35 n 0 0 true false false "ARK" rfl rfl (fun h => nomatch h) (fun _ => rfl) (fun _ => rfl) (by decide +kernel)

theorem rdrk (n : Byte) : Statement (.rdrk n) :=
  of_rowShape 0x36 n 0 0 true false false "RDRK" rfl rfl (fun h => nomatch h) (fun _ => rfl) (fun _ => rfl) (by decide +kernel)

theorem keyexp : Statement (.keyexp) :=
  of_rowShape 0x40 0 0 0 false false false "KEYEXP" rfl rfl (fun _ => rfl) (fun _ => rfl) (fun _ => rfl) (by decide +kernel)

theorem encblk : Statement (.encblk) :=
  of_rowShape 0x41 0 0 0 false false false "ENCBLK" rfl rfl (fun _ => rfl) (fun _ => rfl) (fun _ => rfl) (by decide +kernel)

end Sys2Proof.Laws.OpcodeRow
end

