-- ==== Sys2Proof/Tests/Slice0.lean ====
section
/-! SUPPORT. Tests. Expected values come from the spec's encodings, examples and vectors (named at each group), never
from the model. After them, one witness for the hypotheses of each statement of Certificates/Slice0/Obligations.lean. -/
namespace Sys2Proof.Tests

open Sys2Proof Sys2Proof.Machine

set_option Elab.async false

/-! Well-formedness (30_encoding R86): an ill-formed command for each check -/

theorem test_wf_refuses_buffer_index : Instr.wf (.put 16) = false ∧ Instr.wf (.put 15) = true := by decide
theorem test_wf_refuses_buffer_source : Instr.wf (.xorb 0 0 16) = false ∧ Instr.wf (.xorb 15 15 15) = true := by decide
theorem test_wf_refuses_round_key_index : Instr.wf (.ark 11) = false ∧ Instr.wf (.ark 10) = true := by decide
theorem test_wf_refuses_counter_index : Instr.wf (.rdcnt 7) = false ∧ Instr.wf (.rdcnt 6) = true := by decide
theorem test_wf_takes_every_immediate : Instr.wf (.encc 0 255) = true ∧ Instr.wf (.gmul 0 0 255) = true := by decide

/-! Decoding: a word written out from the spec's encoding of each command (30_encoding R85, the encoding line of each
command's rule; `OPC A Bf C`, each 8 bits) -/

theorem test_decode_nop : decode 0b00000000_00000000_00000000_00000000 = .ok .nop := by decide
theorem test_decode_rdsr : decode 0b00000001_00000000_00000000_00000000 = .ok .rdsr := by decide
theorem test_decode_rdcnt : decode 0b00000010_00000110_00000000_00000000 = .ok (.rdcnt 6) := by decide
theorem test_decode_clrcnt : decode 0b00000011_00000000_00000000_00000000 = .ok .clrcnt := by decide
theorem test_decode_srst : decode 0b00000100_00000000_00000000_00000000 = .ok .srst := by decide
theorem test_decode_put : decode 0b00010000_00000011_00000000_00000000 = .ok (.put 3) := by decide
theorem test_decode_get : decode 0b00010001_00000011_00000000_00000000 = .ok (.get 3) := by decide
theorem test_decode_encc : decode 0b00010010_00000000_00000000_01010011 = .ok (.encc 0 0x53) := by decide
theorem test_decode_mov : decode 0b00010011_00000101_00000011_00000000 = .ok (.mov 5 3) := by decide
theorem test_decode_xorb : decode 0b00100000_00000010_00000000_00000001 = .ok (.xorb 2 0 1) := by decide
theorem test_decode_sbox : decode 0b00100001_00000001_00000000_00000000 = .ok (.sbox 1 0) := by decide
theorem test_decode_gmul : decode 0b00100010_00000001_00000000_00000010 = .ok (.gmul 1 0 2) := by decide
theorem test_decode_ldst : decode 0b00110000_00000000_00000000_00000000 = .ok .ldst := by decide
theorem test_decode_stst : decode 0b00110001_00000000_00000000_00000000 = .ok .stst := by decide
theorem test_decode_subb : decode 0b00110010_00000000_00000000_00000000 = .ok .subb := by decide
theorem test_decode_shrow : decode 0b00110011_00000000_00000000_00000000 = .ok .shrow := by decide
theorem test_decode_mixc : decode 0b00110100_00000000_00000000_00000000 = .ok .mixc := by decide
theorem test_decode_ark : decode 0b00110101_00000011_00000000_00000000 = .ok (.ark 3) := by decide
theorem test_decode_rdrk : decode 0b00110110_00001010_00000000_00000000 = .ok (.rdrk 10) := by decide
theorem test_decode_keyexp : decode 0b01000000_00000000_00000000_00000000 = .ok .keyexp := by decide
theorem test_decode_encblk : decode 0b01000001_00000000_00000000_00000000 = .ok .encblk := by decide

/-- 95_test_vectors P5 lines 4, 7, 15 and 16, and section 2.8 lines 4 and 15. -/
theorem test_decode_illegal : decode 0x00000001 = .error .unusedFieldNonzero ∧
    decode 0x50000000 = .error .reservedOpcode ∧ decode 0x12000100 = .error .unusedFieldNonzero ∧
    decode 0x13010001 = .error .unusedFieldNonzero ∧ decode 0x01000100 = .error .unusedFieldNonzero ∧
    decode 0x04000001 = .error .unusedFieldNonzero := by decide

/-- 30_encoding R89. -/
theorem test_text : Instr.text (.gmul 1 0 2) = "GMUL 1, 0, 2" ∧ Instr.text .nop = "NOP" := by decide +kernel

/-- 30_encoding R90: the lengths that 44_round_pipeline R156 adds up to 42. -/
theorem test_pseudo : pseudoXtime 1 0 = [.gmul 1 0 2] ∧ pseudoAddb 2 0 1 = [.xorb 2 0 1] ∧ pseudoClrb 3 = [.encc 3 0] ∧
    stageCommands.length = 42 := by decide

/-! Small states -/

/-- An Encrypted Byte of hidden value `v`. -/
def ct (v : Nat) : Ct := encrypt (BitVec.ofNat 8 v) (1000 + v)

/-- A block with the given hidden values. -/
def blockOfBytes (bs : List Nat) : Block := blockOf fun j => ct (bs.getD j.val 0)

/-- A matrix from a block image with the given hidden values. -/
def matrixOfBytes (bs : List Nat) : Matrix := matrixOf fun r c => ct (bs.getD (4 * c.val + r.val) 0)

/-- An expanded key: byte `j` of round key `n` has hidden value `16n + j`. -/
def someKey : Vector Block 11 := Vector.ofFn fun n => blockOf fun j => ct (16 * n.val + j.val)

/-- Idle, everything loaded: `B[j]` has hidden value `j`, `S[r][c]` hidden value `4r + c`. -/
def loaded : State :=
  { State.reset with
    B := blockOf fun j => ct j.val
    S := matrixOf fun r c => ct (4 * r.val + c.val)
    RK := someKey
    KEYV := true }

/-- After a completed run. -/
def done : State := { loaded with PHASE := .done, ROUND := 10, STAGE := .ark }

/-- A position of a run. -/
def running (p : Phase) (n : Round) (st : Stage) : State := { loaded with PHASE := p, ROUND := n, STAGE := st }

/-- The key is being expanded. -/
def expanding : State := { loaded with RK := State.reset.RK, KEYV := false, PHASE := .keyx }

/-- In phase `FAULT`, after a failure in the MixColumns step of round 3. -/
def faulted : State := { State.reset with ERR := .primFail, PHASE := .fault, ROUND := 3, STAGE := .mix }

/-- The same state in a world where the scheme fails the first invocation of every lane of the next step. -/
def failing (s : State) : State := { s with failures := (List.range 176).map fun l => ⟨s.stepNo, l, 0⟩ }

/-- The state that an outcome gives. -/
def after (o : Out) : State :=
  match o with
  | .next t => t
  | .fault _ => State.reset
  | .refused _ => State.reset

/-- The answer that an outcome gives, with the hidden value of `dout`. -/
def answerOf (o : Out) : Option (Status × Word × Option Byte) :=
  match o with
  | .next t => t.resp.map fun r => (r.status, r.data, r.dout.map Ct.hidden)
  | .fault _ => none
  | .refused _ => none

/-- The hidden values of `S` as a block image. -/
def image (s : State) : List (Option Byte) := (toBlock s.S).toList.map hidden?

/-! The status register: words given in 45_control R161, R164 and 95_test_vectors section 2.5 -/

theorem test_sr_done : done.srWord = 0x0003A502 := by decide
theorem test_sr_keyx : expanding.srWord = 0x00000601 := by decide
theorem test_sr_load : (running .load 0 .ark).srWord = 0x00030103 := by decide
theorem test_sr_fault : faulted.srWord = 0x00023760 := by decide
theorem test_outputs : done.doneO = true ∧ done.faultO = false ∧ faulted.doneO = false ∧ faulted.faultO = true := by
  decide

/-! One command each, from the example of its rule -/

theorem test_nop : answerOf (exec .nop State.reset) = some (.ok, 0, none) := by decide
theorem test_rdsr : answerOf (exec .rdsr faulted) = some (.ok, 0x00023760, none) := by decide
theorem test_rdsr_busy : answerOf (exec .rdsr expanding) = some (.ok, 0x00000601, none) := by decide
theorem test_rdcnt : answerOf (exec (.rdcnt 1) (loaded.withCnt #v[10, 11, 12, 13, 14, 15, 16])) = some (.ok, 11, none) := by
  decide
theorem test_rdcnt_bad : answerOf (exec (.rdcnt 7) State.reset) = some (.badIndex, 0, none) ∧
    (after (exec (.rdcnt 7) State.reset)).ERR = .badIndex := by decide
theorem test_clrcnt : (after (exec .clrcnt (loaded.withCnt #v[10, 11, 12, 13, 14, 15, 16]))).CNT = Vector.replicate 7 0 := by
  decide
theorem test_srst_leaves_fault : (after (exec .srst faulted)).srWord = 0 ∧
    answerOf (exec .srst faulted) = some (.ok, 0, none) := by decide
theorem test_srst_waits : (after (exec .srst expanding)).srWord = 0x00000601 := by decide

/-- 40_state_matrix R100: `PUT 3 <- enc(0x33)`. -/
theorem test_put : hidden? (after (exec (.put 3) { State.reset with din := ct 0x33 })).B[3] = some 0x33 := by decide
theorem test_put_bad : answerOf (exec (.put 16) State.reset) = some (.badIndex, 0, none) := by decide
/-- R101: `GET 3` then returns it. -/
theorem test_get : answerOf (exec (.get 3) (State.reset.setB 3 (ct 0x33))) = some (.ok, 0, some 0x33) := by decide
theorem test_get_unwritten : answerOf (exec (.get 0) State.reset) = some (.unwritten, 0, none) := by decide
/-- R102: `ENCC 0, 0x53`; no counter moves. -/
theorem test_encc : hidden? (after (exec (.encc 0 0x53) State.reset)).B[0] = some 0x53 ∧
    (after (exec (.encc 0 0x53) State.reset)).CNT = State.reset.CNT := by decide
/-- R103: the ciphertext itself is copied. -/
theorem test_mov : (after (exec (.mov 5 3) loaded)).B[5] = some (ct 3) := by decide
/-- R104: with `val(B[j]) = j`, `val(S[1][2]) = 9`. -/
theorem test_ldst : hidden? (after (exec .ldst loaded)).S[1][2] = some 9 := by decide
theorem test_ldst_bad_size : answerOf (exec .ldst State.reset) = some (.badSize, 0, none) := by decide
/-- R105: with `val(S[r][c]) = 4r + c`, `val(B[1]) = 4` and `val(B[4]) = 1`. -/
theorem test_stst : hidden? (after (exec .stst loaded)).B[1] = some 4 ∧
    hidden? (after (exec .stst loaded)).B[4] = some 1 := by decide
/-- 42_linear R120: `57 XOR 83 = d4`, one `ADD`. -/
theorem test_xorb : hidden? (after (exec (.xorb 2 0 1) ((loaded.setB 0 (ct 0x57)).setB 1 (ct 0x83)))).B[2] = some 0xd4 ∧
    (after (exec (.xorb 2 0 1) loaded)).CNT = #v[0, 0, 1, 0, 0, 0, 0] := by decide
theorem test_xorb_bad : answerOf (exec (.xorb 16 0 0) State.reset) = some (.badIndex, 0, none) := by decide
/-- 41_substitution R111: `SBOX[53] = ed`. -/
theorem test_sbox : hidden? (after (exec (.sbox 1 0) (loaded.setB 0 (ct 0x53)))).B[1] = some 0xed := by decide +kernel
/-- 95_test_vectors section 2.8 line 17: `CNT[0]` wraps. -/
theorem test_sbox_counts : (after (exec (.sbox 1 0) (loaded.withCnt #v[0xFFFFFF00, 0, 0, 0, 0, 0, 0]))).CNT =
    #v[0, 256, 0, 0, 0, 0, 0] := by decide +kernel
/-- 42_linear R122: `57 * 13 = fe`, eleven `ADD`. -/
theorem test_gmul : hidden? (after (exec (.gmul 1 0 0x13) (loaded.setB 0 (ct 0x57)))).B[1] = some 0xfe ∧
    (after (exec (.gmul 1 0 0x13) loaded)).CNT = #v[0, 0, 11, 8, 8, 8, 8] := by decide +kernel
/-- 41_substitution R112: byte 2 of the image, `20`, becomes `b7`; position `(2, 0)`. -/
theorem test_subb : hidden? (after (exec .subb (loaded.withS (matrixOfBytes [0x00, 0x10, 0x20])))).S[2][0] = some 0xb7 := by
  decide +kernel
/-- 42_linear R123. -/
theorem test_shrow : image (after (exec .shrow (loaded.withS (matrixOfBytes
    [0x63, 0xca, 0xb7, 0x04, 0x09, 0x53, 0xd0, 0x51, 0xcd, 0x60, 0xe0, 0xe7, 0xba, 0x70, 0xe1, 0x8c])))) =
    ([0x63, 0x53, 0xe0, 0x8c, 0x09, 0x60, 0xe1, 0x04, 0xcd, 0x70, 0xb7, 0x51, 0xba, 0xca, 0xd0, 0xe7] :
      List Byte).map some := by decide +kernel
/-- 42_linear R124: column `(d4, bf, 5d, 30)` becomes `(04, 66, 81, e5)`. -/
theorem test_mixc : (image (after (exec .mixc (loaded.withS (matrixOfBytes [0xd4, 0xbf, 0x5d, 0x30]))))).take 4 =
    [some 0x04, some 0x66, some 0x81, some 0xe5] := by decide +kernel
/-- 42_linear R125: position `(1, 2)` is combined with byte 6 of the round key; 6 XOR 38 = 20 hexadecimal. -/
theorem test_ark : hidden? (after (exec (.ark 2) loaded)).S[1][2] = some (6 ^^^ 38) ∧
    (after (exec (.ark 2) loaded)).CNT = #v[0, 0, 16, 0, 0, 0, 0] := by decide +kernel
/-- 60_exceptions R181: `ARK 11` with no key, `ARK 3` with no key and an empty `S`. -/
theorem test_ark_priority : answerOf (exec (.ark 11) State.reset) = some (.badIndex, 0, none) ∧
    answerOf (exec (.ark 3) State.reset) = some (.noKey, 0, none) := by decide
/-- 43_key_schedule R137: index for index. -/
theorem test_rdrk : hidden? (after (exec (.rdrk 10) loaded)).B[15] = some 175 := by decide
/-- 43_key_schedule R135: the old key is discarded at acceptance; `SR` reads `0x00000601`. -/
theorem test_keyexp : (after (exec .keyexp loaded)).srWord = 0x00000601 ∧
    (after (exec .keyexp loaded)).RK = State.reset.RK := by decide
/-- 95_test_vectors section 2.8 lines 7 and 9, and P3 line 36. -/
theorem test_encblk : answerOf (exec .encblk State.reset) = some (.badSize, 0, none) ∧
    answerOf (exec .encblk { loaded with KEYV := false }) = some (.noKey, 0, none) ∧
    (after (exec .encblk loaded)).srWord = 0x00030103 := by decide

/-- 60_exceptions R177: a failing primitive empties everything. -/
theorem test_prim_fail : (after (exec (.encc 0 0x53) (failing done))).srWord = 0x0003A760 ∧
    (after (exec (.encc 0 0x53) (failing done))).B = emptyBlock ∧
    answerOf (exec (.encc 0 0x53) (failing done)) = some (.primFail, 0, none) := by decide

/-- 95_test_vectors P7 line 1: the MixColumns step of round 3 fails. -/
theorem test_step_fails : (after (sequencer (failing (running .main 3 .mix)))).srWord = 0x00023760 := by decide +kernel

/-- 95_test_vectors section 2.8 line 14. -/
theorem test_faulted : answerOf (exec (.get 0) faulted) = some (.faulted, 0, none) ∧
    (after (exec (.get 0) faulted)).ERR = .primFail := by decide

/-- 95_test_vectors section 2.8 line 13 and P6 line 23: a command presented while busy waits, then runs. -/
theorem test_waiting : (after (step { expanding with script := [.present 0x00000000 (ct 0)] })).resp = none ∧
    (after (step { loaded with cmd := some 0x11000000 })).resp.map Response.status = some .ok := by decide

/-- The step fetches from `withFetchWord`, as the first command after reset too. -/
theorem test_fetch_word : decodeTableWord 32 0x12000053 = some (.encc 0 0x53) ∧
    hidden? (after (step (State.reset.withFetchWord 32 0x12000053))).B[0] = some 0x53 := by decide

/-! The tables and the reference functions -/

/-- 10_state R40: the table is a permutation, and the entry that the rule spells out. -/
theorem test_sbox_table : sboxTable.length = 256 ∧ sbox 0x53 = 0xed ∧ sbox 0x00 = 0x63 ∧ sboxTable.Nodup := by
  decide +kernel

/-- 10_state R41: `RCON[j]` is `2^j` in the field. -/
theorem test_rcon : ∀ j : Fin 9, gfMul rconTable[j.val] 2 = rconTable[j.val + 1] := by decide

/-- 95_test_vectors section 1.1, the source's end-to-end vector, with the key expansion of section 2.4. -/
theorem test_end_to_end :
    hEncryptBlock (Vector.ofFn fun j => BitVec.ofNat 8 (0x11 * j.val)) (hExpand (Vector.ofFn fun j => BitVec.ofNat 8 j.val)) =
      #v[0x69, 0xc4, 0xe0, 0xd8, 0x6a, 0x7b, 0x04, 0x30, 0xd8, 0xcd, 0xb7, 0x80, 0x70, 0xb4, 0xc5, 0x5a] := by
  decide +kernel

/-- 95_test_vectors section 2.4, round keys 1 and 10 in round-key order. -/
theorem test_key_expansion :
    (hExpand (Vector.ofFn fun j => BitVec.ofNat 8 j.val))[1] =
      #v[0xd6, 0xd2, 0xda, 0xd6, 0xaa, 0xaf, 0xa6, 0xab, 0x74, 0x72, 0x78, 0x76, 0xfd, 0xfa, 0xf1, 0xfe] ∧
    (hExpand (Vector.ofFn fun j => BitVec.ofNat 8 j.val))[10] =
      #v[0x13, 0xe3, 0xf3, 0x4d, 0x11, 0x94, 0x07, 0x2b, 0x1d, 0x4a, 0xa7, 0x30, 0x7f, 0x17, 0x8b, 0xc5] := by
  decide +kernel

/-! Witnesses: for each statement with hypotheses, a state and operands that meet them, clause by clause, at the ends of
each range -/

/-- `s` with this transaction coming next from the host. -/
def presenting (w : Word) (s : State) : State := { s with script := [.present w (ct 0x33)] }

/-- `s` with this transaction waiting on the port. -/
def waiting (w : Word) (s : State) : State := { s with cmd := some w }

/-- `s` with `B[j]` empty. -/
def without (j : Fin 16) (s : State) : State := s.withB (s.B.set j none)

/-- `s` with the state matrix empty. -/
def noMatrix (s : State) : State := s.withS emptyMatrix

/-- `s` with no key. -/
def noKey (s : State) : State := s.withKey (Vector.replicate 11 emptyBlock) false

theorem loaded_block : ∀ j : Fin 16, loaded.B[j] = some (ct j.val) := by decide
theorem loaded_matrix : ∀ r c : Fin 4, loaded.S[r][c] = some (ct (4 * r.val + c.val)) := by decide
theorem loaded_key : ∀ (n : Fin 11) (j : Fin 16), loaded.RK[n][j] = some (ct (16 * n.val + j.val)) := by decide +kernel

/-- The hidden values of `loaded`. -/
def hBlock : HBlock := Vector.ofFn fun j => BitVec.ofNat 8 j.val
def hKeys : Vector HBlock 11 := Vector.ofFn fun n => Vector.ofFn fun j => BitVec.ofNat 8 (16 * n.val + j.val)

theorem loaded_hidden : loaded.blockIs hBlock ∧ loaded.keyIs hKeys ∧
    loaded.matrixIs (hMatrix fun r c => BitVec.ofNat 8 (4 * r.val + c.val)) := by
  unfold State.blockIs State.keyIs State.matrixIs
  decide +kernel

theorem running_inv (p : Phase) (n : Round) (st : Stage) (h : legalRunning p n st = true) (hk : p ≠ .keyx) :
    (running p n st).Inv := by
  have hf : p ≠ .fault := by rintro rfl; cases h
  refine ⟨nofun, ?_, fun _ => ?_, nofun, .inl ?_, fun _ => ⟨rfl, ?_⟩, fun _ => ?_,
    fun h => absurd h hk, fun h => absurd h hf⟩
  · show (if p = .fault then _ else _) = true
    rw [if_neg hf]; exact h
  · show ∀ n : Fin 11, blockFull someKey[n] = true
    decide +kernel
  · show matrixFull loaded.S = true
    decide
  · show blockFull loaded.B = true
    decide
  · show matrixFull loaded.S = true
    decide

theorem expanding_inv : expanding.Inv :=
  ⟨by decide, by decide, nofun, fun _ => by decide +kernel, .inl (by decide), nofun, nofun,
    fun _ => by decide, nofun⟩

theorem faulted_inv : faulted.Inv :=
  ⟨by decide, by decide, nofun, fun _ => by decide +kernel, .inr rfl, nofun, nofun,
    nofun, fun _ => by decide⟩

theorem witness_EncodeOfDecode : decode 0x22010002 = .ok (.gmul 1 0 2) := by decide

theorem witness_DecoderFollowsOpcodeMap :
    ∃ row ∈ opcodeMap, (0x22010002 : Word) &&& row.mask = row.bits ∧ row.mnemonic = "GMUL" := by decide

theorem witness_StepRunsTheDecodedCommand :
    decode 0x10030000 = .ok (.put 3) ∧ loaded.busy = false ∧
    (presenting 0x10030000 loaded).script = [.present 0x10030000 (ct 0x33)] ∧ (presenting 0x10030000 loaded).cmd = none ∧
    (waiting 0x10030000 loaded).cmd = some 0x10030000 ∧
    (waiting 0x10030000 loaded).script.head? ≠ some .hardReset ∧
    decode 0x01000000 = .ok .rdsr ∧ expanding.busy = true ∧ opcodeOf 0x01000000 = 0x01 ∧
    decode 0x02060000 = .ok (.rdcnt 6) ∧ opcodeOf 0x02060000 = 0x02 := by decide

theorem witness_IllegalWordIsRejected :
    decode 0x50000000 = .error .reservedOpcode ∧ decode 0x00000001 = .error .unusedFieldNonzero ∧
    (presenting 0x50000000 loaded).ready ∧ (presenting 0x00000001 done).ready ∧
    (presenting 0x50000000 loaded).script = [.present 0x50000000 (ct 0x33)] ∧
    (presenting 0x50000000 loaded).cmd = none ∧ (waiting 0x50000000 done).ready ∧
    (waiting 0x50000000 done).cmd = some 0x50000000 ∧ (waiting 0x50000000 done).script.head? ≠ some .hardReset ∧
    (presenting 0x50000000 faulted).busy = false ∧ (waiting 0x50000000 faulted).busy = false ∧
    expanding.busy = true ∧ decode 0x01000100 = .error .unusedFieldNonzero ∧ opcodeOf 0x01000100 = 0x01 ∧
    decode 0x02000001 = .error .unusedFieldNonzero ∧ opcodeOf 0x02000001 = 0x02 := by decide

theorem witness_BusyCommandWaits :
    expanding.busy = true ∧ (running .load 0 .ark).busy = true ∧ opcodeOf 0x00000000 ≠ 0x01 ∧ opcodeOf 0x00000000 ≠ 0x02 ∧
    (presenting 0x00000000 expanding).script = [.present 0x00000000 (ct 0x33)] ∧
    (presenting 0x00000000 expanding).cmd = none ∧
    (waiting 0x00000000 expanding).cmd = some 0x00000000 ∧ (waiting 0x00000000 expanding).script = [] ∧
    ((waiting 0x00000000 expanding).withScript [.sequencer]).script = [.sequencer] ∧
    Instr.nop ≠ .rdsr ∧ ∀ k : Byte, Instr.nop ≠ .rdcnt k := by
  and_intros <;> decide

theorem witness_SequencerHasTheTurn :
    expanding.cmd = none ∧ expanding.script = [] ∧ (expanding.withScript [.sequencer]).cmd = none ∧
    (expanding.withScript [.sequencer]).script = [.sequencer] ∧ loaded.cmd = none ∧ loaded.busy = false ∧
    faulted.busy = false := by decide

theorem witness_HardResetFromAnyState :
    ((waiting 0x00000000 expanding).withScript [.hardReset]).script = [.hardReset] ∧
    (faulted.withScript [.hardReset]).script = [.hardReset] := by decide

theorem witness_SrstResets :
    expanding.busy = true ∧ faulted.busy = false ∧ done.busy = false ∧ faulted.PHASE = .fault ∧
    exec .srst faulted = .next faulted.toReset.accept ∧ faulted.toReset.accept.PHASE ≠ .fault ∧
    opcodeOf 0x04000001 = 0x04 ∧ decode 0x04000001 = .error .unusedFieldNonzero ∧ loaded.ready := by
  and_intros <;> first | rfl | decide

/-- For `NopOnlyAnswers` and `ClrcntZeroesTheCounters`. -/
theorem witness_NopOnlyAnswers : loaded.ready ∧ done.ready ∧ expanding.busy = true ∧ faulted.PHASE = .fault := by decide
theorem witness_ClrcntZeroesTheCounters : loaded.ready ∧ done.ready ∧ expanding.busy = true ∧ faulted.PHASE = .fault := by
  decide

theorem witness_RdsrReturnsTheStatusWord :
    opcodeOf 0x01000100 = 0x01 ∧ decode 0x01000100 = .error .unusedFieldNonzero := by decide

theorem witness_RdcntReturnsTheCounter :
    (0 : Byte).toNat = (0 : Fin 7).val ∧ (6 : Byte).toNat = (6 : Fin 7).val ∧ expanding.PHASE ≠ .fault ∧
    (6 : Byte).toNat ≤ 6 ∧ faulted.PHASE = .fault ∧ 6 < (7 : Byte).toNat ∧
    opcodeOf 0x02000001 = 0x02 ∧ decode 0x02000001 = .error .unusedFieldNonzero := by decide

theorem witness_PutWritesDin :
    loaded.ready ∧ (0 : Byte).toNat = (0 : Fin 16).val ∧ (15 : Byte).toNat = (15 : Fin 16).val ∧ 15 < (16 : Byte).toNat := by
  decide

theorem witness_GetReturnsTheCell :
    loaded.ready ∧ (15 : Byte).toNat = (15 : Fin 16).val ∧ loaded.B[(15 : Fin 16)] = some (ct 15) ∧
    (without 15 loaded).ready ∧ (without 15 loaded).B[(15 : Fin 16)] = none ∧ 15 < (16 : Byte).toNat := by decide

theorem witness_EnccWritesThePublicByte :
    loaded.ready ∧ (15 : Byte).toNat = (15 : Fin 16).val ∧ loaded.failsWithin (oneLane 1) = false ∧
    (failing loaded).ready ∧ (15 : Byte).toNat ≤ 15 ∧ (failing loaded).failsWithin (oneLane 1) = true ∧
    15 < (16 : Byte).toNat := by decide

theorem witness_MovCopiesTheCell :
    loaded.ready ∧ (0 : Byte).toNat = (0 : Fin 16).val ∧ (15 : Byte).toNat = (15 : Fin 16).val ∧
    loaded.B[(15 : Fin 16)] = some (ct 15) ∧ (0 : Byte).toNat ≤ 15 ∧ (without 15 loaded).ready ∧
    (without 15 loaded).B[(15 : Fin 16)] = none ∧ 15 < (16 : Byte).toNat := by decide

theorem witness_LdstLoadsTheMatrix :
    loaded.ready ∧ (∀ j : Fin 16, loaded.B[j].isSome) ∧ (without 15 loaded).ready ∧
    (∃ j : Fin 16, (without 15 loaded).B[j] = none) := by decide

theorem witness_StstStoresTheMatrix :
    loaded.ready ∧ (∀ r c : Fin 4, loaded.S[r][c].isSome) ∧ (noMatrix loaded).ready ∧
    (∃ r c : Fin 4, (noMatrix loaded).S[r][c] = none) := by decide

theorem witness_SboxSubstitutesTheByte :
    loaded.ready ∧ (0 : Byte).toNat = (0 : Fin 16).val ∧ (15 : Byte).toNat = (15 : Fin 16).val ∧
    loaded.B[(15 : Fin 16)] = some (ct 15) ∧ loaded.failsWithin (oneLane substituteLength) = false ∧
    (failing loaded).ready ∧ (failing loaded).B[(15 : Fin 16)] = some (ct 15) ∧
    (failing loaded).failsWithin (oneLane substituteLength) = true ∧
    (without 15 loaded).ready ∧ (without 15 loaded).B[(15 : Fin 16)] = none ∧ 15 < (16 : Byte).toNat := by decide

theorem witness_SubbSubstitutesTheMatrix :
    loaded.ready ∧ (∀ r c : Fin 4, loaded.S[r][c] = some (ct (4 * r.val + c.val))) ∧
    loaded.failsWithin (sixteenLanes substituteLength) = false ∧
    (failing loaded).ready ∧ (∀ r c : Fin 4, (failing loaded).S[r][c] = some (ct (4 * r.val + c.val))) ∧
    (failing loaded).failsWithin (sixteenLanes substituteLength) = true ∧ (noMatrix loaded).ready ∧
    (∃ r c : Fin 4, (noMatrix loaded).S[r][c] = none) := by decide

theorem witness_XorbCombinesTwoBytes :
    loaded.ready ∧ (0 : Byte).toNat = (0 : Fin 16).val ∧ (15 : Byte).toNat = (15 : Fin 16).val ∧
    (7 : Byte).toNat = (7 : Fin 16).val ∧ loaded.B[(15 : Fin 16)] = some (ct 15) ∧ loaded.B[(7 : Fin 16)] = some (ct 7) ∧
    loaded.failsWithin (oneLane 1) = false ∧ (failing loaded).ready ∧
    (failing loaded).B[(15 : Fin 16)] = some (ct 15) ∧ (failing loaded).B[(7 : Fin 16)] = some (ct 7) ∧
    (failing loaded).failsWithin (oneLane 1) = true ∧
    (without 15 loaded).ready ∧ (without 15 loaded).B[(15 : Fin 16)] = none ∧ 15 < (16 : Byte).toNat := by decide

theorem witness_GmulIsTheFieldProduct :
    loaded.ready ∧ (0 : Byte).toNat = (0 : Fin 16).val ∧ (15 : Byte).toNat = (15 : Fin 16).val ∧
    loaded.B[(15 : Fin 16)] = some (ct 15) ∧ loaded.failsWithin (oneLane (galoisLength 0)) = false ∧
    loaded.failsWithin (oneLane (galoisLength 255)) = false ∧ (failing loaded).ready ∧
    (failing loaded).B[(15 : Fin 16)] = some (ct 15) ∧ (failing loaded).failsWithin (oneLane (galoisLength 0)) = true ∧
    (without 15 loaded).ready ∧ (without 15 loaded).B[(15 : Fin 16)] = none ∧ 15 < (16 : Byte).toNat := by decide

/-- A SubBytes step and the key expansion, each from two states with other Encrypted Bytes. -/
theorem witness_EnginesAreOblivious :
    (workEffect .sub loaded).isSome ∧ (workEffect .sub (loaded.withS (matrixOf fun _ _ => ct 7))).isSome ∧
    (workEffect .expand expanding).isSome ∧ (workEffect .expand (expanding.setB 3 (ct 7))).isSome := by decide +kernel

theorem witness_ShrowRotatesTheRows :
    loaded.ready ∧ (∀ r c : Fin 4, loaded.S[r][c].isSome) ∧ (noMatrix loaded).ready ∧
    (∃ r c : Fin 4, (noMatrix loaded).S[r][c] = none) := by decide

theorem witness_MixcMixesTheColumns :
    loaded.ready ∧ (∀ r c : Fin 4, loaded.S[r][c] = some (ct (4 * r.val + c.val))) ∧
    loaded.failsWithin (sixteenLanes mixLength) = false ∧
    (failing loaded).ready ∧ (∀ r c : Fin 4, (failing loaded).S[r][c] = some (ct (4 * r.val + c.val))) ∧
    (failing loaded).failsWithin (sixteenLanes mixLength) = true ∧ (noMatrix loaded).ready ∧
    (∃ r c : Fin 4, (noMatrix loaded).S[r][c] = none) := by decide

theorem witness_ArkAddsTheRoundKey :
    loaded.ready ∧ (10 : Byte).toNat = (10 : Fin 11).val ∧ loaded.KEYV = true ∧
    (∀ j : Fin 16, loaded.RK[(10 : Fin 11)][j] = some (ct (160 + j.val))) ∧
    (∀ r c : Fin 4, loaded.S[r][c] = some (ct (4 * r.val + c.val))) ∧ loaded.failsWithin (sixteenLanes 1) = false ∧
    (failing loaded).ready ∧ (failing loaded).KEYV = true ∧
    (∀ j : Fin 16, (failing loaded).RK[(10 : Fin 11)][j] = some (ct (160 + j.val))) ∧
    (∀ r c : Fin 4, (failing loaded).S[r][c] = some (ct (4 * r.val + c.val))) ∧
    (failing loaded).failsWithin (sixteenLanes 1) = true ∧
    (noMatrix loaded).ready ∧ (noMatrix loaded).KEYV = true ∧
    (∀ j : Fin 16, (noMatrix loaded).RK[(10 : Fin 11)][j] = some (ct (160 + j.val))) ∧
    (∃ r c : Fin 4, (noMatrix loaded).S[r][c] = none) ∧
    (noKey loaded).ready ∧ (10 : Byte).toNat ≤ 10 ∧ (noKey loaded).KEYV = false ∧ 10 < (11 : Byte).toNat := by
  decide +kernel

theorem witness_KeyexpStartsTheExpansion :
    loaded.ready ∧ done.ready ∧ (∀ j : Fin 16, loaded.B[j].isSome) ∧ (without 0 loaded).ready ∧
    (∃ j : Fin 16, (without 0 loaded).B[j] = none) := by decide

theorem witness_KeyxStepExpandsTheKey :
    expanding.PHASE = .keyx ∧ expanding.ROUND = 0 ∧ expanding.STAGE = .sub ∧
    (∀ j : Fin 16, expanding.B[j] = some (ct j.val)) ∧ expanding.failsWithin expandLength = false ∧
    (failing expanding).PHASE = .keyx ∧ (failing expanding).ROUND = 0 ∧ (failing expanding).STAGE = .sub ∧
    (∀ j : Fin 16, (failing expanding).B[j] = some (ct j.val)) ∧ (failing expanding).failsWithin expandLength = true := by
  decide +kernel

theorem witness_RdrkCopiesTheRoundKey :
    loaded.ready ∧ (0 : Byte).toNat = (0 : Fin 11).val ∧ (10 : Byte).toNat = (10 : Fin 11).val ∧ loaded.KEYV = true ∧
    (∀ j : Fin 16, loaded.RK[(10 : Fin 11)][j].isSome) ∧ (noKey loaded).ready ∧ (10 : Byte).toNat ≤ 10 ∧
    (noKey loaded).KEYV = false ∧ 10 < (11 : Byte).toNat := by decide +kernel

theorem step_answers {o : Out} (h : (match o with | .next _ => true | .fault _ => false | .refused _ => false) = true) :
    o = .next (after o) := by
  cases o <;> simp_all [after]

theorem witness_ExpandedKeyIsImmutable : (running .final 10 .shr).Inv ∧
    ∃ t : State, step (running .final 10 .shr) = .next t ∧ (running .final 10 .shr).KEYV = true ∧ t.KEYV = true :=
  ⟨running_inv _ _ _ (by decide) (by decide), after (step (running .final 10 .shr)), step_answers (by decide +kernel), by decide,
    by decide +kernel⟩

theorem witness_KeyValidChanges : expanding.Inv ∧ loaded.Inv ∧
    (∃ t : State, step expanding = .next t ∧ expanding.KEYV = false ∧ t.KEYV = true ∧ t.PHASE = .idle ∧
      expanding.PHASE = .keyx ∧ expanding.resets = false) ∧
    (∃ t : State, step (waiting 0x40000000 loaded) = .next t ∧ (waiting 0x40000000 loaded).KEYV = true ∧ t.KEYV = false ∧
      t.PHASE = .keyx) ∧ (waiting 0x40000000 loaded).Inv := by
  have hl : loaded.Inv := running_inv .idle 0 .sub (by decide) (by decide)
  refine ⟨expanding_inv, hl, ⟨after (step expanding), step_answers (by decide +kernel), by decide +kernel⟩,
    ⟨after (step (waiting 0x40000000 loaded)), step_answers (by decide +kernel), by decide +kernel⟩, ?_⟩
  exact ⟨hl.errCode, hl.position, hl.keyWhole, hl.keyNone, hl.matrixWhole, hl.runLoaded, hl.runMatrix, hl.keyLoaded,
    hl.faultEmpty⟩

theorem witness_EncblkStartsTheRun :
    loaded.ready ∧ (∀ j : Fin 16, loaded.B[j].isSome) ∧ loaded.KEYV = true ∧ (noKey loaded).ready ∧
    (∀ j : Fin 16, (noKey loaded).B[j].isSome) ∧ (noKey loaded).KEYV = false ∧ (without 0 loaded).ready ∧
    (∃ j : Fin 16, (without 0 loaded).B[j] = none) := by decide

/-- The pipeline steps' cells and the scheme: `running` holds the cells of `loaded` and lists no failure. -/
theorem running_cells (p : Phase) (n : Round) (st : Stage) :
    (∀ j : Fin 16, (running p n st).B[j] = some (ct j.val)) ∧
    (∀ r c : Fin 4, (running p n st).S[r][c] = some (ct (4 * r.val + c.val))) ∧
    (∀ (k : Fin 11) (j : Fin 16), (running p n st).RK[k][j] = some (ct (16 * k.val + j.val))) ∧
    ∀ len : Nat → Nat, (running p n st).failsWithin len = false :=
  ⟨loaded_block, loaded_matrix, loaded_key, fun _ => rfl⟩

theorem witness_LoadStepWhitens :
    (running .load 0 .ark).PHASE = .load ∧ (running .load 0 .ark).ROUND = 0 ∧ (running .load 0 .ark).STAGE = .ark ∧
    (∀ j : Fin 16, (running .load 0 .ark).B[j] = some (ct j.val)) ∧
    (∀ j : Fin 16, (running .load 0 .ark).RK[0][j] = some (ct j.val)) ∧
    (running .load 0 .ark).failsWithin (sixteenLanes 1) = false := by decide +kernel

theorem witness_LoadStepWhitens_inv : (running .load 0 .ark).Inv ∧ (running .load 0 .ark).PHASE = .load :=
  ⟨running_inv _ _ _ (by decide) (by decide), rfl⟩

theorem witness_SubStepsSubstitute :
    ((running .whitened 1 .sub).PHASE = .whitened ∧ (running .whitened 1 .sub).ROUND = 1) ∧
    ((running .main 2 .sub).PHASE = .main ∧ 2 ≤ (running .main 2 .sub).ROUND ∧ (running .main 2 .sub).ROUND ≤ 9) ∧
    ((running .main 9 .sub).PHASE = .main ∧ 2 ≤ (running .main 9 .sub).ROUND ∧ (running .main 9 .sub).ROUND ≤ 9) ∧
    ((running .final 10 .sub).PHASE = .final ∧ (running .final 10 .sub).ROUND = 10) ∧
    (running .main 9 .sub).STAGE = .sub ∧ (∀ r c : Fin 4, (running .main 9 .sub).S[r][c] = some (ct (4 * r.val + c.val))) ∧
    (running .main 9 .sub).failsWithin (sixteenLanes substituteLength) = false := by decide

theorem witness_ShiftStepsRotate :
    ((running .main 1 .shr).PHASE = .main ∧ 1 ≤ (running .main 1 .shr).ROUND ∧ (running .main 1 .shr).ROUND ≤ 9) ∧
    ((running .main 9 .shr).PHASE = .main ∧ 1 ≤ (running .main 9 .shr).ROUND ∧ (running .main 9 .shr).ROUND ≤ 9) ∧
    ((running .final 10 .shr).PHASE = .final ∧ (running .final 10 .shr).ROUND = 10) ∧
    (running .final 10 .shr).STAGE = .shr ∧ (∀ r c : Fin 4, (running .final 10 .shr).S[r][c].isSome) := by decide

theorem witness_MixStepsMix :
    (running .main 9 .mix).PHASE = .main ∧ (running .main 9 .mix).STAGE = .mix ∧ 1 ≤ (running .main 1 .mix).ROUND ∧
    (running .main 9 .mix).ROUND ≤ 9 ∧
    (running .main 9 .mix).matrixIs (hMatrix fun r c => BitVec.ofNat 8 (4 * r.val + c.val)) ∧
    (running .main 9 .mix).failsWithin (sixteenLanes mixLength) = false :=
  ⟨rfl, rfl, by decide, by decide, loaded_hidden.2.2, rfl⟩

theorem witness_ArkStepsAddTheRoundKey :
    (running .main 9 .ark).PHASE = .main ∧ (running .main 9 .ark).STAGE = .ark ∧
    (running .main 9 .ark).ROUND.toNat = (9 : Fin 11).val ∧ (running .main 1 .ark).ROUND.toNat = (1 : Fin 11).val ∧
    (∀ r c : Fin 4, (running .main 9 .ark).S[r][c] = some (ct (4 * r.val + c.val))) ∧
    (∀ j : Fin 16, (running .main 9 .ark).RK[(9 : Fin 11)][j] = some (ct (144 + j.val))) ∧
    (running .main 9 .ark).failsWithin (sixteenLanes 1) = false := by decide +kernel

theorem witness_FinalStepStores :
    (running .final 10 .ark).PHASE = .final ∧ (running .final 10 .ark).ROUND = 10 ∧ (running .final 10 .ark).STAGE = .ark ∧
    (∀ r c : Fin 4, (running .final 10 .ark).S[r][c] = some (ct (4 * r.val + c.val))) ∧
    (∀ j : Fin 16, (running .final 10 .ark).RK[10][j] = some (ct (160 + j.val))) ∧
    (running .final 10 .ark).failsWithin (sixteenLanes 1) = false ∧ done.PHASE = .done ∧
    exec .nop done = .next done.accept := by
  and_intros <;> first | rfl | decide

theorem failing_inv {s : State} (h : s.Inv) : (failing s).Inv :=
  ⟨h.errCode, h.position, h.keyWhole, h.keyNone, h.matrixWhole, h.runLoaded, h.runMatrix, h.keyLoaded, h.faultEmpty⟩

theorem witness_PrimFailTakesTheFault :
    (failing (running .main 3 .mix)).Inv ∧ (failing (running .main 3 .mix)).busy = true ∧
    program (failing (running .main 3 .mix)).PHASE 3 .mix = some (.mix, .main, 3, .ark) ∧
    (failing (running .main 3 .mix)).failsWithin (Work.lanes .mix) = true ∧
    (failing expanding).Inv ∧ (failing expanding).failsWithin (Work.lanes .expand) = true ∧
    (failing loaded).ready ∧ exec (.xorb 2 0 1) (failing loaded) = .next ((failing loaded).takeFault.answer .primFail 0 none) :=
  ⟨failing_inv (running_inv _ _ _ (by decide) (by decide)), by decide, by decide, by decide, failing_inv expanding_inv,
    by decide, by decide, rfl⟩

/-- Each of the seven commands that issue primitives, at the ends of its operands' ranges. -/
theorem witness_PrimFailTakesTheFault_commands :
    (failing loaded).ready ∧ ∀ i ∈ [Instr.encc 15 255, .xorb 15 0 15, .sbox 15 0, .gmul 0 15 255, .subb, .mixc, .ark 10],
      (failing loaded).issues i ∧ (failing loaded).failsWithin (commandLanes i) = true := by
  refine ⟨.inl rfl, ?_⟩
  simp only [List.forall_mem_cons, List.not_mem_nil, false_implies, implies_true, and_true]
  and_intros <;> decide

theorem witness_SequencerAdvancesByOne :
    (running .main 9 .shr).Inv ∧ (running .main 9 .shr).busy = true ∧
    sequencer (running .main 9 .shr) = .next (after (sequencer (running .main 9 .shr))) ∧ expanding.Inv ∧
    expanding.busy = true :=
  ⟨running_inv _ _ _ (by decide) (by decide), by decide, step_answers (by decide +kernel), expanding_inv, by decide⟩

theorem witness_EveryRunEnds :
    (running .load 0 .ark).Inv ∧ (running .load 0 .ark).cmd = none ∧ (running .load 0 .ark).script = [] ∧
    stepsLeft .load 0 .ark = 40 ∧ expanding.Inv ∧ expanding.cmd = none ∧ expanding.script = [] :=
  ⟨running_inv _ _ _ (by decide) (by decide), rfl, rfl, rfl, expanding_inv, rfl, rfl⟩

/-- A failure listed far beyond the run does not touch it. -/
theorem witness_RunEncryptsTheBlock :
    let s : State := { running .load 0 .ark with failures := [⟨40, 0, 0⟩] }
    s.PHASE = .load ∧ s.ROUND = 0 ∧ s.STAGE = .ark ∧ s.cmd = none ∧ s.script = [] ∧ s.blockIs hBlock ∧ s.keyIs hKeys ∧
      s.noFailureFor 40 :=
  ⟨rfl, rfl, rfl, rfl, rfl, loaded_hidden.1, loaded_hidden.2.1, by unfold State.noFailureFor; decide⟩

theorem witness_StageCommandsEncryptTheBlock :
    loaded.ready ∧ loaded.KEYV = true ∧ loaded.blockIs hBlock ∧ loaded.keyIs hKeys ∧ loaded.noFailureFor 42 :=
  ⟨.inl rfl, rfl, loaded_hidden.1, loaded_hidden.2.1, nofun⟩

theorem witness_FaultAnswersFaulted :
    faulted.PHASE = .fault ∧ faulted.ERR ≠ .ok ∧ decode 0x50000000 = .error .reservedOpcode ∧
    opcodeOf 0x50000000 ≠ 0x01 ∧ opcodeOf 0x50000000 ≠ 0x02 ∧ decode 0x01000100 = .error .unusedFieldNonzero ∧
    opcodeOf 0x01000100 = 0x01 ∧ decode 0x02000001 = .error .unusedFieldNonzero ∧ opcodeOf 0x02000001 = 0x02 ∧
    6 < (7 : Byte).toNat ∧ exec (.get 0) faulted = .next (faulted.answer .faulted 0 none) := by
  and_intros <;> first | rfl | decide

theorem witness_OnlyResetLeavesFault :
    faulted.PHASE = .fault ∧ faulted.ERR ≠ .ok ∧ (waiting 0x11000000 faulted).resets = false ∧
    step (waiting 0x11000000 faulted) = .next ((waiting 0x11000000 faulted).answer .faulted 0 none) := by
  and_intros <;> first | rfl | decide

/-- A command's first error, a step's first error, and an error after the first. -/
theorem witness_FirstErrorIsKept :
    (waiting 0x50000000 loaded).resets = false ∧ (waiting 0x50000000 loaded).ERR = .ok ∧
    (waiting 0x50000000 loaded).served = some 0x50000000 ∧
    step (waiting 0x50000000 loaded) = .next ((waiting 0x50000000 loaded).reject .illegalCmd) ∧
    (failing (running .main 3 .mix)).resets = false ∧ (failing (running .main 3 .mix)).ERR = .ok ∧
    (failing (running .main 3 .mix)).served = none ∧ (waiting 0x50000000 faulted).resets = false ∧
    (waiting 0x50000000 faulted).ERR ≠ .ok := by
  and_intros <;> first | rfl | decide

theorem witness_RejectsArePrecise :
    loaded.ready ∧ exec (.put 16) loaded = .next (loaded.reject .badIndex) ∧
    (loaded.reject .badIndex).resp = some ⟨.badIndex, 0, none⟩ := by
  and_intros <;> first | rfl | decide

theorem witness_CommandsKeepThePosition :
    exec (.put 3) done = .next (done.setB 3 done.din).accept ∧ exec (.put 3) faulted = .next (faulted.answer .faulted 0 none) := by
  and_intros <;> rfl

theorem witness_CountersFollowTheCostTable :
    loaded.ready ∧ exec (.put 3) loaded = .next (loaded.setB 3 loaded.din).accept ∧
    ((loaded.setB 3 loaded.din).accept.resp).map Response.status = some .ok := by
  and_intros <;> first | rfl | decide

theorem witness_StepKeepsTheInvariant : expanding.Inv ∧ faulted.Inv ∧
    step expanding = .next (after (step expanding)) :=
  ⟨expanding_inv, faulted_inv, step_answers (by decide +kernel)⟩

theorem witness_StepNeverStops : expanding.Inv ∧ faulted.Inv ∧ (running .main 5 .mix).Inv :=
  ⟨expanding_inv, faulted_inv, running_inv _ _ _ (by decide) (by decide)⟩

/-- Two states whose Encrypted Bytes have other hidden values. -/
theorem witness_NothingPublicDependsOnCiphertexts :
    loaded.mapCt eraseCt = (loaded.setB 3 (ct 0x77)).mapCt eraseCt ∧ loaded ≠ loaded.setB 3 (ct 0x77) := by decide +kernel

/-- Two states whose Encrypted Bytes have the same hidden values in other ciphertexts. -/
theorem witness_HiddenValuesAreDeterministic :
    loaded.mapCt forgetBits = (loaded.setB 3 ⟨3, 7⟩).mapCt forgetBits ∧ loaded ≠ loaded.setB 3 ⟨3, 7⟩ := by decide +kernel

end Sys2Proof.Tests
end

section
/-! The turns of the agents, and what keeps the sequencer from stopping (spec/00_scope.md R24, spec/44_round_pipeline.md
R146, R147). -/
namespace Sys2Proof.Machine

/-- While not busy the sequencer's turn changes nothing (R24 (b)). -/
theorem sequencer_not_busy {s : State} (h : s.busy = false) : sequencer s = .next s := by
  simp [sequencer, h]

/-! One equation for each branch of `step` -/

section
variable {s : State} {es : List Event} {w : Word}

theorem step_hardReset (h : s.script = .hardReset :: es) : step s = .next (hardReset (s.withScript es)) := by
  simp [step, h]

theorem step_waiting (hr : s.script.head? ≠ some .hardReset) (hc : s.cmd = some w) :
    step s = if s.accepts w then runCommand w s else sequencer s.yieldTurn := by
  rcases hs : s.script with _ | ⟨_ | _ | _, es⟩
  case cons.hardReset => exact absurd (by simp [hs]) hr
  all_goals simp [step, hs, hc]

theorem step_present {din : Ct} (hs : s.script = .present w din :: es) (hc : s.cmd = none) :
    step s = if s.accepts w then runCommand w ((s.withScript es).present w din)
      else .next ((s.withScript es).present w din) := by
  have ha : ((s.withScript es).present w din).accepts w = s.accepts w := rfl
  simp [step, hs, hc, ha]

theorem step_yields (hs : s.script = .sequencer :: es) (hc : s.cmd = none) : step s = sequencer (s.withScript es) := by
  simp [step, hs, hc]

theorem step_idle (hs : s.script = []) (hc : s.cmd = none) : step s = sequencer s := by
  simp [step, hs, hc]

end

/-- Settles O9: two branches of `step`, and the sequencer's turn while not busy. -/
theorem sequencerHasTheTurn : Obligations.SequencerHasTheTurn := fun _ hc =>
  ⟨fun hs => step_idle hs hc, fun _ hs => step_yields hs hc, sequencer_not_busy⟩

/-- The invariant says nothing of the outside's coming actions. -/
theorem State.Inv.withScript {s : State} (h : s.Inv) (es : List Event) : (s.withScript es).Inv :=
  ⟨h.errCode, h.position, h.keyWhole, h.keyNone, h.matrixWhole, h.runLoaded, h.runMatrix, h.keyLoaded, h.faultEmpty⟩

theorem State.Inv.yieldTurn {s : State} (h : s.Inv) : s.yieldTurn.Inv := by
  unfold State.yieldTurn
  split
  · exact h.withScript _
  · exact h

/-- A busy position of a state with the invariant is one that the program lists (R146). -/
theorem State.Inv.program_isSome {s : State} (h : s.Inv) (hb : s.busy = true) :
    (program s.PHASE s.ROUND s.STAGE).isSome = true := by
  have hp := h.position
  unfold State.busy at hb
  cases hP : s.PHASE <;> rw [hP] at hb hp
  case idle | done | fault => cases hb
  all_goals exact hp

/-- With `KEYV = 1` every round key can be read (R35). -/
theorem State.Inv.stepKey?_eq_some {s : State} (h : s.Inv) (hk : s.KEYV = true) {n : Round} (hn : n.toNat < 11) :
    ∃ key, stepKey? s n = some key := by
  obtain ⟨key, hkey, -⟩ := loadedBlock?_full (h.keyWhole hk ⟨n.toNat, hn⟩)
  exact ⟨key, by rw [stepKey?, dif_pos hn]; exact hkey⟩

/-- Where the program lists a step, it says which cells the invariant must fill: the master key's in phase `KEYX`, the
block's and the round keys' in a run, the matrix's after the run's first step. -/
theorem program_reads {P : Phase} {R : Round} {G : Stage} {w : Work} {p : Phase} {n : Round} {g : Stage}
    (h : program P R G = some (w, p, n, g)) :
    R.toNat < 11 ∧ (w = .expand → P = .keyx) ∧ (w ≠ .expand → P.inRun = true) ∧
      (w ≠ .expand → w ≠ .loadArk → P.afterLoad = true) := by
  have hrow := program_row h
  simp only [programRow, Bool.and_eq_true, decide_eq_true_eq] at hrow
  obtain ⟨⟨⟨⟨⟨⟨-, hexpand⟩, -⟩, -⟩, hrun⟩, hmatrix⟩, -, -, hround⟩ := hrow
  refine ⟨hround, hexpand.mp, hrun, fun he hl => hmatrix ?_⟩
  cases w <;> simp_all

/-- No sequencer step finds a cell it reads empty (R147). -/
theorem State.Inv.workEffect_eq_some {s : State} (h : s.Inv) {w : Work} {p : Phase} {n : Round} {g : Stage}
    (hp : program s.PHASE s.ROUND s.STAGE = some (w, p, n, g)) : ∃ e, workEffect w s = some e := by
  obtain ⟨hround, hexpand, hrun, hmatrix⟩ := program_reads hp
  have matrix : w ≠ .expand → w ≠ .loadArk → ∃ m, loadedMatrix? s.S = some m := fun he hl =>
    (loadedMatrix?_full (h.runMatrix (hmatrix he hl))).imp fun _ hm => hm.1
  have key : w ≠ .expand → ∀ {n : Round}, n.toNat < 11 → ∃ key, stepKey? s n = some key := fun he _ hn =>
    h.stepKey?_eq_some (h.runLoaded (hrun he)).1 hn
  cases w
  case loadArk =>
    obtain ⟨m, hm, -⟩ := loadedMatrix?_full (matrixFull_fromBlock (h.runLoaded (hrun nofun)).2)
    obtain ⟨k, hk⟩ := key nofun (n := 0#4) (by decide)
    simp [workEffect, hm, hk]
  case sub | mix =>
    obtain ⟨m, hm⟩ := matrix nofun nofun
    simp [workEffect, hm]
  case shr => simp [workEffect, h.runMatrix (hmatrix nofun nofun)]
  case ark | arkStore =>
    obtain ⟨m, hm⟩ := matrix nofun nofun
    obtain ⟨k, hk⟩ := key nofun hround
    simp [workEffect, hm, hk]
  case expand =>
    obtain ⟨k, hk, -⟩ := loadedBlock?_full (h.keyLoaded (hexpand rfl)).1
    simp [workEffect, hk]

/-- The sequencer's turn in a state with the invariant: neither of its two faults. -/
theorem State.Inv.sequencer_answers {s : State} (h : s.Inv) : ∃ t, sequencer s = .next t := by
  rcases sequencer_cases s with ⟨-, hs⟩ | ⟨hb, hp, -⟩ | ⟨w, p, n, g, -, hp, hw⟩
  · exact ⟨s, hs⟩
  · exact absurd (h.program_isSome hb) (by simp [hp])
  · obtain ⟨e, he⟩ := h.workEffect_eq_some hp
    rcases hw with ⟨hnone, -⟩ | ⟨_, -, ⟨-, hs⟩ | ⟨-, hs⟩⟩
    · exact absurd (hnone.symm.trans he) nofun
    · exact ⟨_, hs⟩
    · exact ⟨_, hs⟩

/-- An accepted word is answered in every state. -/
theorem runCommand_answers (w : Word) (s : State) : ∃ t, runCommand w s = .next t := by
  rcases runCommand_cases w s with ⟨i, -, hi⟩ | ⟨e, -, ⟨-, he⟩ | he⟩
  · obtain ⟨t, ht, -⟩ := exec_did i s
    exact ⟨t, hi.trans ht⟩
  · exact ⟨_, he⟩
  · exact ⟨_, he⟩

/-- Settles O58: of the agents' moves only the sequencer's can stop, and the invariant excludes both of its faults. -/
theorem stepNeverStops : Obligations.StepNeverStops := by
  intro s h
  rcases step_cases s with ⟨es, -, hs⟩ | ⟨w, -, -, -, ⟨-, hs⟩ | ⟨din, es, -, -, hs⟩⟩ | ⟨-, w, din, es, -, -, -, hs⟩ |
    ⟨-, -, hs⟩
  · exact ⟨_, hs⟩
  · exact hs ▸ runCommand_answers w s
  · exact hs ▸ runCommand_answers w _
  · exact ⟨_, hs⟩
  · exact hs ▸ h.yieldTurn.sequencer_answers

end Sys2Proof.Machine
end

section
/-! SUPPORT. Replacing every Encrypted Byte `x` of a state by `f x`: what that does to groups of cells, fields and views of
the state. Every named update of the state commutes with it, whatever `f` is. -/
namespace Sys2Proof.Machine

/-- Replace the Encrypted Bytes in what a command or step writes. -/
def Effect.mapCt (f : Ct → Ct) (e : Effect) : Effect := ⟨e.after.mapCt f, e.logs⟩

/-- The matrix that the effect leaves is stored into the block buffer as well. -/
def Effect.stored (e : Effect) : Effect := ⟨e.after.withB (toBlock e.after.S), e.logs⟩

theorem arkStoreEffect_eq (s : State) (key : Fin 16 → Ct) (m : Fin 4 → Fin 4 → Ct) :
    arkStoreEffect s key m = (arkEffect s key m).stored := rfl

section
variable (f : Ct → Ct)

/-! Groups of cells -/

@[simp] theorem emptyBlock_map : Vector.map (Option.map f) emptyBlock = emptyBlock := by simp [emptyBlock]

@[simp] theorem emptyMatrix_map : Vector.map (Vector.map (Option.map f)) emptyMatrix = emptyMatrix := by
  simp [emptyMatrix]

@[simp] theorem blockFull_map (b : Block) : blockFull (b.map (Option.map f)) = blockFull b := by simp [blockFull]

@[simp] theorem matrixFull_map (m : Matrix) : matrixFull (m.map (Vector.map (Option.map f))) = matrixFull m := by
  simp [matrixFull]

@[simp] theorem fromBlock_map (b : Block) :
    fromBlock (b.map (Option.map f)) = (fromBlock b).map (Vector.map (Option.map f)) := by
  ext1 r hr; ext1 c hc; simp [fromBlock]

@[simp] theorem toBlock_map (m : Matrix) :
    toBlock (m.map (Vector.map (Option.map f))) = (toBlock m).map (Option.map f) := by
  ext1 j hj; simp [toBlock]

@[simp] theorem shiftRows_map (m : Matrix) :
    shiftRows (m.map (Vector.map (Option.map f))) = (shiftRows m).map (Vector.map (Option.map f)) := by
  ext1 r hr; ext1 c hc; simp [shiftRows]

@[simp] theorem matrixOf_map (g : Fin 4 → Fin 4 → Ct) :
    (matrixOf g).map (Vector.map (Option.map f)) = matrixOf fun r c => f (g r c) := by
  ext1 r hr; ext1 c hc; simp [matrixOf]

@[simp] theorem blockOf_map (g : Fin 16 → Ct) : (blockOf g).map (Option.map f) = blockOf fun j => f (g j) := by
  ext1 j hj; simp [blockOf]

@[simp] theorem loadedBlock?_map (b : Block) :
    loadedBlock? (b.map (Option.map f)) = (loadedBlock? b).map fun k j => f (k j) := by
  simp [loadedBlock?]

@[simp] theorem loadedMatrix?_map (m : Matrix) :
    loadedMatrix? (m.map (Vector.map (Option.map f))) = (loadedMatrix? m).map fun g r c => f (g r c) := by
  simp [loadedMatrix?]

/-! Fields -/

variable (s : State)

@[simp] theorem State.mapCt_B : (s.mapCt f).B = s.B.map (Option.map f) := rfl
@[simp] theorem State.mapCt_S : (s.mapCt f).S = s.S.map (Vector.map (Option.map f)) := rfl
@[simp] theorem State.mapCt_RK : (s.mapCt f).RK = s.RK.map (Vector.map (Option.map f)) := rfl
@[simp] theorem State.mapCt_KEYV : (s.mapCt f).KEYV = s.KEYV := rfl
@[simp] theorem State.mapCt_ERR : (s.mapCt f).ERR = s.ERR := rfl
@[simp] theorem State.mapCt_PHASE : (s.mapCt f).PHASE = s.PHASE := rfl
@[simp] theorem State.mapCt_ROUND : (s.mapCt f).ROUND = s.ROUND := rfl
@[simp] theorem State.mapCt_STAGE : (s.mapCt f).STAGE = s.STAGE := rfl
@[simp] theorem State.mapCt_CNT : (s.mapCt f).CNT = s.CNT := rfl
@[simp] theorem State.mapCt_cmd : (s.mapCt f).cmd = s.cmd := rfl
@[simp] theorem State.mapCt_din : (s.mapCt f).din = f s.din := rfl
@[simp] theorem State.mapCt_resp : (s.mapCt f).resp = s.resp.map (Response.mapCt f) := rfl
@[simp] theorem State.mapCt_script : (s.mapCt f).script = s.script.map (Event.mapCt f) := rfl
@[simp] theorem State.mapCt_failures : (s.mapCt f).failures = s.failures := rfl
@[simp] theorem State.mapCt_stepNo : (s.mapCt f).stepNo = s.stepNo := rfl

theorem State.mapCt_cell (j : Fin 16) : (s.mapCt f).B[j] = Option.map f s.B[j] := by simp

/-! Views of the state -/

@[simp] theorem State.busy_mapCt : (s.mapCt f).busy = s.busy := rfl
@[simp] theorem State.srWord_mapCt : (s.mapCt f).srWord = s.srWord := rfl
@[simp] theorem State.accepts_mapCt (w : Word) : (s.mapCt f).accepts w = s.accepts w := rfl
@[simp] theorem State.fails_mapCt (logs : Logs) : (s.mapCt f).fails logs = s.fails logs := rfl
@[simp] theorem State.readCounter_mapCt (k : Fin 7) : (s.mapCt f).readCounter k = s.readCounter k := rfl

@[simp] theorem roundKey?_mapCt (n : Fin 11) :
    roundKey? (s.mapCt f) n = (roundKey? s n).map fun k j => f (k j) := by
  unfold roundKey?
  split <;> simp_all

@[simp] theorem stepKey?_mapCt (n : Round) : stepKey? (s.mapCt f) n = (stepKey? s n).map fun k j => f (k j) := by
  unfold stepKey?
  split <;> simp

/-! Updates -/

@[simp] theorem State.answer_mapCt (st : Status) (data : Word) (dout : Option Ct) :
    (s.answer st data dout).mapCt f = (s.mapCt f).answer st data (dout.map f) := rfl
@[simp] theorem State.reject_mapCt (code : Status) : (s.reject code).mapCt f = (s.mapCt f).reject code := rfl
@[simp] theorem State.accept_mapCt : s.accept.mapCt f = (s.mapCt f).accept := rfl
@[simp] theorem State.moveTo_mapCt (p : Phase) (n : Round) (g : Stage) :
    (s.moveTo p n g).mapCt f = (s.mapCt f).moveTo p n g := rfl
@[simp] theorem State.setB_mapCt (d : Fin 16) (x : Ct) : (s.setB d x).mapCt f = (s.mapCt f).setB d (f x) := by
  simp [State.mapCt, State.setB]
@[simp] theorem State.withB_mapCt (b : Block) : (s.withB b).mapCt f = (s.mapCt f).withB (b.map (Option.map f)) := rfl
@[simp] theorem State.withS_mapCt (m : Matrix) :
    (s.withS m).mapCt f = (s.mapCt f).withS (m.map (Vector.map (Option.map f))) := rfl
@[simp] theorem State.withKey_mapCt (rk : Vector Block 11) (v : Bool) :
    (s.withKey rk v).mapCt f = (s.mapCt f).withKey (rk.map (Vector.map (Option.map f))) v := rfl
@[simp] theorem State.withCnt_mapCt (cnt : Vector Word 7) : (s.withCnt cnt).mapCt f = (s.mapCt f).withCnt cnt := rfl
@[simp] theorem State.tick_mapCt : s.tick.mapCt f = (s.mapCt f).tick := rfl
@[simp] theorem State.count_mapCt (logs : Logs) : (s.count logs).mapCt f = (s.mapCt f).count logs := rfl
@[simp] theorem State.takeFault_mapCt : s.takeFault.mapCt f = (s.mapCt f).takeFault := by
  simp [State.mapCt, State.takeFault]
@[simp] theorem State.toReset_mapCt : s.toReset.mapCt f = (s.mapCt f).toReset := by
  simp [State.mapCt, State.toReset, State.reset]
@[simp] theorem State.present_mapCt (w : Word) (din : Ct) :
    (s.present w din).mapCt f = (s.mapCt f).present w (f din) := rfl
@[simp] theorem State.withScript_mapCt (es : List Event) :
    (s.withScript es).mapCt f = (s.mapCt f).withScript (es.map (Event.mapCt f)) := rfl
@[simp] theorem hardReset_mapCt : (hardReset s).mapCt f = hardReset (s.mapCt f) := by
  simp [State.mapCt, hardReset, State.toReset, State.reset]
@[simp] theorem State.yieldTurn_mapCt : s.yieldTurn.mapCt f = (s.mapCt f).yieldTurn := by
  unfold State.yieldTurn
  rcases hs : s.script with _ | ⟨ev, es⟩
  · simp [hs]
  · cases ev <;> simp [hs, Event.mapCt]
@[simp] theorem State.illegal_mapCt (opc : Byte) : (s.illegal opc).mapCt f = (s.mapCt f).illegal opc := by
  unfold State.illegal
  rw [State.mapCt_PHASE]
  split <;> rfl
@[simp] theorem State.finishCommand_mapCt (e : Effect) :
    (s.finishCommand e).mapCt f = (s.mapCt f).finishCommand (e.mapCt f) := by
  unfold State.finishCommand
  split <;> simp_all [Effect.mapCt]
@[simp] theorem State.finishStep_mapCt (e : Effect) (p : Phase) (n : Round) (g : Stage) :
    (s.finishStep e p n g).mapCt f = (s.mapCt f).finishStep (e.mapCt f) p n g := by
  unfold State.finishStep
  split <;> simp_all [Effect.mapCt]

theorem State.hardReset_next_mapCt :
    (s.mapCt f).script.head? = some .hardReset ↔ s.script.head? = some .hardReset := by
  rcases hs : s.script with _ | ⟨ev, es⟩
  · simp [hs]
  · cases ev <;> simp [hs, Event.mapCt]

theorem Effect.stored_mapCt (e : Effect) : e.stored.mapCt f = (e.mapCt f).stored := by
  simp [Effect.mapCt, Effect.stored]

end
end Sys2Proof.Machine
end

section
/-! Hidden values depend on hidden values alone (spec/00_scope.md R22). The key fact is a commuting square: the answer of a
step, seen through `State.mapCt f`, is the same whether or not the Encrypted Bytes of the state were replaced before the
step. It holds for every `f` that is `Uniform`, as `forgetBits` is and as a constant is. -/
namespace Sys2Proof.Machine

/-- What `f` leaves of an Encrypted Byte whose hidden value is computed from those of others depends on what `f` leaves
of those others alone. -/
def Uniform (f : Ct → Ct) : Prop :=
  ∀ {ι : Type} (v : (ι → Byte) → Byte) (x : ι → Ct) (a b : Ct),
    a.hidden = v (fun i => (f (x i)).hidden) → b.hidden = v (fun i => (x i).hidden) → f a = f b

/-- Forgetting ciphertexts is uniform, since it keeps the hidden value and nothing else (R22). -/
theorem uniform_forgetBits : Uniform forgetBits := by
  intro ι v x a b ha hb
  have h : a.hidden = b.hidden := ha.trans hb.symm
  simp [forgetBits, h]

section
variable {f : Ct → Ct}

/-! What is the same up to `f` -/

theorem Uniform.idem (hf : Uniform f) (x : Ct) : f (f x) = f x := hf (fun v => v ()) (fun _ => x) _ _ rfl rfl

theorem Uniform.cell_idem (hf : Uniform f) : Option.map f ∘ Option.map f = Option.map f := by
  funext c; cases c <;> simp [hf.idem]

theorem Uniform.row_idem (hf : Uniform f) {n : Nat} :
    Vector.map (n := n) (Option.map f) ∘ Vector.map (Option.map f) = Vector.map (Option.map f) := by
  funext b; simp [hf.cell_idem]

theorem Uniform.response_idem (hf : Uniform f) : Response.mapCt f ∘ Response.mapCt f = Response.mapCt f := by
  funext r; simp [Response.mapCt, Function.comp_def, hf.idem]

theorem Uniform.event_idem (hf : Uniform f) : Event.mapCt f ∘ Event.mapCt f = Event.mapCt f := by
  funext ev; cases ev <;> simp [Event.mapCt, hf.idem]

/-- Replacing twice is replacing once. -/
theorem Uniform.state_idem (hf : Uniform f) (s : State) : (s.mapCt f).mapCt f = s.mapCt f := by
  simp [State.mapCt, hf.idem, hf.cell_idem, hf.row_idem, hf.response_idem, hf.event_idem]

variable (hf : Uniform f) (s : State)
include hf

theorem Uniform.effect_setB {e e' : Effect} {d : Fin 16} {x x' : Ct} (he : e.after = s.setB d x)
    (he' : e'.after = (s.mapCt f).setB d x') (hx : f x' = f x) (hl : e'.logs = e.logs) : e'.mapCt f = e.mapCt f := by
  simp [Effect.mapCt, he, he', hx, hl, hf.state_idem]

theorem Uniform.effect_withS {e e' : Effect} {g g' : Fin 4 → Fin 4 → Ct} (he : e.after = s.withS (matrixOf g))
    (he' : e'.after = (s.mapCt f).withS (matrixOf g')) (hg : ∀ r c, f (g' r c) = f (g r c)) (hl : e'.logs = e.logs) :
    e'.mapCt f = e.mapCt f := by
  simp [Effect.mapCt, he, he', hg, hl, hf.state_idem]

/-! The effects: each writes hidden values computed from hidden values, and issues what it issues anyway -/

theorem Uniform.enccEffect_mapCt (d : Fin 16) (imm : Byte) :
    (enccEffect (s.mapCt f) d imm).mapCt f = (enccEffect s d imm).mapCt f := by
  obtain ⟨y, hy, hv⟩ := enccEffect_after s d imm
  obtain ⟨y', hy', hv'⟩ := enccEffect_after (s.mapCt f) d imm
  exact hf.effect_setB s hy hy' (hf (fun _ => imm) Empty.elim _ _ hv' hv) rfl

theorem Uniform.sboxEffect_mapCt (d : Fin 16) (x : Ct) :
    (sboxEffect (s.mapCt f) d (f x)).mapCt f = (sboxEffect s d x).mapCt f := by
  obtain ⟨y, hy, hv⟩ := sboxEffect_after s d x
  obtain ⟨y', hy', hv'⟩ := sboxEffect_after (s.mapCt f) d (f x)
  exact hf.effect_setB s hy hy' (hf (fun v => sbox (v ())) (fun _ => x) _ _ hv' hv) (by simp [sboxEffect_logs])

theorem Uniform.gmulEffect_mapCt (d : Fin 16) (x : Ct) (k : Byte) :
    (gmulEffect (s.mapCt f) d (f x) k).mapCt f = (gmulEffect s d x k).mapCt f := by
  obtain ⟨y, hy, hv⟩ := gmulEffect_after s d x k
  obtain ⟨y', hy', hv'⟩ := gmulEffect_after (s.mapCt f) d (f x) k
  exact hf.effect_setB s hy hy' (hf (fun v => gfMul (v ()) k) (fun _ => x) _ _ hv' hv) (by simp [gmulEffect_logs])

/-- Combining two Encrypted Bytes (R15). -/
theorem Uniform.xor {x y a b : Ct} (ha : a.hidden = (f x).hidden ^^^ (f y).hidden)
    (hb : b.hidden = x.hidden ^^^ y.hidden) : f a = f b :=
  hf (fun v => v true ^^^ v false) (fun i => cond i x y) a b ha hb

theorem Uniform.xorbEffect_mapCt (d : Fin 16) (x y : Ct) :
    (xorbEffect (s.mapCt f) d (f x) (f y)).mapCt f = (xorbEffect s d x y).mapCt f := by
  obtain ⟨z, hz, hv⟩ := xorbEffect_after s d x y
  obtain ⟨z', hz', hv'⟩ := xorbEffect_after (s.mapCt f) d (f x) (f y)
  exact hf.effect_setB s hz hz' (hf.xor hv' hv) rfl

theorem Uniform.subEffect_mapCt (m : Fin 4 → Fin 4 → Ct) :
    (subEffect (s.mapCt f) fun r c => f (m r c)).mapCt f = (subEffect s m).mapCt f := by
  obtain ⟨g, hg, hv⟩ := subEffect_after s m
  obtain ⟨g', hg', hv'⟩ := subEffect_after (s.mapCt f) fun r c => f (m r c)
  exact hf.effect_withS s hg hg'
    (fun r c => hf (fun v => sbox (v ())) (fun _ => m r c) _ _ (hv' r c) (hv r c)) (by simp [subEffect_logs])

theorem Uniform.mixEffect_mapCt (m : Fin 4 → Fin 4 → Ct) :
    (mixEffect (s.mapCt f) fun r c => f (m r c)).mapCt f = (mixEffect s m).mapCt f := by
  obtain ⟨g, hg, hv⟩ := mixEffect_after s m
  obtain ⟨g', hg', hv'⟩ := mixEffect_after (s.mapCt f) fun r c => f (m r c)
  refine hf.effect_withS s hg hg' (fun r c => ?_) (by simp [mixEffect_logs])
  exact hf (fun v : Fin 4 → Byte => gfMul (v 0) (mixRow r)[0] ^^^ gfMul (v 1) (mixRow r)[1] ^^^ gfMul (v 2) (mixRow r)[2] ^^^
    gfMul (v 3) (mixRow r)[3]) (fun j => m j c) _ _ (hv' r c) (hv r c)

theorem Uniform.arkEffect_mapCt (key : Fin 16 → Ct) (m : Fin 4 → Fin 4 → Ct) :
    (arkEffect (s.mapCt f) (fun j => f (key j)) fun r c => f (m r c)).mapCt f = (arkEffect s key m).mapCt f := by
  obtain ⟨g, hg, hv⟩ := arkEffect_after s key m
  obtain ⟨g', hg', hv'⟩ := arkEffect_after (s.mapCt f) (fun j => f (key j)) fun r c => f (m r c)
  exact hf.effect_withS s hg hg' (fun r c => hf.xor (hv' r c) (hv r c)) (by simp [arkEffect_logs])

theorem Uniform.arkStoreEffect_mapCt (key : Fin 16 → Ct) (m : Fin 4 → Fin 4 → Ct) :
    (arkStoreEffect (s.mapCt f) (fun j => f (key j)) fun r c => f (m r c)).mapCt f =
      (arkStoreEffect s key m).mapCt f := by
  simp only [arkStoreEffect_eq, Effect.stored_mapCt, hf.arkEffect_mapCt]

theorem Uniform.shiftEffect_mapCt : (shiftEffect (s.mapCt f)).mapCt f = (shiftEffect s).mapCt f := by
  simp [shiftEffect, Effect.mapCt, hf.state_idem, hf.row_idem]

/-- The whole key expansion (R140). -/
theorem Uniform.expandEffect_mapCt (k : Fin 16 → Ct) :
    (expandEffect (s.mapCt f) fun j => f (k j)).mapCt f = (expandEffect s k).mapCt f := by
  obtain ⟨rk, hrk, hv⟩ := expandEffect_after s k
  obtain ⟨rk', hrk', hv'⟩ := expandEffect_after (s.mapCt f) fun j => f (k j)
  have hkey : ∀ n j, f (rk' n j) = f (rk n j) := fun n j =>
    hf (fun v => (hExpand (Vector.ofFn v))[n][j]) k _ _ (hv' n j) (hv n j)
  simp [Effect.mapCt, hrk, hrk', expandEffect_logs, hf.state_idem, Function.comp_def, hkey]

/-! Commands -/

omit hf in
theorem mapCt_next_congr {s t : State} (h : s.mapCt f = t.mapCt f) : Out.mapCt f (.next s) = Out.mapCt f (.next t) :=
  congrArg Host.Outcome.next h

theorem Uniform.gate_mapCt {body : State → Out} (h : Out.mapCt f (body (s.mapCt f)) = Out.mapCt f (body s)) :
    Out.mapCt f ((s.mapCt f).gate body) = Out.mapCt f (s.gate body) := by
  rcases State.gate_cases s body with ⟨hb, hg⟩ | ⟨hp, hg⟩ | ⟨hr, hg⟩ <;> rw [hg]
  · rw [State.gate_busy (s := s.mapCt f) hb]
    exact mapCt_next_congr (hf.state_idem s)
  · rw [State.gate_fault (s := s.mapCt f) hp]
    exact mapCt_next_congr (by simp [hf.state_idem])
  · rwa [State.gate_ready (s := s.mapCt f) hr]

theorem Uniform.reject_mapCt (code : Status) :
    Out.mapCt f (.next ((s.mapCt f).reject code)) = Out.mapCt f (.next (s.reject code)) :=
  mapCt_next_congr (by simp [hf.state_idem])

/-- A command does the same up to `f` whether or not the Encrypted Bytes were replaced before it. -/
theorem Uniform.exec_mapCt (i : Instr) : Out.mapCt f (exec i (s.mapCt f)) = Out.mapCt f (exec i s) := by
  cases i <;> simp only [exec]
  case nop | clrcnt => exact hf.gate_mapCt s (mapCt_next_congr (by simp [hf.state_idem]))
  case rdsr => exact mapCt_next_congr (by simp [hf.state_idem])
  case rdcnt k =>
    unfold execRdcnt
    cases counterIndex? k
    · exact hf.reject_mapCt s _
    · exact mapCt_next_congr (by simp [hf.state_idem])
  case srst =>
    unfold execSrst
    cases hb : s.busy
    · simpa [hb] using mapCt_next_congr (by simp [hf.state_idem])
    · simpa [hb] using mapCt_next_congr (hf.state_idem s)
  case put d | encc d imm =>
    refine hf.gate_mapCt s ?_
    cases bufferIndex? d
    · exact hf.reject_mapCt s _
    · exact mapCt_next_congr (by simp [hf.state_idem, hf.idem, hf.enccEffect_mapCt])
  case get j =>
    refine hf.gate_mapCt s ?_
    cases bufferIndex? j with
    | none => exact hf.reject_mapCt s _
    | some j =>
      simp only [State.mapCt_cell]
      cases s.B[j]
      · exact hf.reject_mapCt s _
      · exact mapCt_next_congr (by simp [hf.state_idem, hf.idem])
  case mov d j | sbox d j | gmul d j k =>
    refine hf.gate_mapCt s ?_
    cases bufferIndex? d with
    | none => exact hf.reject_mapCt s _
    | some d =>
      cases bufferIndex? j with
      | none => exact hf.reject_mapCt s _
      | some j =>
        simp only [State.mapCt_cell]
        cases s.B[j]
        · exact hf.reject_mapCt s _
        · exact mapCt_next_congr (by simp [hf.state_idem, hf.idem, hf.sboxEffect_mapCt, hf.gmulEffect_mapCt])
  case xorb d a b =>
    refine hf.gate_mapCt s ?_
    cases bufferIndex? d with
    | none => exact hf.reject_mapCt s _
    | some d =>
      cases bufferIndex? a with
      | none => exact hf.reject_mapCt s _
      | some a =>
        cases bufferIndex? b with
        | none => exact hf.reject_mapCt s _
        | some b =>
          simp only [State.mapCt_cell]
          cases s.B[a] with
          | none => exact hf.reject_mapCt s _
          | some x =>
            cases s.B[b]
            · exact hf.reject_mapCt s _
            · exact mapCt_next_congr (by simp [hf.state_idem, hf.xorbEffect_mapCt])
  case ldst | stst | shrow | keyexp =>
    refine hf.gate_mapCt s ?_
    simp only [State.mapCt_B, State.mapCt_S, blockFull_map, matrixFull_map]
    split
    · exact mapCt_next_congr (by simp [hf.state_idem, hf.cell_idem, hf.row_idem])
    · exact hf.reject_mapCt s _
  case subb | mixc =>
    refine hf.gate_mapCt s ?_
    simp only [State.mapCt_S, loadedMatrix?_map]
    cases loadedMatrix? s.S
    · exact hf.reject_mapCt s _
    · exact mapCt_next_congr (by simp [hf.state_idem, hf.subEffect_mapCt, hf.mixEffect_mapCt])
  case ark n =>
    refine hf.gate_mapCt s ?_
    cases roundKeyIndex? n with
    | none => exact hf.reject_mapCt s _
    | some n =>
      simp only [roundKey?_mapCt, State.mapCt_S, loadedMatrix?_map]
      cases roundKey? s n with
      | none => exact hf.reject_mapCt s _
      | some key =>
        cases loadedMatrix? s.S
        · exact hf.reject_mapCt s _
        · exact mapCt_next_congr (by simp [hf.state_idem, hf.arkEffect_mapCt])
  case rdrk n =>
    refine hf.gate_mapCt s ?_
    cases roundKeyIndex? n with
    | none => exact hf.reject_mapCt s _
    | some n =>
      simp only [roundKey?_mapCt]
      cases roundKey? s n
      · exact hf.reject_mapCt s _
      · exact mapCt_next_congr (by simp [hf.state_idem, hf.idem])
  case encblk =>
    refine hf.gate_mapCt s ?_
    simp only [State.mapCt_B, blockFull_map]
    split
    · cases hk : s.KEYV
      · simpa [hk] using hf.reject_mapCt s .noKey
      · simpa [hk] using mapCt_next_congr (by simp [hf.state_idem])
    · exact hf.reject_mapCt s _

theorem Uniform.runCommand_mapCt (w : Word) :
    Out.mapCt f (runCommand w (s.mapCt f)) = Out.mapCt f (runCommand w s) := by
  unfold runCommand
  cases decode w with
  | ok i => exact hf.exec_mapCt s i
  | error e => exact mapCt_next_congr (by simp [hf.state_idem])

/-! The sequencer -/

/-- What a sequencer step finds and writes is the same up to `f` (R158). -/
theorem Uniform.workEffect_mapCt (w : Work) :
    (workEffect w (s.mapCt f)).map (Effect.mapCt f) = (workEffect w s).map (Effect.mapCt f) := by
  cases w <;> simp only [workEffect, State.mapCt_B, State.mapCt_S, State.mapCt_ROUND, fromBlock_map, stepKey?_mapCt,
    loadedMatrix?_map, loadedBlock?_map, matrixFull_map]
  case loadArk =>
    cases loadedMatrix? (fromBlock s.B) with
    | none => rfl
    | some m =>
      cases stepKey? s 0
      · rfl
      · exact congrArg some (hf.arkEffect_mapCt s _ m)
  case sub | mix =>
    cases loadedMatrix? s.S
    · rfl
    · simp [hf.subEffect_mapCt, hf.mixEffect_mapCt]
  case shr =>
    split
    · exact congrArg some (hf.shiftEffect_mapCt s)
    · rfl
  case ark | arkStore =>
    cases loadedMatrix? s.S with
    | none => rfl
    | some m =>
      cases stepKey? s s.ROUND
      · rfl
      · simp [hf.arkEffect_mapCt, hf.arkStoreEffect_mapCt]
  case expand =>
    cases loadedBlock? s.B
    · rfl
    · exact congrArg some (hf.expandEffect_mapCt s _)

theorem Uniform.sequencer_mapCt : Out.mapCt f (sequencer (s.mapCt f)) = Out.mapCt f (sequencer s) := by
  cases hb : s.busy with
  | false =>
    rw [sequencer_not_busy hb, sequencer_not_busy (s := s.mapCt f) hb]
    exact mapCt_next_congr (hf.state_idem s)
  | true =>
    simp only [sequencer, State.busy_mapCt, hb, if_true, State.mapCt_PHASE, State.mapCt_ROUND, State.mapCt_STAGE]
    cases program s.PHASE s.ROUND s.STAGE with
    | none => rfl
    | some row =>
      obtain ⟨w, p, n, g⟩ := row
      have hw := hf.workEffect_mapCt s w
      cases he : workEffect w s with
      | none =>
        have he' : workEffect w (s.mapCt f) = none := by simpa [he] using hw
        simp only [he, he']
      | some e =>
        obtain ⟨e', he', hm⟩ : ∃ e', workEffect w (s.mapCt f) = some e' ∧ e'.mapCt f = e.mapCt f := by
          simpa [he] using hw
        simp only [he, he']
        exact mapCt_next_congr (by simp [hm, hf.state_idem])

/-! The step -/

/-- A step does the same up to `f` whether or not the Encrypted Bytes were replaced before it. -/
theorem Uniform.step_mapCt : Out.mapCt f (step (s.mapCt f)) = Out.mapCt f (step s) := by
  by_cases hr : s.script.head? = some .hardReset
  · obtain ⟨es, hs⟩ := List.head?_eq_some_iff.mp hr
    rw [step_hardReset hs, step_hardReset (s := s.mapCt f) (congrArg (List.map (Event.mapCt f)) hs)]
    exact mapCt_next_congr (by simp [hf.state_idem, hf.event_idem])
  · cases hc : s.cmd with
    | some w =>
      rw [step_waiting hr hc, step_waiting (s := s.mapCt f) (mt (State.hardReset_next_mapCt f s).mp hr) hc,
        ← State.yieldTurn_mapCt]
      cases ha : s.accepts w
      · simpa [ha] using hf.sequencer_mapCt s.yieldTurn
      · simpa [ha] using hf.runCommand_mapCt s w
    | none =>
      rcases hs : s.script with _ | ⟨ev, es⟩
      · rw [step_idle hs hc, step_idle (s := s.mapCt f) (congrArg (List.map (Event.mapCt f)) hs) hc]
        exact hf.sequencer_mapCt s
      · have hs' : (s.mapCt f).script = ev.mapCt f :: es.map (Event.mapCt f) := congrArg (List.map (Event.mapCt f)) hs
        cases ev with
        | hardReset => exact absurd (by simp [hs]) hr
        | present w din =>
          rw [step_present hs hc, step_present hs' hc, ← State.withScript_mapCt, ← State.present_mapCt]
          cases ha : s.accepts w
          · simpa [ha] using mapCt_next_congr (hf.state_idem ((s.withScript es).present w din))
          · simpa [ha] using hf.runCommand_mapCt ((s.withScript es).present w din) w
        | sequencer =>
          rw [step_yields hs hc, step_yields hs' hc, ← State.withScript_mapCt]
          exact hf.sequencer_mapCt _

/-- States that are the same up to `f` are taken to states that are the same up to `f`. -/
theorem Uniform.step_congr {s t : State} (h : s.mapCt f = t.mapCt f) : Out.mapCt f (step s) = Out.mapCt f (step t) := by
  rw [← hf.step_mapCt s, h, hf.step_mapCt t]

end

/-- Settles O60: forgetting ciphertexts is uniform, and a step respects every uniform replacement. -/
theorem hiddenValuesAreDeterministic : Obligations.HiddenValuesAreDeterministic := fun _ _ h =>
  uniform_forgetBits.step_congr h

end Sys2Proof.Machine
end

section
/-! What the eight registers say of a step: the fields of the state that the invariant speaks of, and which of them each
agent's turn can touch (spec/10_state.md R30, R45 to R48). -/
namespace Sys2Proof.Machine

/-- The registers alone: counters, command port and outside stand as at reset. -/
def State.registers (s : State) : State :=
  { State.reset with
    B := s.B, S := s.S, RK := s.RK, KEYV := s.KEYV, ERR := s.ERR, PHASE := s.PHASE, ROUND := s.ROUND, STAGE := s.STAGE }

theorem State.registers_yieldTurn (s : State) : s.yieldTurn.registers = s.registers := by simp [State.registers]

theorem State.ERR_of_registers {s t : State} (h : t.registers = s.registers) : t.ERR = s.ERR :=
  (congrArg State.ERR h : t.registers.ERR = s.registers.ERR)

theorem State.PHASE_of_registers {s t : State} (h : t.registers = s.registers) : t.PHASE = s.PHASE :=
  (congrArg State.PHASE h : t.registers.PHASE = s.registers.PHASE)

theorem State.KEYV_of_registers {s t : State} (h : t.registers = s.registers) : t.KEYV = s.KEYV :=
  (congrArg State.KEYV h : t.registers.KEYV = s.registers.KEYV)

/-- What a step that answers has done: hard reset, or from the registers as they were an accepted word was run, or none
was and the registers are kept or the sequencer had its turn. -/
theorem step_next {s t : State} (h : step s = .next t) :
    (∃ es : List Event, s.script = .hardReset :: es ∧ t = hardReset (s.withScript es)) ∨
    s.script.head? ≠ some .hardReset ∧ ∃ u : State, u.registers = s.registers ∧
      ((∃ w : Word, s.served = some w ∧ u.accepts w = true ∧ runCommand w u = .next t) ∨
        s.served = none ∧ (t = u ∨ sequencer u = .next t)) := by
  rcases step_cases s with ⟨es, hs, he⟩ | ⟨w, hw, hr, ha, ⟨-, he⟩ | ⟨din, es, -, -, he⟩⟩ |
    ⟨hw, w, din, es, hs, -, -, he⟩ | ⟨hw, hr, he⟩ <;> rw [h] at he
  · exact .inl ⟨es, hs, Host.Outcome.next.inj he⟩
  · exact .inr ⟨hr, s, rfl, .inl ⟨w, hw, ha, he.symm⟩⟩
  · exact .inr ⟨hr, (s.withScript es).present w din, rfl, .inl ⟨w, hw, ha, he.symm⟩⟩
  · exact .inr ⟨by simp [hs], t, Host.Outcome.next.inj he ▸ rfl, .inr ⟨hw, .inl rfl⟩⟩
  · exact .inr ⟨hr, s.yieldTurn, s.registers_yieldTurn, .inr ⟨hw, .inr he.symm⟩⟩

/-- What a turn of the sequencer that answers has done: nothing, the fault, or the work of its position. -/
theorem sequencer_next {s t : State} (h : sequencer s = .next t) :
    t = s ∨ (s.busy = true ∧ t = s.takeFault.tick) ∨
    ∃ (w : Work) (p : Phase) (n : Round) (g : Stage) (e : Effect), program s.PHASE s.ROUND s.STAGE = some (w, p, n, g) ∧
      workEffect w s = some e ∧ t = State.afterWork w e p n g := by
  rcases sequencer_cases s with ⟨-, he⟩ | ⟨-, -, he⟩ | ⟨w, p, n, g, hb, hp, ⟨-, he⟩ | ⟨e, hw, ⟨-, he⟩ | ⟨-, he⟩⟩⟩ <;>
    rw [h] at he
  · exact .inl (Host.Outcome.next.inj he)
  · cases he
  · cases he
  · exact .inr (.inl ⟨hb, Host.Outcome.next.inj he⟩)
  · exact .inr (.inr ⟨w, p, n, g, e, hp, hw, Host.Outcome.next.inj he⟩)

/-- What a command that answers has left. -/
theorem exec_next {i : Instr} {s t : State} (h : exec i s = .next t) : Did i s t := by
  obtain ⟨u, hu, hd⟩ := exec_did i s
  rw [h] at hu
  exact Host.Outcome.next.inj hu ▸ hd

/-- Where the sequencer's program leads: to a listed position, not into the fault, into `IDLE` by the key expansion and
into no other expansion. -/
theorem program_leads {P : Phase} {R : Round} {G : Stage} {w : Work} {p : Phase} {n : Round} {g : Stage}
    (h : program P R G = some (w, p, n, g)) :
    legalPosition p n g = true ∧ p ≠ .fault ∧ p ≠ .keyx ∧ P ≠ .fault ∧ (w = .expand ↔ P = .keyx) ∧
      (w = .expand ↔ p = .idle) := by
  have hrow := program_row h
  simp only [programRow, Bool.and_eq_true, decide_eq_true_eq] at hrow
  obtain ⟨⟨⟨⟨⟨⟨⟨⟨⟨⟨⟨hpos, hfault⟩, hkeyx⟩, hbusy⟩, -⟩, -⟩, hfrom⟩, -⟩, hto⟩, -⟩, -⟩, -⟩ := hrow
  exact ⟨hpos, hfault, hkeyx, fun hP => by simp [hP, Phase.busy] at hbusy, hfrom, hto⟩

/-- What the data of a sequencer step leave: the position, the error and, but for the key expansion, the key. -/
theorem workEffect_keeps {w : Work} {s : State} {e : Effect} (h : workEffect w s = some e) :
    e.after.PHASE = s.PHASE ∧ e.after.ERR = s.ERR ∧ e.after.KEYV = (decide (w = .expand) || s.KEYV) := by
  rcases workEffect_writes h with ⟨-, hw, m, -, he⟩ | ⟨hw, m, -, he⟩ | ⟨hw, rk, -, he⟩ <;> simp [he, hw]

end Sys2Proof.Machine
end

section
/-! The invariant of the machine (spec/10_state.md R34, R35, R45 to R48, spec/44_round_pipeline.md R146, R147,
spec/60_exceptions.md R177): each update of the state keeps it under its own conditions, and so each agent's turn does. -/
namespace Sys2Proof.Machine

theorem Phase.busy_of_inRun {p : Phase} : p.inRun = true → p.busy = true := by
  cases p <;> simp [Phase.inRun, Phase.busy]

theorem Phase.inRun_of_afterLoad {p : Phase} : p.afterLoad = true → p.inRun = true := by
  cases p <;> simp [Phase.inRun, Phase.afterLoad]

theorem State.busy_of_keyx {s : State} (h : s.PHASE = .keyx) : s.busy = true := by simp [State.busy, h, Phase.busy]

/-- A position outside phase `FAULT` is a listed one of phase `FAULT` too (R177). -/
theorem legalPosition_fault {p : Phase} {n : Round} {g : Stage} (h : legalPosition p n g = true) :
    legalPosition .fault n g = true := by
  by_cases hp : p = .fault
  · rwa [hp] at h
  · rw [legalPosition, if_neg hp] at h
    rw [legalPosition, if_pos rfl, List.any_eq_true]
    exact ⟨p, by cases p <;> simp_all [runningPhases], h⟩

/-- After the first error `SR.ERR` is nonzero. -/
theorem latch_ne_ok {old code : Status} (h : code ≠ .ok) : latch old code ≠ .ok := by
  unfold latch
  split <;> assumption

/-- Settles O57: at reset every cell is empty and the position is `IDLE`. -/
theorem resetHasTheInvariant : Obligations.ResetHasTheInvariant where
  errCode := nofun
  position := rfl
  keyWhole := nofun
  keyNone := fun _ n => by simp [State.reset]
  matrixWhole := .inr rfl
  runLoaded := nofun
  runMatrix := nofun
  keyLoaded := nofun
  faultEmpty := nofun

theorem State.inv_registers (s : State) : s.registers.Inv ↔ s.Inv :=
  ⟨fun h => { __ := h }, fun h => { __ := h }⟩

/-- The invariant speaks of the registers alone. -/
theorem State.Inv.of_registers {s t : State} (h : s.Inv) (e : t.registers = s.registers) : t.Inv :=
  t.inv_registers.mp (e ▸ s.inv_registers.mpr h)

section
variable {s : State} (h : s.Inv)
include h

/-- An error other than `FAULTED` is latched (R45). -/
theorem State.Inv.latchErr {code : Status} (hc : code ≠ .faulted) : (s.latchErr code).Inv where
  __ := h
  errCode := by
    rw [State.latchErr_ERR, latch]
    split
    · exact hc
    · exact h.errCode
  faultEmpty hf := by
    obtain ⟨hB, hS, hk, he⟩ := h.faultEmpty hf
    exact ⟨hB, hS, hk, by rwa [State.latchErr_ERR, latch, if_neg he]⟩

theorem State.Inv.reject {code : Status} (hc : code ≠ .faulted) : (s.reject code).Inv :=
  (h.latchErr hc).of_registers rfl

/-- The fault leaves nothing to hold but a latched error and the position that failed (R177). -/
theorem State.Inv.takeFault : s.takeFault.Inv where
  errCode := (h.latchErr (code := .primFail) nofun).errCode
  position := legalPosition_fault h.position
  keyWhole := nofun
  keyNone := fun _ n => by simp
  matrixWhole := .inr rfl
  runLoaded := nofun
  runMatrix := nofun
  keyLoaded := nofun
  faultEmpty := fun _ => ⟨rfl, rfl, rfl, latch_ne_ok nofun⟩

/-- Outside the fault the block may be written, as a whole while the sequencer reads it. -/
theorem State.Inv.withB {b : Block} (hf : s.PHASE ≠ .fault) (hb : s.busy = true → blockFull b = true) :
    (s.withB b).Inv where
  __ := h
  runLoaded hr := ⟨(h.runLoaded hr).1, hb (Phase.busy_of_inRun hr)⟩
  keyLoaded hx := ⟨hb (State.busy_of_keyx hx), (h.keyLoaded hx).2⟩
  faultEmpty hx := absurd hx hf

theorem State.Inv.setB {d : Fin 16} {x : Ct} (hr : s.ready) : (s.setB d x).Inv :=
  h.withB (State.ready_not_fault hr) (absurd · (ne_true_of_eq_false (State.ready_not_busy hr)))

/-- Outside the fault the matrix may be written as a whole (R105). -/
theorem State.Inv.withS {m : Matrix} (hf : s.PHASE ≠ .fault) (hm : matrixFull m = true) : (s.withS m).Inv where
  __ := h
  matrixWhole := .inl hm
  runMatrix _ := hm
  faultEmpty hx := absurd hx hf

/-- In phases `IDLE` and `DONE` the key may be written, whole with `KEYV` or emptied without (R35). -/
theorem State.Inv.withKey {rk : Vector Block 11} {v : Bool} (hr : s.ready)
    (hw : v = true → ∀ n : Fin 11, blockFull rk[n] = true) (hn : v = false → ∀ n : Fin 11, rk[n] = emptyBlock) :
    (s.withKey rk v).Inv where
  __ := h
  keyWhole := hw
  keyNone := hn
  runLoaded hx := absurd (Phase.busy_of_inRun hx) (ne_true_of_eq_false (State.ready_not_busy hr))
  keyLoaded hx := absurd (State.busy_of_keyx hx) (ne_true_of_eq_false (State.ready_not_busy hr))
  faultEmpty hx := absurd hx (State.ready_not_fault hr)

/-- The sequencer may move to a listed position for which the cells are there (R46, R147). -/
theorem State.Inv.moveTo {p : Phase} {n : Round} {g : Stage} (hpos : legalPosition p n g = true) (hf : p ≠ .fault)
    (hrun : p.inRun = true → s.KEYV = true ∧ blockFull s.B = true) (hmat : p.afterLoad = true → matrixFull s.S = true)
    (hkey : p = .keyx → blockFull s.B = true ∧ s.KEYV = false) : (s.moveTo p n g).Inv where
  __ := h
  position := hpos
  runLoaded := hrun
  runMatrix := hmat
  keyLoaded := hkey
  faultEmpty hx := absurd hx hf

/-! The agents' turns -/

/-- What a command leaves has the invariant. -/
theorem State.Inv.did {i : Instr} {t : State} (hd : Did i s t) : t.Inv := by
  cases hd with
  | waits => exact h
  | answers | faulted => exact h.of_registers rfl
  | rejects code _ hc => exact h.reject hc
  | fails => exact h.takeFault.of_registers rfl
  | cell hr d x => exact (h.setB (d := d) (x := x) hr).of_registers rfl
  | block hr _ b hb => exact (h.withB (State.ready_not_fault hr) fun _ => hb).of_registers rfl
  | matrix hr m hm => exact (h.withS (State.ready_not_fault hr) hm).of_registers rfl
  | clears => exact h.of_registers rfl
  | resets => exact resetHasTheInvariant.of_registers rfl
  | startsKeyx _ hr hb =>
    have hk := h.withKey (rk := Vector.replicate 11 emptyBlock) (v := false) hr nofun fun _ n => by simp
    exact (hk.moveTo (p := .keyx) (n := 0) (g := .sub) rfl nofun nofun nofun fun _ => ⟨hb, rfl⟩).of_registers rfl
  | startsRun _ hr hb hk =>
    exact (h.moveTo (p := .load) (n := 0) (g := .ark) rfl nofun (fun _ => ⟨hk, hb⟩) nofun nofun).of_registers rfl

/-- What an accepted word leaves has the invariant. -/
theorem State.Inv.runCommand {w : Word} {t : State} (ht : runCommand w s = .next t) : t.Inv := by
  rcases runCommand_cases w s with ⟨i, -, hi⟩ | ⟨e, -, ⟨-, he⟩ | he⟩
  · exact h.did (exec_next (hi ▸ ht))
  · cases he.symm.trans ht
    exact h.of_registers rfl
  · cases he.symm.trans ht
    exact h.reject nofun

/-- The data of a step of a run keep the invariant at the step's own position and leave the matrix whole. -/
theorem State.Inv.after_workEffect {w : Work} {e : Effect} (hf : s.PHASE ≠ .fault) (he : workEffect w s = some e)
    (hw : w ≠ .expand) : e.after.Inv ∧ matrixFull e.after.S = true := by
  rcases workEffect_writes he with ⟨-, -, m, hm, ha⟩ | ⟨-, m, hm, ha⟩ | ⟨hw', -⟩
  · exact ha ▸ ⟨h.withS hf hm, hm⟩
  · exact ha ▸ ⟨(h.withS hf hm).withB hf fun _ => blockFull_toBlock hm, hm⟩
  · exact absurd hw' hw

/-- What the work of a listed position leaves, the position advanced, has the invariant. -/
theorem State.Inv.afterWork {w : Work} {p : Phase} {n : Round} {g : Stage} {e : Effect}
    (hp : program s.PHASE s.ROUND s.STAGE = some (w, p, n, g)) (he : workEffect w s = some e) :
    (State.afterWork w e p n g).Inv := by
  obtain ⟨hpos, hpf, hpx, hf, -, hidle⟩ := program_leads hp
  by_cases hw : w = .expand
  · have hnew : p = .idle := hidle.mp hw
    obtain ⟨rk, hrk, ha⟩ : ∃ rk : Vector Block 11, (∀ n : Fin 11, blockFull rk[n] = true) ∧
        e.after = s.withKey rk true := by
      rcases workEffect_writes he with ⟨-, hx, -⟩ | ⟨hx, -⟩ | ⟨-, hkey⟩
      · exact absurd hw hx
      · cases hw.symm.trans hx
      · exact hkey
    have hmove := h.moveTo hpos hpf (by simp [hnew, Phase.inRun]) (by simp [hnew, Phase.afterLoad]) (absurd · hpx)
    have hkey := hmove.withKey (v := true) (.inl hnew) (fun _ => hrk) nofun
    exact hkey.of_registers (by rw [State.afterWork, ha]; rfl)
  · obtain ⟨-, -, hrun, -⟩ := program_reads hp
    obtain ⟨hinv, hm⟩ := h.after_workEffect hf he hw
    obtain ⟨hphase, -, -⟩ := workEffect_keeps he
    have hmove := hinv.moveTo hpos hpf (fun _ => hinv.runLoaded (hphase ▸ hrun hw)) (fun _ => hm) (absurd · hpx)
    exact hmove.of_registers rfl

/-- What the sequencer's turn leaves has the invariant. -/
theorem State.Inv.sequencer {t : State} (ht : sequencer s = .next t) : t.Inv := by
  rcases sequencer_next ht with rfl | ⟨-, rfl⟩ | ⟨w, p, n, g, e, hp, he, rfl⟩
  · exact h
  · exact h.takeFault.of_registers rfl
  · exact h.afterWork hp he

end

/-- Settles O56: whichever agent moves, its turn keeps the invariant. -/
theorem stepKeepsTheInvariant : Obligations.StepKeepsTheInvariant := by
  intro s t h ht
  rcases step_next ht with ⟨es, -, rfl⟩ | ⟨-, u, hu, ⟨w, -, -, hw⟩ | ⟨-, rfl | hs⟩⟩
  · exact resetHasTheInvariant.of_registers rfl
  · exact (h.of_registers hu).runCommand hw
  · exact h.of_registers hu
  · exact (h.of_registers hu).sequencer hs

end Sys2Proof.Machine
end

section
/-! The status register, and the state at reset (spec/10_state.md R43, R44, R52, spec/60_exceptions.md R184). -/
namespace Sys2Proof.Machine

/-- The busy phases are all but three (R44). -/
theorem Phase.busy_eq (p : Phase) : p.busy = decide (p ≠ .idle ∧ p ≠ .done ∧ p ≠ .fault) := by cases p <;> rfl

/-- The fields of `SR` at their bits (R43). -/
theorem State.srWord_fields (s : State) :
    s.srWord.extractLsb' 0 1 = BitVec.ofBool s.busy ∧ s.srWord.extractLsb' 1 1 = BitVec.ofBool s.KEYV ∧
    s.srWord.extractLsb' 2 2 = 0 ∧ s.srWord.extractLsb' 4 4 = s.ERR.code ∧ s.srWord.extractLsb' 8 3 = s.PHASE.code ∧
    s.srWord.extractLsb' 11 1 = 0 ∧ s.srWord.extractLsb' 12 4 = s.ROUND ∧ s.srWord.extractLsb' 16 2 = s.STAGE.code ∧
    s.srWord.extractLsb' 18 14 = 0 := by
  refine ⟨?_, ?_, ?_, ?_, ?_, ?_, ?_, ?_, ?_⟩ <;>
  · refine BitVec.eq_of_getLsbD_eq fun i hi => ?_
    simp (disch := omega) only [State.srWord, BitVec.getLsbD_extractLsb', BitVec.getLsbD_append, if_pos, if_neg,
      Nat.sub_sub]
    simp [hi]

theorem State.doneO_iff (s : State) : s.doneO = true ↔ s.PHASE = .idle ∨ s.PHASE = .done := by simp [State.doneO]

theorem State.faultO_iff (s : State) : s.faultO = true ↔ s.PHASE = .fault := by simp [State.faultO]

/-- Settles O15: the fields of `srWord` at their bits, the outputs read from the phase, and the code tables. -/
theorem statusWordLayout : Obligations.StatusWordLayout := by
  refine ⟨fun s => ?_, by decide, by decide, by decide, rfl, rfl⟩
  obtain ⟨hbusy, hkeyv, hlow, herr, hphase, hmid, hround, hstage, hhigh⟩ := s.srWord_fields
  rw [State.busy, Phase.busy_eq] at hbusy
  exact ⟨hbusy, hkeyv, hlow, herr, hphase, hmid, hround, hstage, hhigh, s.doneO_iff, s.faultO_iff⟩

/-- Settles O10: field by field. -/
theorem resetStateIsEmpty : Obligations.ResetStateIsEmpty :=
  ⟨by simp [State.reset, emptyBlock], by simp [State.reset, emptyMatrix], by simp [State.reset, emptyBlock], rfl, rfl, rfl,
    rfl, rfl, rfl, by simp [State.reset], rfl, rfl⟩

end Sys2Proof.Machine
end

section
/-! Which served words reset the machine, and what the others leave of the position, the first error and the key
(spec/10_state.md R45, R46, R48). -/
namespace Sys2Proof

/-- A legal word is the encoding of its command (R87). -/
theorem encode_of_decode {w : Word} {i : Instr} (h : decode w = .ok i) : encode i = w := by
  rw [← wordOf_fields w]
  rw [decode_fields] at h
  generalize opcodeOf w = o, fieldA w = a, fieldB w = b, fieldC w = c at h ⊢
  simp only [decodeFields] at h
  revert h
  iterate 21
    apply decode_ite
    · intro ho h
      simp only [ifZero_ok, Except.ok.injEq, Bool.and_eq_true, beq_iff_eq, @eq_comm _ _ i] at h
      simp_all [encode]
    intro _
  exact nofun

/-- The opcodes of `RDSR` and `RDCNT` are theirs alone (R82 (a)). -/
theorem decode_statusRead {w : Word} {i : Instr} (h : decode w = .ok i) (ho : opcodeOf w = 0x01 ∨ opcodeOf w = 0x02) :
    i = .rdsr ∨ ∃ k : Byte, i = .rdcnt k := by
  rw [← encode_of_decode h] at ho
  cases i <;> simp [encode] at ho ⊢

end Sys2Proof
namespace Sys2Proof.Machine

/-! Which steps reset the machine -/

theorem exec_srst {s : State} (hb : s.busy = false) : exec .srst s = .next s.toReset.accept := by
  simp [exec, execSrst, hb]

/-- While busy `SRST` is not accepted (R82, R196). -/
theorem State.not_busy_of_accepts_srst {s : State} {w : Word} (ha : s.accepts w = true) (hw : decode w = .ok .srst) :
    s.busy = false := by
  rw [State.accepts_iff, ← encode_of_decode hw] at ha
  simpa [encode] using ha

theorem State.resets_hardReset {s : State} {es : List Event} (h : s.script = .hardReset :: es) : s.resets = true := by
  simp [State.resets, h]

theorem State.resets_unserved {s : State} (hr : s.script.head? ≠ some .hardReset) (hw : s.served = none) :
    s.resets = false := by
  simp [State.resets, hr, hw]

theorem State.resets_served {s : State} {w : Word} (hr : s.script.head? ≠ some .hardReset) (hw : s.served = some w) :
    s.resets = true ↔ decode w = .ok .srst := by
  have hsrst : decode w = .ok .srst ↔ w = 0x04000000 :=
    ⟨fun h => (encode_of_decode h).symm, fun h => h ▸ rfl⟩
  simp [State.resets, hr, hw, hsrst]

/-! The position -/

/-- Settles O54: of what a command can leave, only the fault, reset and the two starts of the sequencer are elsewhere. -/
theorem commandsKeepThePosition : Obligations.CommandsKeepThePosition := by
  intro i s t hencblk hkeyexp hsrst h
  cases exec_next h with
  | waits | answers | faulted | rejects | cell | block | matrix | clears => exact ⟨rfl, rfl, .inl rfl⟩
  | fails => exact ⟨rfl, rfl, .inr rfl⟩
  | resets hi => exact absurd hi hsrst
  | startsKeyx hi => exact absurd hi hkeyexp
  | startsRun hi => exact absurd hi hencblk

/-! The first error -/

/-- The transaction is answered, and `SR.ERR` has latched its status where that is an error other than `FAULTED` (R45). -/
def Latches (s t : State) : Prop :=
  ∃ r : Response, t.resp = some r ∧ t.ERR = latch s.ERR (if r.status = .faulted then .ok else r.status)

/-- Only an error is latched. -/
@[simp] theorem latch_ok (old : Status) : latch old .ok = old := by
  unfold latch
  split <;> simp [*]

theorem latches_answer_ok {s t : State} {data : Word} {dout : Option Ct} (h : t.ERR = s.ERR) :
    Latches s (t.answer .ok data dout) := ⟨_, rfl, by simpa using h⟩

theorem latches_answer_faulted (s : State) : Latches s (s.answer .faulted 0 none) := ⟨_, rfl, by simp⟩

theorem latches_reject (s : State) {code : Status} (h : code ≠ .faulted) : Latches s (s.reject code) :=
  ⟨_, rfl, by simp [h]⟩

theorem latches_fails (s : State) : Latches s (s.takeFault.answer .primFail 0 none) := ⟨_, rfl, by simp⟩

theorem Did.latches {i : Instr} {s t : State} (hd : Did i s t) (hi : i ≠ .srst) (hb : s.busy = false) : Latches s t := by
  cases hd with
  | waits h => exact absurd h (by simp [hb])
  | faulted => exact latches_answer_faulted s
  | rejects code _ hc => exact latches_reject s hc
  | fails => exact latches_fails s
  | resets h => exact absurd h hi
  | answers | cell | block | matrix | clears | startsKeyx | startsRun => exact latches_answer_ok rfl

/-- `RDSR` and `RDCNT` are answered in every phase (R82 (a)). -/
theorem exec_statusRead_latches {i : Instr} {s t : State} (hi : i = .rdsr ∨ ∃ k : Byte, i = .rdcnt k)
    (h : exec i s = .next t) : Latches s t := by
  rcases hi with rfl | ⟨k, rfl⟩
  · cases h
    exact latches_answer_ok rfl
  · simp only [exec, execRdcnt] at h
    split at h <;> cases h
    · exact latches_reject s nofun
    · exact latches_answer_ok rfl

/-- An accepted word that does not reset the machine is answered, and its error latched. -/
theorem runCommand_latches {w : Word} {s t : State} (ha : s.accepts w = true) (hw : decode w ≠ .ok .srst)
    (h : runCommand w s = .next t) : Latches s t := by
  rcases runCommand_cases w s with ⟨i, hi, he⟩ | ⟨e, -, ⟨-, he⟩ | he⟩
  · have hx : exec i s = .next t := he.symm.trans h
    rcases (s.accepts_iff w).mp ha with hb | ho
    · exact (exec_next hx).latches (fun hs => hw (hs ▸ hi)) hb
    · exact exec_statusRead_latches (decode_statusRead hi ho) hx
  · cases he.symm.trans h
    exact latches_answer_faulted s
  · cases he.symm.trans h
    exact latches_reject s nofun

/-- What the sequencer's turn leaves of the first error: `PRIM_FAIL` is latched where the step fails, and nothing else. -/
theorem sequencer_latches {s t : State} (h : sequencer s = .next t) :
    t.ERR = latch s.ERR (if s.PHASE ≠ .fault ∧ t.PHASE = .fault then .primFail else .ok) := by
  rcases sequencer_next h with rfl | ⟨hb, rfl⟩ | ⟨w, p, n, g, e, hp, he, rfl⟩
  · simp
  · have hf : s.PHASE ≠ .fault := fun hf => by simp [State.busy, hf, Phase.busy] at hb
    simp [hf]
  · obtain ⟨-, hpf, -⟩ := program_leads hp
    obtain ⟨-, herr, -⟩ := workEffect_keeps he
    simp [State.afterWork, hpf, herr]

/-- Settles O52: each agent's turn latches, and latching keeps an error that is there. -/
theorem firstErrorIsKept : Obligations.FirstErrorIsKept := by
  refine ⟨rfl, fun s t hreset ht => ?_⟩
  have keep : ∀ {code : Status}, t.ERR = latch s.ERR code →
      (s.ERR ≠ .ok → t.ERR = s.ERR) ∧ (s.ERR = .ok → t.ERR = code) := fun h => by
    rw [h, latch]
    exact ⟨fun h => if_neg h, fun h => if_pos h⟩
  rcases step_next ht with ⟨es, hs, -⟩ | ⟨hr, u, hu, ⟨w, hw, ha, hrun⟩ | ⟨hw, hseq⟩⟩
  · exact absurd (State.resets_hardReset hs) (by simp [hreset])
  · have hsrst : decode w ≠ .ok .srst := fun h => by simp [(State.resets_served hr hw).mpr h] at hreset
    obtain ⟨r, hresp, herr⟩ := runCommand_latches ha hsrst hrun
    rw [State.ERR_of_registers hu] at herr
    refine ⟨(keep herr).1, fun hok => ⟨fun w' r' _ hr' => ?_, fun hnone => by simp [hw] at hnone⟩⟩
    cases hresp.symm.trans hr'
    exact (keep herr).2 hok
  · have herr : t.ERR = latch s.ERR (if s.PHASE ≠ .fault ∧ t.PHASE = .fault then .primFail else .ok) := by
      rw [← State.ERR_of_registers hu, ← State.PHASE_of_registers hu]
      rcases hseq with rfl | hseq
      · simp
      · exact sequencer_latches hseq
    exact ⟨(keep herr).1, fun hok => ⟨fun w' r' hsome _ => by simp [hw] at hsome, fun _ => (keep herr).2 hok⟩⟩

/-! The expanded key -/

/-- A turn that leaves `KEYV`, and does not leave the key expansion. -/
def KeepsKey (s t : State) : Prop := t.KEYV = s.KEYV ∧ (s.PHASE = .keyx → t.PHASE = .keyx)

/-- What a command that does not reset can do to `KEYV`. -/
theorem Did.key {i : Instr} {s t : State} (hd : Did i s t) (hi : i ≠ .srst) :
    KeepsKey s t ∨ (t.KEYV = false ∧ t.PHASE = .fault) ∨ (i = .keyexp ∧ t.KEYV = false ∧ t.PHASE = .keyx) := by
  cases hd with
  | waits | answers | faulted | rejects | cell | block | matrix | clears => exact .inl ⟨rfl, id⟩
  | fails => exact .inr (.inl ⟨rfl, rfl⟩)
  | resets h => exact absurd h hi
  | startsKeyx h => exact .inr (.inr ⟨h, rfl, rfl⟩)
  | startsRun _ hr =>
    exact .inl ⟨rfl, fun hx => absurd (State.busy_of_keyx hx) (ne_true_of_eq_false (State.ready_not_busy hr))⟩

/-- What an accepted word that does not reset can do to `KEYV`. -/
theorem runCommand_key {w : Word} {s t : State} (hw : decode w ≠ .ok .srst) (h : runCommand w s = .next t) :
    KeepsKey s t ∨ (t.KEYV = false ∧ t.PHASE = .fault) ∨ (w = 0x40000000 ∧ t.KEYV = false ∧ t.PHASE = .keyx) := by
  rcases runCommand_cases w s with ⟨i, hi, he⟩ | ⟨e, -, ⟨-, he⟩ | he⟩
  · have hd := exec_next (he.symm.trans h)
    refine (hd.key fun hs => hw (hs ▸ hi)).imp_right (Or.imp_right fun ⟨hk, ht⟩ => ⟨?_, ht⟩)
    rw [← encode_of_decode hi, hk]
    rfl
  · cases he.symm.trans h
    exact .inl ⟨rfl, id⟩
  · cases he.symm.trans h
    exact .inl ⟨rfl, id⟩

/-- What the sequencer's turn can do to `KEYV`. -/
theorem sequencer_key {s t : State} (h : sequencer s = .next t) :
    KeepsKey s t ∨ (t.KEYV = false ∧ t.PHASE = .fault) ∨ (s.PHASE = .keyx ∧ t.PHASE = .idle ∧ t.KEYV = true) := by
  rcases sequencer_next h with rfl | ⟨-, rfl⟩ | ⟨w, p, n, g, e, hp, he, rfl⟩
  · exact .inl ⟨rfl, id⟩
  · exact .inr (.inl ⟨rfl, rfl⟩)
  · obtain ⟨-, -, -, -, hfrom, hto⟩ := program_leads hp
    obtain ⟨-, -, hkey⟩ := workEffect_keeps he
    by_cases hw : w = .expand
    · exact .inr (.inr ⟨hfrom.mp hw, hto.mp hw, by simp [State.afterWork, hkey, hw]⟩)
    · exact .inl ⟨by simp [State.afterWork, hkey, hw], fun hx => absurd (hfrom.mpr hx) hw⟩

/-- What a step can do to `KEYV`: keep it, clear it by reset, by the fault or by accepting `KEYEXP`, or set it by completing
the key expansion (R48). -/
theorem step_key {s t : State} (h : step s = .next t) :
    (s.resets = true ∧ t.KEYV = false) ∨
    s.resets = false ∧ (KeepsKey s t ∨ (t.KEYV = false ∧ t.PHASE = .fault) ∨
      (s.served = some 0x40000000 ∧ t.KEYV = false ∧ t.PHASE = .keyx) ∨
      (s.PHASE = .keyx ∧ t.PHASE = .idle ∧ t.KEYV = true)) := by
  rcases step_next h with ⟨es, hs, rfl⟩ | ⟨hr, u, hu, hturn⟩
  · exact .inl ⟨State.resets_hardReset hs, rfl⟩
  have hphase := State.PHASE_of_registers hu
  have keeps : KeepsKey u t → KeepsKey s t := fun ⟨hk, hx⟩ =>
    ⟨hk.trans (State.KEYV_of_registers hu), fun hs => hx (hphase.trans hs)⟩
  rcases hturn with ⟨w, hw, ha, hrun⟩ | ⟨hw, hseq⟩
  · have hiff := State.resets_served hr hw
    by_cases hsrst : decode w = .ok .srst
    · have hexec : runCommand w u = exec .srst u := by simp [runCommand, hsrst]
      rw [hexec, exec_srst (u.not_busy_of_accepts_srst ha hsrst)] at hrun
      cases hrun
      exact .inl ⟨hiff.mpr hsrst, rfl⟩
    · refine .inr ⟨by simpa [hsrst] using hiff, ?_⟩
      rcases runCommand_key hsrst hrun with hk | hf | ⟨rfl, hk⟩
      · exact .inl (keeps hk)
      · exact .inr (.inl hf)
      · exact .inr (.inr (.inl ⟨hw, hk⟩))
  · refine .inr ⟨State.resets_unserved hr hw, ?_⟩
    rcases hseq with rfl | hseq
    · exact .inl (keeps ⟨rfl, id⟩)
    · rcases sequencer_key hseq with hk | hf | ⟨hx, hset⟩
      · exact .inl (keeps hk)
      · exact .inr (.inl hf)
      · exact .inr (.inr (.inr ⟨hphase ▸ hx, hset⟩))

/-- In phases `FAULT` and `KEYX` no key is valid (R135, R177). -/
theorem State.Inv.keyv_false {s : State} (h : s.Inv) (hp : s.PHASE = .fault ∨ s.PHASE = .keyx) : s.KEYV = false := by
  rcases hp with hp | hp
  · obtain ⟨-, -, hk, -⟩ := h.faultEmpty hp
    exact hk
  · exact (h.keyLoaded hp).2

/-- Settles O37: the cases of `step_key`, with the invariant of the state that the step leaves. -/
theorem keyValidChanges : Obligations.KeyValidChanges := by
  intro s t hs ht
  have hcleared := (stepKeepsTheInvariant s t hs ht).keyv_false
  rcases step_key ht with ⟨hr, hk⟩ | ⟨hr, ⟨hk, hx⟩ | ⟨hk, hp⟩ | ⟨hw, hk, hp⟩ | ⟨hp, hp', hk⟩⟩
  · simp [hr, hk]
  · refine ⟨fun h h' => ?_, fun h h' => ?_, fun h h' => ?_, fun h => hcleared (h.resolve_left (by simp [hr]))⟩
    · simp [hk, h] at h'
    · simp [hk, h] at h'
    · simp [hx h] at h'
  · simp [hk, hp]
  · simp [hk, hp, hw]
  · simp [hk, hp, hp', hr]

end Sys2Proof.Machine
end

section
/-! The cells of the expanded key: no agent's turn writes them while `KEYV` stays 1 (spec/20_memory.md R74). -/
namespace Sys2Proof.Machine

theorem State.RK_of_registers {s t : State} (h : t.registers = s.registers) : t.RK = s.RK :=
  (congrArg State.RK h : t.registers.RK = s.registers.RK)

/-- A command writes the expanded key only where it clears `KEYV`: by the fault, by reset and by starting its expansion. -/
theorem Did.keeps_RK {i : Instr} {s t : State} (hd : Did i s t) (hk : t.KEYV = true) : t.RK = s.RK := by
  cases hd with
  | waits | answers | faulted | rejects | cell | block | matrix | clears | startsRun => rfl
  | fails | resets | startsKeyx => cases hk

theorem runCommand_keeps_RK {w : Word} {s t : State} (h : runCommand w s = .next t) (hk : t.KEYV = true) :
    t.RK = s.RK := by
  rcases runCommand_cases w s with ⟨i, -, he⟩ | ⟨e, -, ⟨-, he⟩ | he⟩
  · exact (exec_next (he.symm.trans h)).keeps_RK hk
  · cases he.symm.trans h
    rfl
  · cases he.symm.trans h
    rfl

/-- Of a sequencer step's work only the key expansion writes the expanded key. -/
theorem workEffect_keeps_RK {w : Work} {s : State} {e : Effect} (h : workEffect w s = some e) (hw : w ≠ .expand) :
    e.after.RK = s.RK := by
  rcases workEffect_writes h with ⟨-, -, m, -, he⟩ | ⟨-, m, -, he⟩ | ⟨hx, -⟩
  · simp [he]
  · simp [he]
  · exact absurd hx hw

/-- Outside phase `KEYX` the sequencer's turn writes the expanded key only by the fault, which clears `KEYV`. -/
theorem sequencer_keeps_RK {s t : State} (h : sequencer s = .next t) (hx : s.PHASE ≠ .keyx) (hk : t.KEYV = true) :
    t.RK = s.RK := by
  rcases sequencer_next h with rfl | ⟨-, rfl⟩ | ⟨w, p, n, g, e, hp, he, rfl⟩
  · rfl
  · cases hk
  · obtain ⟨-, -, -, -, hfrom, -⟩ := program_leads hp
    exact workEffect_keeps_RK he (mt hfrom.mp hx)

/-- Settles O36: a turn that writes the expanded key clears `KEYV` or completes the key expansion, and by the invariant a
state with `KEYV = 1` is not in phase `KEYX`. -/
theorem expandedKeyIsImmutable : Obligations.ExpandedKeyIsImmutable := by
  intro s t hs ht hk hk'
  have hx : s.PHASE ≠ .keyx := fun hx => ne_true_of_eq_false (hs.keyLoaded hx).2 hk
  rcases step_next ht with ⟨es, -, rfl⟩ | ⟨-, u, hu, ⟨w, -, -, hrun⟩ | ⟨-, rfl | hseq⟩⟩
  · cases hk'
  · exact (runCommand_keeps_RK hrun hk').trans (State.RK_of_registers hu)
  · exact State.RK_of_registers hu
  · rw [← State.PHASE_of_registers hu] at hx
    exact (sequencer_keeps_RK hseq hx hk').trans (State.RK_of_registers hu)

end Sys2Proof.Machine
end

section
/-! The decoder, the encoder and the opcode map agree (spec/30_encoding.md R83, R85, R87): a command's word decodes to the
command, and the legal words are those that a row of the map matches. -/
namespace Sys2Proof

/-- Settles O1: one row of the decoder for each command; in the encoding every field that its format does not use is 0. -/
theorem decodeOfEncode : Obligations.DecodeOfEncode := by
  intro i
  cases i <;> simp [encode, decode_wordOf, decodeFields, ifZero]

/-- Settles O2: `encode_of_decode`, which takes one opcode after another off the decoded word. -/
theorem encodeOfDecode : Obligations.EncodeOfDecode := fun _ _ h => encode_of_decode h

/-- The family `OpcodeRow` for every command: its word lies in the row that bears its mnemonic and in no other (R85). -/
theorem encode_in_row : ∀ i : Instr, Laws.OpcodeRow.Statement i
  | .nop => Laws.OpcodeRow.nop
  | .rdsr => Laws.OpcodeRow.rdsr
  | .rdcnt k => Laws.OpcodeRow.rdcnt k
  | .clrcnt => Laws.OpcodeRow.clrcnt
  | .srst => Laws.OpcodeRow.srst
  | .put d => Laws.OpcodeRow.put d
  | .get s => Laws.OpcodeRow.get s
  | .encc d imm => Laws.OpcodeRow.encc d imm
  | .mov d s => Laws.OpcodeRow.mov d s
  | .xorb d a b => Laws.OpcodeRow.xorb d a b
  | .sbox d s => Laws.OpcodeRow.sbox d s
  | .gmul d s k => Laws.OpcodeRow.gmul d s k
  | .ldst => Laws.OpcodeRow.ldst
  | .stst => Laws.OpcodeRow.stst
  | .subb => Laws.OpcodeRow.subb
  | .shrow => Laws.OpcodeRow.shrow
  | .mixc => Laws.OpcodeRow.mixc
  | .ark n => Laws.OpcodeRow.ark n
  | .rdrk n => Laws.OpcodeRow.rdrk n
  | .keyexp => Laws.OpcodeRow.keyexp
  | .encblk => Laws.OpcodeRow.encblk

/-- A legal word lies in the row that bears its command's mnemonic and in no other (R85). -/
theorem row_of_decode {w : Word} {i : Instr} (h : decode w = .ok i) {row : OpcodeRow} (hrow : row ∈ opcodeMap) :
    w &&& row.mask = row.bits ↔ row.mnemonic = i.mnemonic := by
  rw [← encode_of_decode h]
  exact encode_in_row i row hrow

/-- A word in a row of the map is legal: the row fixes the opcode, and is 0 in each field that the format does not use. -/
theorem decode_of_row {w : Word} {row : OpcodeRow} (hrow : row ∈ opcodeMap) (h : w &&& row.mask = row.bits) :
    ∃ i : Instr, decode w = .ok i := by
  rw [← wordOf_fields w, Laws.OpcodeRow.row_iff] at h
  rw [decode_fields]
  generalize opcodeOf w = o, fieldA w = a, fieldB w = b, fieldC w = c at h ⊢
  revert row
  simp only [opcodeMap, opcodeRowsLow, opcodeRowsHigh, List.cons_append, List.nil_append, List.forall_mem_cons]
  and_intros
  iterate 21
    · simp +contextual [opcodeOf, fieldA, fieldB, fieldC, decodeFields, ifZero]
  exact nofun

/-- Every command has its row. -/
theorem mnemonic_in_map (i : Instr) : ∃ row ∈ opcodeMap, row.mnemonic = i.mnemonic := by
  cases i <;> simp [opcodeMap, opcodeRowsLow, opcodeRowsHigh, Instr.mnemonic]

/-- Settles O3: a word in a row is legal, and a legal word lies in its command's row alone. -/
theorem decoderFollowsOpcodeMap : Obligations.DecoderFollowsOpcodeMap := by
  intro w row hrow
  constructor
  · intro h
    obtain ⟨i, hi⟩ := decode_of_row hrow h
    exact ⟨i, hi, ((row_of_decode hi hrow).mp h).symm⟩
  · rintro ⟨i, hi, hname⟩
    exact (row_of_decode hi hrow).mpr hname.symm

theorem ifZero_ne_reserved (b : Bool) (i : Instr) : ifZero b i ≠ .error .reservedOpcode := by
  simp [ifZero_error]

/-- A word's opcode is reserved where it is no row's (R85, R87): the decoder compares it with each row's opcode. -/
theorem decode_reserved {w : Word} :
    decode w = .error .reservedOpcode ↔ ∀ row ∈ opcodeMap, opcodeOf w ≠ opcodeOf row.bits := by
  rw [decode_fields]
  generalize opcodeOf w = o, fieldA w = a, fieldB w = b, fieldC w = c
  simp [decodeFields, ite_eq_iff, ifZero_ne_reserved, opcodeMap, opcodeRowsLow, opcodeRowsHigh, opcodeOf]

/-- Settles O4: by O3 the legal words are those in some row; the reserved opcodes are read off the decoder. -/
theorem illegalWordsMatchNoRow : Obligations.IllegalWordsMatchNoRow := by
  refine fun w => ⟨⟨?_, fun hno => ?_⟩, decode_reserved⟩
  · rintro ⟨e, he⟩ row hrow h
    obtain ⟨i, hi, -⟩ := (decoderFollowsOpcodeMap w row hrow).mp h
    cases he.symm.trans hi
  · cases hw : decode w with
    | error e => exact ⟨e, rfl⟩
    | ok i =>
      obtain ⟨row, hrow, hname⟩ := mnemonic_in_map i
      exact absurd ((decoderFollowsOpcodeMap w row hrow).mpr ⟨i, hw, hname.symm⟩) (hno row hrow)

/-- Settles O5: the decoder evaluated on ten words. -/
theorem specWordsDecode : Obligations.SpecWordsDecode := by
  unfold Obligations.SpecWordsDecode
  decide

end Sys2Proof
end

section
/-! Words on the command port (spec/30_encoding.md R80, R82, R87): an accepted word, presented or waiting, is run by the
step; one that is not accepted waits. -/
namespace Sys2Proof.Machine

section
variable {s : State} {w : Word} {es : List Event}

/-- A step serves an accepted word that the host presents (R80, R82). -/
theorem step_present_accepted (ha : s.accepts w = true) {din : Ct} (hs : s.script = .present w din :: es)
    (hc : s.cmd = none) : step s = runCommand w ((s.withScript es).present w din) := by
  rw [step_present hs hc, if_pos ha]

/-- A step serves a waiting word that is accepted (R82). -/
theorem step_waiting_accepted (ha : s.accepts w = true) (hc : s.cmd = some w)
    (hr : s.script.head? ≠ some .hardReset) : step s = runCommand w s := by
  rw [step_waiting hr hc, if_pos ha]

/-- A word that is not accepted waits and the sequencer has the turn (R82). -/
theorem step_waiting_refused (ha : s.accepts w = false) (hc : s.cmd = some w)
    (hr : s.script.head? ≠ some .hardReset) : step s = sequencer s.yieldTurn := by
  simp [step_waiting hr hc, ha]

theorem runCommand_of_decode {i : Instr} (h : decode w = .ok i) (s : State) : runCommand w s = exec i s := by
  simp [runCommand, h]

/-- In phases `IDLE` and `DONE` an illegal word is rejected (R171, R172). -/
theorem runCommand_illegal {e : DecodeError} (h : decode w = .error e) (hs : s.ready) :
    runCommand w s = .next (s.reject .illegalCmd) := by
  simp [runCommand, h, State.illegal, State.ready_not_fault hs]

/-- While busy every command but `RDSR` and `RDCNT` leaves the state as it is (R82 (c)). -/
theorem exec_busy {i : Instr} (hb : s.busy = true) (h1 : i ≠ .rdsr) (h2 : ∀ k : Byte, i ≠ .rdcnt k) :
    exec i s = .next s := by
  by_cases hi : i = .srst
  · simp [hi, exec, execSrst, hb]
  · obtain ⟨body, hbody⟩ := exec_gated h1 hi h2
    rw [hbody, State.gate_busy hb]

end

/-- Settles O6: the word is accepted, so the step runs it, and it decodes to `i`. -/
theorem stepRunsTheDecodedCommand : Obligations.StepRunsTheDecodedCommand := by
  intro s w i hi hacc
  have ha := (s.accepts_iff w).mpr hacc
  refine ⟨fun din es hs hc => ?_, fun hc hr => ?_⟩
  · rw [step_present_accepted ha hs hc, runCommand_of_decode hi]
  · rw [step_waiting_accepted ha hc hr, runCommand_of_decode hi]

/-- Settles O7: a state in phase `IDLE` or `DONE` accepts every word, and running an illegal one there rejects it. -/
theorem illegalWordIsRejected : Obligations.IllegalWordIsRejected := by
  intro s w e he
  have serves (hacc : s.busy = false ∨ opcodeOf w = 0x01 ∨ opcodeOf w = 0x02) := (s.accepts_iff w).mpr hacc
  refine ⟨fun hready => ?_, fun hacc => ?_⟩
  · have ha := serves (.inl (State.ready_not_busy hready))
    refine ⟨fun din es hs hc => ?_, fun hc hr => ?_⟩
    · exact (step_present_accepted ha hs hc).trans (runCommand_illegal he hready)
    · exact (step_waiting_accepted ha hc hr).trans (runCommand_illegal he hready)
  · exact ⟨fun _ _ => step_present_accepted (serves hacc), step_waiting_accepted (serves hacc)⟩

/-- Settles O8: the word is not accepted, so the step leaves it on the port, and a command executed there waits. -/
theorem busyCommandWaits : Obligations.BusyCommandWaits := by
  refine ⟨fun s w hb h1 h2 => ?_, fun s i => exec_busy⟩
  have ha : s.accepts w = false := Bool.eq_false_iff.mpr fun ha =>
    ((s.accepts_iff w).mp ha).elim (ne_false_of_eq_true hb) fun ho => ho.elim h1 h2
  refine ⟨ha, fun din es hs hc => ?_, fun hc hs => ?_, fun es hc hs => ?_⟩
  · simp [step_present hs hc, ha]
  · simp [step_waiting_refused ha hc, hs, State.yieldTurn]
  · simp [step_waiting_refused ha hc, hs, State.yieldTurn]

end Sys2Proof.Machine
end

section
/-! Moving data between the port, `B` and `S` (spec/40_state_matrix.md): what each command answers in phase `IDLE` or
`DONE`, a case for each outcome of its range check and of the cells it reads. -/
namespace Sys2Proof.Machine

section
variable {s : State} {d a : Byte} {i j : Fin 16}

/-! `PUT` (R100) -/

theorem exec_put (hs : s.ready) (hd : d.toNat = j.val) : exec (.put d) s = .next (s.setB j s.din).accept := by
  simp [exec, execPut, State.gate_ready hs, bufferIndex?_some hd]

theorem exec_put_badIndex (hs : s.ready) (hd : 15 < d.toNat) : exec (.put d) s = .next (s.reject .badIndex) := by
  simp [exec, execPut, State.gate_ready hs, bufferIndex?_none hd]

/-! `GET` (R101) -/

theorem exec_get (hs : s.ready) (ha : a.toNat = j.val) {x : Ct} (hx : s.B[j] = some x) :
    exec (.get a) s = .next (s.answer .ok 0 (some x)) := by
  simp only [exec, execGet, State.gate_ready hs, bufferIndex?_some ha, hx]

theorem exec_get_unwritten (hs : s.ready) (ha : a.toNat = j.val) (hx : s.B[j] = none) :
    exec (.get a) s = .next (s.reject .unwritten) := by
  simp only [exec, execGet, State.gate_ready hs, bufferIndex?_some ha, hx]

theorem exec_get_badIndex (hs : s.ready) (ha : 15 < a.toNat) : exec (.get a) s = .next (s.reject .badIndex) := by
  simp [exec, execGet, State.gate_ready hs, bufferIndex?_none ha]

/-! `ENCC` (R102) -/

theorem exec_encc_finish (hs : s.ready) (hd : d.toNat = j.val) (imm : Byte) :
    exec (.encc d imm) s = .next (s.finishCommand (enccEffect s j imm)) := by
  simp [exec, execEncc, State.gate_ready hs, bufferIndex?_some hd]

/-- `encp` is not counted, so where it does not fail the cell is all that `ENCC` writes. -/
theorem exec_encc (hs : s.ready) (hd : d.toNat = j.val) (hf : s.failsWithin (oneLane 1) = false) (imm : Byte) :
    ∃ y : Ct, y.hidden = imm ∧ exec (.encc d imm) s = .next (s.setB j y).accept := by
  obtain ⟨y, hafter, hy⟩ := enccEffect_after s j imm
  refine ⟨y, hy, ?_⟩
  rw [exec_encc_finish hs hd, State.finishCommand_costs_ok (enccEffect_costs s j imm) hf, State.withCnt_none, hafter]

theorem exec_encc_primFail (hs : s.ready) (hd : d.toNat = j.val) (hf : s.failsWithin (oneLane 1) = true) (imm : Byte) :
    exec (.encc d imm) s = .next (s.takeFault.answer .primFail 0 none) := by
  rw [exec_encc_finish hs hd, State.finishCommand_costs_fault (enccEffect_costs s j imm) hf]

theorem exec_encc_badIndex (hs : s.ready) (hd : 15 < d.toNat) (imm : Byte) :
    exec (.encc d imm) s = .next (s.reject .badIndex) := by
  simp [exec, execEncc, State.gate_ready hs, bufferIndex?_none hd]

/-! `MOV` (R103) -/

theorem exec_mov (hs : s.ready) (hd : d.toNat = i.val) (ha : a.toNat = j.val) {x : Ct} (hx : s.B[j] = some x) :
    exec (.mov d a) s = .next (s.setB i x).accept := by
  simp only [exec, execMov, State.gate_ready hs, bufferIndex?_some hd, bufferIndex?_some ha, hx]

theorem exec_mov_unwritten (hs : s.ready) (hd : d.toNat = i.val) (ha : a.toNat = j.val) (hx : s.B[j] = none) :
    exec (.mov d a) s = .next (s.reject .unwritten) := by
  simp only [exec, execMov, State.gate_ready hs, bufferIndex?_some hd, bufferIndex?_some ha, hx]

/-- One operand out of range is enough, whatever the other names. -/
theorem exec_mov_badIndex (hs : s.ready) (h : 15 < d.toNat ∨ 15 < a.toNat) :
    exec (.mov d a) s = .next (s.reject .badIndex) := by
  rcases h with hd | ha
  · simp [exec, execMov, State.gate_ready hs, bufferIndex?_none hd]
  · cases hd : bufferIndex? d <;> simp [exec, execMov, State.gate_ready hs, bufferIndex?_none ha, hd]

/-! `LDST` (R104) and `STST` (R105) -/

theorem exec_ldst (hs : s.ready) (hb : blockFull s.B = true) :
    exec .ldst s = .next (s.withS (fromBlock s.B)).accept := by
  simp [exec, execLdst, State.gate_ready hs, hb]

theorem exec_ldst_badSize (hs : s.ready) (hb : blockFull s.B = false) : exec .ldst s = .next (s.reject .badSize) := by
  simp [exec, execLdst, State.gate_ready hs, hb]

theorem exec_stst (hs : s.ready) (hm : matrixFull s.S = true) :
    exec .stst s = .next (s.withB (toBlock s.S)).accept := by
  simp [exec, execStst, State.gate_ready hs, hm]

theorem exec_stst_unwritten (hs : s.ready) (hm : matrixFull s.S = false) :
    exec .stst s = .next (s.reject .unwritten) := by
  simp [exec, execStst, State.gate_ready hs, hm]

end

/-- Settles O18: the operand in range and above 15. -/
theorem putWritesDin : Obligations.PutWritesDin := by
  refine ⟨formatA_of_row fun _ _ _ => rfl, fun d s hs => ⟨fun j hd => ?_, fun hd => ?_⟩⟩
  · exact exec_put hs hd
  · exact exec_put_badIndex hs hd

/-- Settles O19: the operand in range with a value in its cell, in range with an empty cell, and above 15. -/
theorem getReturnsTheCell : Obligations.GetReturnsTheCell := by
  refine ⟨formatA_of_row fun _ _ _ => rfl, fun a s hs => ⟨fun j x ha hx => ?_, fun j ha hx => ?_, fun ha => ?_⟩⟩
  · exact exec_get hs ha hx
  · exact exec_get_unwritten hs ha hx
  · exact exec_get_badIndex hs ha

/-- Settles O20: the one invocation, which is not counted, succeeds or fails; an operand above 15 is rejected before. -/
theorem enccWritesThePublicByte : Obligations.EnccWritesThePublicByte := by
  refine ⟨formatAC_of_row fun _ _ _ => rfl, fun d imm s hs => ⟨fun j hd hf => ?_, fun hd hf => ?_, fun hd => ?_⟩⟩
  · exact exec_encc hs hd hf imm
  · exact exec_encc_primFail (j := ⟨d.toNat, by omega⟩) hs rfl hf imm
  · exact exec_encc_badIndex hs hd imm

/-- Settles O21: the range checks come before the source cell is read. -/
theorem movCopiesTheCell : Obligations.MovCopiesTheCell := by
  refine ⟨formatAB_of_row fun _ _ _ => rfl, fun d a s hs => ⟨fun i j x hd ha hx => ?_, fun j hd ha hx => ?_, fun h => ?_⟩⟩
  · exact exec_mov hs hd ha hx
  · exact exec_mov_unwritten (i := ⟨d.toNat, by omega⟩) hs rfl ha hx
  · exact exec_mov_badIndex hs h

/-- Settles O22: the new matrix is `fromBlock` of the block, which reads offset `4c + r` at `(r, c)`. -/
theorem ldstLoadsTheMatrix : Obligations.LdstLoadsTheMatrix := by
  refine ⟨formatZ_of_row fun _ _ _ => rfl, fun s hs => ⟨fun hb => ?_, fun ⟨j, hj⟩ => ?_⟩⟩
  · exact ⟨fromBlock s.B, exec_ldst hs ((blockFull_iff _).mpr hb), fromBlock_get s.B⟩
  · exact exec_ldst_badSize hs (blockFull_false hj)

/-- Settles O23: the new block is `toBlock` of the matrix, which writes `(r, c)` to offset `4c + r`. -/
theorem ststStoresTheMatrix : Obligations.StstStoresTheMatrix := by
  refine ⟨formatZ_of_row fun _ _ _ => rfl, fun s hs => ⟨fun hm => ?_, fun ⟨r, c, hrc⟩ => ?_⟩⟩
  · exact ⟨toBlock s.S, exec_stst hs ((matrixFull_iff _).mpr hm), toBlock_get s.S⟩
  · exact exec_stst_unwritten hs (matrixFull_false hrc)

end Sys2Proof.Machine
end

section
/-! Substitution: `SBOX` and `SUBB` (spec/41_substitution.md R111, R112), each reduced once to the completion of
its effect, whose outcome the cost rules give; and the obliviousness of the engines (R113, R126). -/
namespace Sys2Proof.Machine

section
variable {s : State} {d a : Byte} {i j : Fin 16} {x : Ct}

/-! `SBOX` (R111) -/

theorem exec_sbox_finish (hs : s.ready) (hd : d.toNat = i.val) (ha : a.toNat = j.val) (hx : s.B[j] = some x) :
    exec (.sbox d a) s = .next (s.finishCommand (sboxEffect s i x)) := by
  simp only [exec, execSbox, State.gate_ready hs, bufferIndex?_some hd, bufferIndex?_some ha, hx]

theorem exec_sbox (hs : s.ready) (hd : d.toNat = i.val) (ha : a.toNat = j.val) (hx : s.B[j] = some x)
    (hf : s.failsWithin (oneLane substituteLength) = false) :
    ∃ y : Ct, y.hidden = sbox x.hidden ∧ exec (.sbox d a) s =
      .next ((s.setB i y).withCnt (countersPlus s.CNT #v[256, 256, 0, 0, 0, 0, 0].get)).accept := by
  obtain ⟨y, hafter, hy⟩ := sboxEffect_after s i x
  refine ⟨y, hy, ?_⟩
  rw [exec_sbox_finish hs hd ha hx, State.finishCommand_costs_ok (sboxEffect_costs s i x) hf, hafter, State.setB_CNT]

theorem exec_sbox_primFail (hs : s.ready) (hd : d.toNat = i.val) (ha : a.toNat = j.val) (hx : s.B[j] = some x)
    (hf : s.failsWithin (oneLane substituteLength) = true) :
    exec (.sbox d a) s = .next (s.takeFault.answer .primFail 0 none) := by
  rw [exec_sbox_finish hs hd ha hx, State.finishCommand_costs_fault (sboxEffect_costs s i x) hf]

theorem exec_sbox_unwritten (hs : s.ready) (hd : d.toNat = i.val) (ha : a.toNat = j.val) (hx : s.B[j] = none) :
    exec (.sbox d a) s = .next (s.reject .unwritten) := by
  simp only [exec, execSbox, State.gate_ready hs, bufferIndex?_some hd, bufferIndex?_some ha, hx]

/-- One operand out of range is enough, whatever the other names. -/
theorem exec_sbox_badIndex (hs : s.ready) (h : 15 < d.toNat ∨ 15 < a.toNat) :
    exec (.sbox d a) s = .next (s.reject .badIndex) := by
  rcases h with hd | ha
  · simp [exec, execSbox, State.gate_ready hs, bufferIndex?_none hd]
  · cases hd : bufferIndex? d <;> simp [exec, execSbox, State.gate_ready hs, bufferIndex?_none ha, hd]

/-! `SUBB` (R112) -/

theorem exec_subb_finish (hs : s.ready) {m : Fin 4 → Fin 4 → Ct} (hm : ∀ r c : Fin 4, s.S[r][c] = some (m r c)) :
    exec .subb s = .next (s.finishCommand (subEffect s m)) := by
  simp only [exec, execSubb, State.gate_ready hs, loadedMatrix?_eq hm]

theorem exec_subb (hs : s.ready) {m : Fin 4 → Fin 4 → Ct} (hm : ∀ r c : Fin 4, s.S[r][c] = some (m r c))
    (hf : s.failsWithin (sixteenLanes substituteLength) = false) :
    ∃ y : Fin 4 → Fin 4 → Ct, (∀ r c : Fin 4, (y r c).hidden = sbox (m r c).hidden) ∧ exec .subb s =
      .next ((s.withS (matrixOf y)).withCnt (countersPlus s.CNT #v[4096, 4096, 0, 0, 0, 0, 0].get)).accept := by
  obtain ⟨y, hafter, hy⟩ := subEffect_after s m
  refine ⟨y, hy, ?_⟩
  rw [exec_subb_finish hs hm, State.finishCommand_costs_ok (subEffect_costs s m) hf, hafter, State.withS_CNT]

theorem exec_subb_primFail (hs : s.ready) {m : Fin 4 → Fin 4 → Ct} (hm : ∀ r c : Fin 4, s.S[r][c] = some (m r c))
    (hf : s.failsWithin (sixteenLanes substituteLength) = true) :
    exec .subb s = .next (s.takeFault.answer .primFail 0 none) := by
  rw [exec_subb_finish hs hm, State.finishCommand_costs_fault (subEffect_costs s m) hf]

theorem exec_subb_unwritten (hs : s.ready) (hm : matrixFull s.S = false) :
    exec .subb s = .next (s.reject .unwritten) := by
  simp only [exec, execSubb, State.gate_ready hs, loadedMatrix?_none hm]

end

/-- Settles O24: a readable operand with the scan succeeding or failing, an empty source cell, an operand above 15. -/
theorem sboxSubstitutesTheByte : Obligations.SboxSubstitutesTheByte := by
  refine ⟨formatAB_of_row fun _ _ _ => rfl, fun d a s hs =>
    ⟨fun i j x hd ha hx => ⟨fun hf => ?_, fun hf => ?_⟩, fun j hd ha hx => ?_, fun h => ?_⟩⟩
  · exact exec_sbox hs hd ha hx hf
  · exact exec_sbox_primFail hs hd ha hx hf
  · exact exec_sbox_unwritten (i := ⟨d.toNat, by omega⟩) hs rfl ha hx
  · exact exec_sbox_badIndex hs h

/-- Settles O25: a full matrix with the sixteen scans succeeding or one failing, and a matrix with an empty cell. -/
theorem subbSubstitutesTheMatrix : Obligations.SubbSubstitutesTheMatrix := by
  refine ⟨formatZ_of_row fun _ _ _ => rfl, fun s hs =>
    ⟨fun x hx => ⟨fun hf => ?_, fun hf => ?_⟩, fun ⟨r, c, hrc⟩ => ?_⟩⟩
  · exact exec_subb hs hx hf
  · exact exec_subb_primFail hs hx hf
  · exact exec_subb_unwritten hs (matrixFull_false hrc)

/-! Obliviousness (R113, R126, R187) -/

/-- What the sequencer step of a kind of work issues, lane by lane. -/
def Work.logs : Work → Logs
  | .loadArk => List.replicate 16 addOps
  | .sub => List.replicate 16 substituteOps
  | .shr => []
  | .mix => (List.finRange 16).map fun j => mixOps ⟨j.val / 4, by omega⟩
  | .ark => List.replicate 16 addOps
  | .arkStore => List.replicate 16 addOps
  | .expand => expandOps

theorem arkStoreEffect_logs (s : State) (key : Fin 16 → Ct) (m : Fin 4 → Fin 4 → Ct) :
    (arkStoreEffect s key m).logs = (arkEffect s key m).logs := rfl

/-- What a sequencer step issues depends on its work alone. -/
theorem workEffect_logs {w : Work} {s : State} {e : Effect} (h : workEffect w s = some e) : e.logs = w.logs := by
  cases w <;> simp only [workEffect] at h
  case loadArk => split at h <;> cases h; exact arkEffect_logs _ _ _
  case sub =>
    obtain ⟨m, -, rfl⟩ := Option.map_eq_some_iff.mp h
    exact subEffect_logs s m
  case shr => split at h <;> cases h; rfl
  case mix =>
    obtain ⟨m, -, rfl⟩ := Option.map_eq_some_iff.mp h
    exact mixEffect_logs s m
  case ark => split at h <;> cases h; exact arkEffect_logs _ _ _
  case arkStore => split at h <;> cases h; exact (arkStoreEffect_logs _ _ _).trans (arkEffect_logs _ _ _)
  case expand =>
    obtain ⟨k, -, rfl⟩ := Option.map_eq_some_iff.mp h
    exact expandEffect_logs s k

/-- What one `substitute` issues: the same for every operand, 256 of each of `EQ` and `SEL` (R113). -/
theorem substitute_oblivious (x y : Ct) (step lane step' lane' : Nat) :
    (runLane step lane (substitute x)).2 = (runLane step' lane' (substitute y)).2 ∧
    ∀ j : Fin 7, countClass j [(runLane step lane (substitute x)).2] = #v[256, 256, 0, 0, 0, 0, 0][j] := by
  refine ⟨?_, fun j => ?_⟩
  · rw [runLane_log (substitute_issues x), runLane_log (substitute_issues y)]
  · rw [runLane_log (substitute_issues x), countClass_one, substituteOps_count]

/-- What one `galoisMul(a, k)` issues: the same for every `a`, with the counts that `k` alone gives (R126). -/
theorem galoisMul_oblivious (x y : Ct) (k : Byte) (step lane step' lane' : Nat) :
    (runLane step lane (galoisMul x k)).2 = (runLane step' lane' (galoisMul y k)).2 ∧
    ∀ j : Fin 7, countClass j [(runLane step lane (galoisMul x k)).2] = #v[0, 0, 8 + popcount k, 8, 8, 8, 8][j] := by
  refine ⟨?_, fun j => ?_⟩
  · rw [runLane_log (galoisMul_issues x k), runLane_log (galoisMul_issues y k)]
  · rw [runLane_log (galoisMul_issues x k), countClass_one, galoisOps_count]

/-- Settles O29: what each engine, effect and step issues is a list in which no Encrypted Byte occurs. -/
theorem enginesAreOblivious : Obligations.EnginesAreOblivious := by
  refine ⟨fun x y k step lane step' lane' => ?_, fun s t d e x x' y y' imm k m m' key key' => ?_,
    fun w s t e e' he he' => ?_⟩
  · obtain ⟨hsub, hsubCount⟩ := substitute_oblivious x y step lane step' lane'
    obtain ⟨hmul, hmulCount⟩ := galoisMul_oblivious x y k step lane step' lane'
    exact ⟨hsub, hsubCount, hmul, hmulCount⟩
  · simp only [enccEffect_logs, xorbEffect_logs, sboxEffect_logs, gmulEffect_logs, subEffect_logs, mixEffect_logs,
      arkEffect_logs, expandEffect_logs, and_self]
  · rw [workEffect_logs he, workEffect_logs he']

end Sys2Proof.Machine
end

section
/-! The linear layer (spec/42_linear.md): `XORB`, `GMUL`, `SHROW`, `MIXC` and `ARK` (R120, R122 to R125), and the laws
of `galoisMul` (R127). Each command that issues primitives is reduced once to the completion of its effect; the two
outcomes of a completion are said once for the effects that write one cell of `B` and once for those that write all of
`S`. -/
namespace Sys2Proof.Machine

/-! Completing an effect -/

section
variable {s : State} {e : Effect} {len : Nat → Nat} {n : Fin 7 → Nat}

/-- A command whose effect is one cell of `B`: the cell and the counters, or the fault. -/
theorem State.finishCommand_setB {i : Fin 16} {P : Ct → Prop} (hafter : ∃ y, e.after = s.setB i y ∧ P y)
    (hc : e.Costs len n) :
    (s.failsWithin len = false →
      ∃ y, P y ∧ s.finishCommand e = ((s.setB i y).withCnt (countersPlus s.CNT n)).accept) ∧
    (s.failsWithin len = true → s.finishCommand e = s.takeFault.answer .primFail 0 none) := by
  obtain ⟨y, hy, hP⟩ := hafter
  refine ⟨fun hf => ⟨y, hP, ?_⟩, State.finishCommand_costs_fault hc⟩
  rw [State.finishCommand_costs_ok hc hf, hy, State.setB_CNT]

/-- A command whose effect is the whole of `S`: the matrix and the counters, or the fault. -/
theorem State.finishCommand_matrix {P : (Fin 4 → Fin 4 → Ct) → Prop}
    (hafter : ∃ y, e.after = s.withS (matrixOf y) ∧ P y) (hc : e.Costs len n) :
    (s.failsWithin len = false →
      ∃ y, P y ∧ s.finishCommand e = ((s.withS (matrixOf y)).withCnt (countersPlus s.CNT n)).accept) ∧
    (s.failsWithin len = true → s.finishCommand e = s.takeFault.answer .primFail 0 none) := by
  obtain ⟨y, hy, hP⟩ := hafter
  refine ⟨fun hf => ⟨y, hP, ?_⟩, State.finishCommand_costs_fault hc⟩
  rw [State.finishCommand_costs_ok hc hf, hy, State.withS_CNT]

end

section
variable {s : State} {d a b : Byte} {i j k : Fin 16} {x y : Ct}

/-! `XORB` (R120) -/

theorem exec_xorb_finish (hs : s.ready) (hd : d.toNat = i.val) (ha : a.toNat = j.val) (hb : b.toNat = k.val)
    (hx : s.B[j] = some x) (hy : s.B[k] = some y) :
    exec (.xorb d a b) s = .next (s.finishCommand (xorbEffect s i x y)) := by
  simp only [exec, execXorb, State.gate_ready hs, bufferIndex?_some hd, bufferIndex?_some ha, bufferIndex?_some hb,
    hx, hy]

/-- One empty source cell is enough, whatever the other holds. -/
theorem exec_xorb_unwritten (hs : s.ready) (hd : d.toNat = i.val) (ha : a.toNat = j.val) (hb : b.toNat = k.val)
    (h : s.B[j] = none ∨ s.B[k] = none) : exec (.xorb d a b) s = .next (s.reject .unwritten) := by
  simp only [exec, execXorb, State.gate_ready hs, bufferIndex?_some hd, bufferIndex?_some ha, bufferIndex?_some hb]
  rcases h with hx | hy
  · simp only [hx]
  · cases s.B[j] <;> simp only [hy]

/-- One operand out of range is enough, whatever the others name. -/
theorem exec_xorb_badIndex (hs : s.ready) (h : 15 < d.toNat ∨ 15 < a.toNat ∨ 15 < b.toNat) :
    exec (.xorb d a b) s = .next (s.reject .badIndex) := by
  simp only [exec, execXorb, State.gate_ready hs]
  rcases h with hd | ha | hb
  · simp only [bufferIndex?_none hd]
  · cases bufferIndex? d <;> simp only [bufferIndex?_none ha]
  · cases bufferIndex? d <;> cases bufferIndex? a <;> simp only [bufferIndex?_none hb]

/-! `GMUL` (R122) -/

theorem exec_gmul_finish (hs : s.ready) (hd : d.toNat = i.val) (ha : a.toNat = j.val) (hx : s.B[j] = some x)
    (m : Byte) : exec (.gmul d a m) s = .next (s.finishCommand (gmulEffect s i x m)) := by
  simp only [exec, execGmul, State.gate_ready hs, bufferIndex?_some hd, bufferIndex?_some ha, hx]

theorem exec_gmul_unwritten (hs : s.ready) (hd : d.toNat = i.val) (ha : a.toNat = j.val) (hx : s.B[j] = none)
    (m : Byte) : exec (.gmul d a m) s = .next (s.reject .unwritten) := by
  simp only [exec, execGmul, State.gate_ready hs, bufferIndex?_some hd, bufferIndex?_some ha, hx]

/-- One index out of range is enough, whatever the other names. -/
theorem exec_gmul_badIndex (hs : s.ready) (h : 15 < d.toNat ∨ 15 < a.toNat) (m : Byte) :
    exec (.gmul d a m) s = .next (s.reject .badIndex) := by
  simp only [exec, execGmul, State.gate_ready hs]
  rcases h with hd | ha
  · simp only [bufferIndex?_none hd]
  · cases bufferIndex? d <;> simp only [bufferIndex?_none ha]

end

section
variable {s : State} {x : Fin 4 → Fin 4 → Ct}

/-! `SHROW` (R123) -/

theorem exec_shrow (hs : s.ready) (hm : matrixFull s.S = true) :
    exec .shrow s = .next (s.withS (shiftRows s.S)).accept := by
  simp only [exec, execShrow, State.gate_ready hs, hm, if_true]

theorem exec_shrow_unwritten (hs : s.ready) (hm : matrixFull s.S = false) :
    exec .shrow s = .next (s.reject .unwritten) := by
  simp [exec, execShrow, State.gate_ready hs, hm]

/-! `MIXC` (R124) -/

theorem exec_mixc_finish (hs : s.ready) (hx : ∀ r c : Fin 4, s.S[r][c] = some (x r c)) :
    exec .mixc s = .next (s.finishCommand (mixEffect s x)) := by
  simp only [exec, execMixc, State.gate_ready hs, loadedMatrix?_eq hx]

theorem exec_mixc_unwritten (hs : s.ready) (hm : matrixFull s.S = false) :
    exec .mixc s = .next (s.reject .unwritten) := by
  simp only [exec, execMixc, State.gate_ready hs, loadedMatrix?_none hm]

/-- The product of the columns with `M` (R42), row by row as R124 writes it: the terms by 1 are the cells themselves. -/
theorem mixEffect_columns (s : State) (x : Fin 4 → Fin 4 → Ct) :
    ∃ y, (mixEffect s x).after = s.withS (matrixOf y) ∧ ∀ c,
      (y 0 c).hidden = gfMul (x 0 c).hidden 2 ^^^ gfMul (x 1 c).hidden 3 ^^^ (x 2 c).hidden ^^^ (x 3 c).hidden ∧
      (y 1 c).hidden = (x 0 c).hidden ^^^ gfMul (x 1 c).hidden 2 ^^^ gfMul (x 2 c).hidden 3 ^^^ (x 3 c).hidden ∧
      (y 2 c).hidden = (x 0 c).hidden ^^^ (x 1 c).hidden ^^^ gfMul (x 2 c).hidden 2 ^^^ gfMul (x 3 c).hidden 3 ∧
      (y 3 c).hidden = gfMul (x 0 c).hidden 3 ^^^ (x 1 c).hidden ^^^ (x 2 c).hidden ^^^ gfMul (x 3 c).hidden 2 := by
  obtain ⟨y, hafter, hy⟩ := mixEffect_after s x
  have one : ∀ v : Byte, gfMul v 1#8 = v := gfMul_one
  refine ⟨y, hafter, fun c => ?_⟩
  simp [hy, mixRow, one]

/-! `ARK` (R125) -/

variable {a : Byte} {n : Fin 11} {key : Fin 16 → Ct}

theorem roundKey?_valid (hk : s.KEYV = true) (hkey : ∀ j : Fin 16, s.RK[n][j] = some (key j)) :
    roundKey? s n = some key := by
  simp only [roundKey?, hk, if_true, loadedBlock?_eq hkey]

theorem roundKey?_invalid (hk : s.KEYV = false) (n : Fin 11) : roundKey? s n = none := by
  simp [roundKey?, hk]

theorem exec_ark_finish (hs : s.ready) (ha : a.toNat = n.val) (hkey : roundKey? s n = some key)
    (hx : ∀ r c : Fin 4, s.S[r][c] = some (x r c)) :
    exec (.ark a) s = .next (s.finishCommand (arkEffect s key x)) := by
  simp only [exec, execArk, State.gate_ready hs, roundKeyIndex?_some ha, hkey, loadedMatrix?_eq hx]

theorem exec_ark_unwritten (hs : s.ready) (ha : a.toNat = n.val) (hkey : roundKey? s n = some key)
    (hm : matrixFull s.S = false) : exec (.ark a) s = .next (s.reject .unwritten) := by
  simp only [exec, execArk, State.gate_ready hs, roundKeyIndex?_some ha, hkey, loadedMatrix?_none hm]

theorem exec_ark_noKey (hs : s.ready) (ha : a.toNat = n.val) (hkey : roundKey? s n = none) :
    exec (.ark a) s = .next (s.reject .noKey) := by
  simp only [exec, execArk, State.gate_ready hs, roundKeyIndex?_some ha, hkey]

theorem exec_ark_badIndex (hs : s.ready) (ha : 10 < a.toNat) : exec (.ark a) s = .next (s.reject .badIndex) := by
  simp only [exec, execArk, State.gate_ready hs, roundKeyIndex?_none ha]

end

/-! Products by particular constants (R127) -/

theorem gfMul_zero (a : Byte) : gfMul a 0 = 0 := by rw [gfMul_eq_pair]; simp [galoisPair]

/-- The product by 4 is two doublings. -/
theorem gfMul_four (a : Byte) : gfMul a 4 = gfMul (gfMul a 2) 2 := by
  rw [gfMul_two, gfMul_two, gfMul_eq_pair]; simp [galoisPair]

theorem runLane_galoisMul (x : Ct) (k : Byte) (step lane : Nat) :
    (runLane step lane (galoisMul x k)).1.hidden = gfMul x.hidden k := runLane_yields (galoisMul_yields x k) step lane

/-- Settles O27: a readable operand with all its invocations succeeding or one failing, an empty source cell, an index
above 15. -/
theorem gmulIsTheFieldProduct : Obligations.GmulIsTheFieldProduct := by
  refine ⟨formatABC_of_row fun _ _ _ => rfl, fun d a k s hs =>
    ⟨fun i j x hd ha hx => ?_, fun j hd ha hx => ?_, fun h => ?_⟩⟩
  · simpa only [exec_gmul_finish hs hd ha hx, Host.Outcome.next.injEq] using
      State.finishCommand_setB (gmulEffect_after s i x k) (gmulEffect_costs s i x k)
  · exact exec_gmul_unwritten (i := ⟨d.toNat, by omega⟩) hs rfl ha hx k
  · exact exec_gmul_badIndex hs h k

/-- Settles O28: every law is one of the field product, which `galoisMul` computes. -/
theorem galoisMulLaws : Obligations.GaloisMulLaws := by
  refine fun x k step lane step' lane' => ⟨?_, ?_, ?_, ?_⟩
  · rw [runLane_galoisMul, gfMul_one]
  · rw [runLane_galoisMul, gfMul_zero]
  · simp only [runLane_galoisMul, gfMul_four]
  · exact runLane_galoisMul x k step lane

/-- Settles O31: a full matrix with its invocations succeeding or one failing, and a matrix with an empty cell. -/
theorem mixcMixesTheColumns : Obligations.MixcMixesTheColumns := by
  refine ⟨formatZ_of_row fun _ _ _ => rfl, fun s hs => ⟨fun x hx => ?_, fun ⟨r, c, hrc⟩ => ?_⟩⟩
  · simpa only [exec_mixc_finish hs hx, Host.Outcome.next.injEq] using
      State.finishCommand_matrix (mixEffect_columns s x) (mixEffect_costs s x)
  · exact exec_mixc_unwritten hs (matrixFull_false hrc)

/-- Settles O32: with the key there, a full matrix or one with an empty cell; no valid key; an index above 10. -/
theorem arkAddsTheRoundKey : Obligations.ArkAddsTheRoundKey := by
  refine ⟨formatA_of_row fun _ _ _ => rfl, fun a s hs =>
    ⟨fun n key ha hk hkey => ⟨fun x hx => ?_, fun ⟨r, c, hrc⟩ => ?_⟩, fun ha hk => ?_, fun ha => ?_⟩⟩
  · simpa only [exec_ark_finish hs ha (roundKey?_valid hk hkey) hx, Host.Outcome.next.injEq] using
      State.finishCommand_matrix (arkEffect_after s key x) (arkEffect_costs s key x)
  · exact exec_ark_unwritten hs ha (roundKey?_valid hk hkey) (matrixFull_false hrc)
  · exact exec_ark_noKey (n := ⟨a.toNat, by omega⟩) hs rfl (roundKey?_invalid hk _)
  · exact exec_ark_badIndex hs ha

/-- Settles O26: two readable operands with the `add` succeeding or failing, an empty source cell, an index above 15. -/
theorem xorbCombinesTwoBytes : Obligations.XorbCombinesTwoBytes := by
  refine ⟨formatABC_of_row fun _ _ _ => rfl, fun d a b s hs =>
    ⟨fun i j k x y hd ha hb hx hy => ?_, fun j k hd ha hb h => ?_, fun h => ?_⟩⟩
  · simpa only [exec_xorb_finish hs hd ha hb hx hy, Host.Outcome.next.injEq] using
      State.finishCommand_setB (xorbEffect_after s i x y) (xorbEffect_costs s i x y)
  · exact exec_xorb_unwritten (i := ⟨d.toNat, by omega⟩) hs rfl ha hb h
  · exact exec_xorb_badIndex hs h

/-- Settles O30: `SHROW` issues nothing, so only an empty cell keeps it from completing. -/
theorem shrowRotatesTheRows : Obligations.ShrowRotatesTheRows := by
  refine ⟨formatZ_of_row fun _ _ _ => rfl, fun s hs => ⟨fun hm => ?_, fun ⟨r, c, hrc⟩ => ?_⟩⟩
  · exact ⟨shiftRows s.S, exec_shrow hs ((matrixFull_iff _).mpr hm), shiftRows_get s.S⟩
  · exact exec_shrow_unwritten hs (matrixFull_false hrc)

end Sys2Proof.Machine
end

section
/-! The key schedule (spec/43_key_schedule.md): `KEYEXP` and `RDRK` (R135, R137) in phase `IDLE` or `DONE`, a case for
each outcome of their checks, and the `KEYX` step (R136), whose position names the one work `.expand`. -/
namespace Sys2Proof.Machine

section
variable {s : State}

/-! `KEYEXP` (R135) -/

theorem exec_keyexp (hs : s.ready) (hb : blockFull s.B = true) : exec .keyexp s =
    .next ((s.withKey (Vector.replicate 11 emptyBlock) false).moveTo .keyx 0 .sub).accept := by
  simp only [exec, execKeyexp, State.gate_ready hs, hb, if_true]

theorem exec_keyexp_badSize (hs : s.ready) (hb : blockFull s.B = false) :
    exec .keyexp s = .next (s.reject .badSize) := by
  simp [exec, execKeyexp, State.gate_ready hs, hb]

theorem emptyKey_get (n : Fin 11) (j : Fin 16) : (Vector.replicate 11 emptyBlock)[n][j] = none := by
  simp [emptyBlock]

/-! The `KEYX` step (R136) -/

/-- The one position of phase `KEYX`, and its one successor. -/
theorem State.program_keyx (hp : s.PHASE = .keyx) (hn : s.ROUND = 0) (hg : s.STAGE = .sub) :
    program s.PHASE s.ROUND s.STAGE = some (.expand, .idle, 0, .sub) := by
  rw [hp, hn, hg]; rfl

theorem workEffect_expand {k : Fin 16 → Ct} (hk : ∀ j : Fin 16, s.B[j] = some (k j)) :
    workEffect .expand s = some (expandEffect s k) := by
  simp only [workEffect, loadedBlock?_eq hk, Option.map_some]

/-- Writing the key leaves the counters, so the step's invocations are added to those of the state before it. -/
theorem State.afterWork_expand {e : Effect} {rk : Vector Block 11} (he : e.after = s.withKey rk true)
    (p : Phase) (n : Round) (g : Stage) : State.afterWork .expand e p n g =
      (((s.withKey rk true).withCnt (countersPlus s.CNT #v[10240, 10240, 170, 0, 0, 0, 0].get)).moveTo p n g).tick := by
  rw [State.afterWork, he, State.withKey_CNT, Work.cost]

/-! `RDRK` (R137) -/

variable {a : Byte} {n : Fin 11}

/-- Copying the bytes of a full block gives the block. -/
theorem blockOf_eq {b : Block} {f : Fin 16 → Ct} (h : ∀ j : Fin 16, b[j] = some (f j)) : blockOf f = b := by
  ext1 j hj
  exact (blockOf_get f ⟨j, hj⟩).trans (h ⟨j, hj⟩).symm

theorem exec_rdrk (hs : s.ready) (ha : a.toNat = n.val) (hk : s.KEYV = true) (hf : blockFull s.RK[n] = true) :
    exec (.rdrk a) s = .next (s.withB s.RK[n]).accept := by
  obtain ⟨key, -, hkey⟩ := loadedBlock?_full hf
  simp only [exec, execRdrk, State.gate_ready hs, roundKeyIndex?_some ha, roundKey?_valid hk hkey, blockOf_eq hkey]

theorem exec_rdrk_noKey (hs : s.ready) (ha : a.toNat = n.val) (hkey : roundKey? s n = none) :
    exec (.rdrk a) s = .next (s.reject .noKey) := by
  simp only [exec, execRdrk, State.gate_ready hs, roundKeyIndex?_some ha, hkey]

theorem exec_rdrk_badIndex (hs : s.ready) (ha : 10 < a.toNat) : exec (.rdrk a) s = .next (s.reject .badIndex) := by
  simp only [exec, execRdrk, State.gate_ready hs, roundKeyIndex?_none ha]

end

/-- Settles O34: the step performs the expansion of `B`, whose bytes are those of the reference, or takes the fault. -/
theorem keyxStepExpandsTheKey : Obligations.KeyxStepExpandsTheKey := by
  intro s k hp hn hg hk
  have hprog := State.program_keyx hp hn hg
  have hwork := workEffect_expand hk
  refine ⟨fun hf => ?_, sequencer_fails (State.busy_of_keyx hp) hprog hwork⟩
  obtain ⟨rk, hafter, hrk⟩ := expandEffect_after s k
  refine ⟨rk, hrk, ?_⟩
  rw [sequencer_ok (State.busy_of_keyx hp) hprog hwork hf, State.afterWork_expand hafter]

/-- Settles O33: a full block, and a block with an empty cell. -/
theorem keyexpStartsTheExpansion : Obligations.KeyexpStartsTheExpansion := by
  refine ⟨formatZ_of_row fun _ _ _ => rfl, fun s hs => ⟨fun hb => ?_, fun ⟨j, hj⟩ => ?_⟩⟩
  · exact ⟨_, emptyKey_get, exec_keyexp hs ((blockFull_iff _).mpr hb)⟩
  · exact exec_keyexp_badSize hs (blockFull_false hj)

/-- Settles O35: with the key there; no valid key; an index above 10. -/
theorem rdrkCopiesTheRoundKey : Obligations.RdrkCopiesTheRoundKey := by
  refine ⟨formatA_of_row fun _ _ _ => rfl, fun a s hs => ⟨fun n ha hk hf => ?_, fun ha hk => ?_, fun ha => ?_⟩⟩
  · exact exec_rdrk hs ha hk ((blockFull_iff _).mpr hf)
  · exact exec_rdrk_noKey (n := ⟨a.toNat, by omega⟩) hs rfl (roundKey?_invalid hk _)
  · exact exec_rdrk_badIndex hs ha

end Sys2Proof.Machine
end

section
/-! The steps of a run (spec/44_round_pipeline.md R145 to R153): the work that each position names, the cells it reads, and
what it leaves where no invocation fails. -/
namespace Sys2Proof.Machine

section
variable {s : State}

/-! `ENCBLK` (R145) -/

theorem exec_encblk (hs : s.ready) (hb : blockFull s.B = true) (hk : s.KEYV = true) :
    exec .encblk s = .next (s.moveTo .load 0 .ark).accept := by
  simp only [exec, execEncblk, State.gate_ready hs, hb, hk, if_true]

theorem exec_encblk_noKey (hs : s.ready) (hb : blockFull s.B = true) (hk : s.KEYV = false) :
    exec .encblk s = .next (s.reject .noKey) := by
  simp [exec, execEncblk, State.gate_ready hs, hb, hk]

theorem exec_encblk_badSize (hs : s.ready) (hb : blockFull s.B = false) :
    exec .encblk s = .next (s.reject .badSize) := by
  simp [exec, execEncblk, State.gate_ready hs, hb]

/-! The data of each step (R147 to R153) -/

variable {x : Fin 4 → Fin 4 → Ct} {key : Fin 16 → Ct}

theorem stepKey?_eq {n : Fin 11} (hkey : ∀ j : Fin 16, s.RK[n][j] = some (key j)) {R : Round} (hn : R.toNat = n.val) :
    stepKey? s R = some key := by
  have hR : R.toNat < 11 := by omega
  rw [show n = ⟨R.toNat, hR⟩ from Fin.ext hn.symm] at hkey
  rw [stepKey?, dif_pos hR]
  exact loadedBlock?_eq hkey

theorem workEffect_loadArk {b : Fin 16 → Ct} (hb : ∀ j : Fin 16, s.B[j] = some (b j))
    (hkey : ∀ j : Fin 16, s.RK[0][j] = some (key j)) :
    workEffect .loadArk s = some (arkEffect s key fun r c => b (blockOffset r c)) := by
  have hm : loadedMatrix? (fromBlock s.B) = some fun r c => b (blockOffset r c) :=
    loadedMatrix?_eq fun r c => (fromBlock_get s.B r c).trans (hb _)
  have hk : stepKey? s 0 = some key := stepKey?_eq (n := 0) hkey rfl
  simp only [workEffect, hm, hk]

theorem workEffect_sub (hx : ∀ r c : Fin 4, s.S[r][c] = some (x r c)) :
    workEffect .sub s = some (subEffect s x) := by
  simp only [workEffect, loadedMatrix?_eq hx, Option.map_some]

theorem workEffect_shr (hm : matrixFull s.S = true) : workEffect .shr s = some (shiftEffect s) := by
  simp only [workEffect, hm, if_true]

theorem workEffect_mix (hx : ∀ r c : Fin 4, s.S[r][c] = some (x r c)) :
    workEffect .mix s = some (mixEffect s x) := by
  simp only [workEffect, loadedMatrix?_eq hx, Option.map_some]

theorem workEffect_ark (hx : ∀ r c : Fin 4, s.S[r][c] = some (x r c)) (hkey : stepKey? s s.ROUND = some key) :
    workEffect .ark s = some (arkEffect s key x) := by
  simp only [workEffect, loadedMatrix?_eq hx, hkey]

theorem workEffect_arkStore (hx : ∀ r c : Fin 4, s.S[r][c] = some (x r c)) (hkey : stepKey? s s.ROUND = some key) :
    workEffect .arkStore s = some (arkStoreEffect s key x) := by
  simp only [workEffect, loadedMatrix?_eq hx, hkey]

/-! One sequencer step -/

/-- A listed position is busy and leads one step nearer the end (R146). -/
theorem program_advances {P : Phase} {R : Round} {G : Stage} {w : Work} {p : Phase} {n : Round} {g : Stage}
    (h : program P R G = some (w, p, n, g)) : P.busy = true ∧ stepsLeft p n g + 1 = stepsLeft P R G := by
  have hrow := program_row h
  simp only [programRow, Bool.and_eq_true, decide_eq_true_eq] at hrow
  obtain ⟨⟨⟨⟨⟨⟨⟨⟨⟨-, hbusy⟩, hsteps⟩, -⟩, -⟩, -⟩, -⟩, -⟩, -⟩, -⟩ := hrow
  exact ⟨hbusy, hsteps⟩

variable {w : Work} {p : Phase} {n : Round} {g : Stage} {e : Effect}

/-- The sequencer's turn at a listed position whose cells are there. -/
theorem sequencer_finish (hp : program s.PHASE s.ROUND s.STAGE = some (w, p, n, g)) (he : workEffect w s = some e) :
    sequencer s = .next (s.finishStep e p n g) := by
  have hb : s.busy = true := (program_advances hp).1
  simp only [sequencer, hb, hp, he, if_true]

/-- A step whose effect is the whole of `S`: the matrix, the counters and the next position. -/
theorem sequencer_matrix {len : Nat → Nat} {cost : Fin 7 → Nat} {P : (Fin 4 → Fin 4 → Ct) → Prop}
    (hp : program s.PHASE s.ROUND s.STAGE = some (w, p, n, g)) (he : workEffect w s = some e)
    (hafter : ∃ y, e.after = s.withS (matrixOf y) ∧ P y) (hc : e.Costs len cost) (hf : s.failsWithin len = false) :
    ∃ y, P y ∧ sequencer s =
      .next ((((s.withS (matrixOf y)).withCnt (countersPlus s.CNT cost)).moveTo p n g).tick) := by
  obtain ⟨y, hy, hP⟩ := hafter
  refine ⟨y, hP, ?_⟩
  rw [sequencer_finish hp he, State.finishStep_costs_ok hc hf, hy, State.withS_CNT]

end

/-- Settles O38: a full block with a valid key and without one, and a block with an empty cell. -/
theorem encblkStartsTheRun : Obligations.EncblkStartsTheRun := by
  refine ⟨formatZ_of_row fun _ _ _ => rfl, fun s hs => ⟨fun hb hk => ?_, fun hb hk => ?_, fun ⟨j, hj⟩ => ?_⟩⟩
  · exact exec_encblk hs ((blockFull_iff _).mpr hb) hk
  · exact exec_encblk_noKey hs ((blockFull_iff _).mpr hb) hk
  · exact exec_encblk_badSize hs (blockFull_false hj)

/-- Settles O39: the first step adds round key 0 to the matrix read from `B`; the invariant has the block and the key. -/
theorem loadStepWhitens : Obligations.LoadStepWhitens := by
  refine ⟨fun s b key hp hn hg hb hkey hf => ?_, fun s hs hp => ?_⟩
  · have hprog : program s.PHASE s.ROUND s.STAGE = some (.loadArk, .whitened, 1, .sub) := by rw [hp, hn, hg]; rfl
    exact sequencer_matrix hprog (workEffect_loadArk hb hkey) (arkEffect_after s key _) (arkEffect_costs s key _) hf
  · obtain ⟨hk, hb⟩ := hs.runLoaded (by rw [hp]; rfl)
    exact ⟨hk, (blockFull_iff _).mp hb⟩

/-- Settles O40: three kinds of positions name SubBytes. -/
theorem subStepsSubstitute : Obligations.SubStepsSubstitute := by
  intro s x p hg hpos hx hf
  have hprog : program s.PHASE s.ROUND s.STAGE = some (.sub, p, s.ROUND, .shr) := by
    rcases hpos with ⟨hp, hn, rfl⟩ | ⟨hp, hlo, hhi, rfl⟩ | ⟨hp, hn, rfl⟩
    · rw [hp, hn, hg]; rfl
    · rw [hp, hg]; exact if_pos ⟨hlo, hhi⟩
    · rw [hp, hn, hg]; rfl
  exact sequencer_matrix hprog (workEffect_sub hx) (subEffect_after s x) (subEffect_costs s x) hf

/-- Settles O41: a ShiftRows step issues nothing, so it cannot fail and its count adds nothing. -/
theorem shiftStepsRotate : Obligations.ShiftStepsRotate := by
  intro s next hg hpos hm
  have hprog : program s.PHASE s.ROUND s.STAGE = some (.shr, s.PHASE, s.ROUND, next) := by
    rcases hpos with ⟨hp, hlo, hhi, rfl⟩ | ⟨hp, hn, rfl⟩
    · rw [hp, hg]; exact if_pos ⟨hlo, hhi⟩
    · rw [hp, hn, hg]; rfl
  refine ⟨shiftRows s.S, shiftRows_get s.S, ?_⟩
  rw [sequencer_finish hprog (workEffect_shr ((matrixFull_iff _).mpr hm)),
    State.finishStep_costs_ok (shiftEffect_costs s) s.failsWithin_none, State.withCnt_none, shiftEffect]

/-- The rows of R42's matrix as R124 writes them out. -/
theorem mixEffect_hidden (s : State) {m : HMatrix} {x : Fin 4 → Fin 4 → Ct}
    (hx : ∀ r c : Fin 4, (x r c).hidden = m[r][c]) :
    ∃ y, (mixEffect s x).after = s.withS (matrixOf y) ∧ ∀ r c : Fin 4, (y r c).hidden = (hMixColumns m)[r][c] := by
  obtain ⟨y, hafter, hy⟩ := mixEffect_columns s x
  refine ⟨y, hafter, fun r c => ?_⟩
  obtain ⟨h0, h1, h2, h3⟩ := hy c
  match r with
  | 0 => simpa [hMixColumns, hMatrix, hx] using h0
  | 1 => simpa [hMixColumns, hMatrix, hx] using h1
  | 2 => simpa [hMixColumns, hMatrix, hx] using h2
  | 3 => simpa [hMixColumns, hMatrix, hx] using h3

/-- Settles O42: the MixColumns step of a main round. -/
theorem mixStepsMix : Obligations.MixStepsMix := by
  intro s m hp hg hlo hhi hm hf
  obtain ⟨x, hx, hxm⟩ := State.matrixIs_cells hm
  have hprog : program s.PHASE s.ROUND s.STAGE = some (.mix, .main, s.ROUND, .ark) := by
    rw [hp, hg]; exact if_pos ⟨hlo, hhi⟩
  exact sequencer_matrix hprog (workEffect_mix hx) (mixEffect_hidden s hxm) (mixEffect_costs s x) hf

/-- The AddRoundKey step of a main round leads to the next round, which after round 9 is the final one (R152). -/
theorem program_main_ark {R : Round} (hlo : 1 ≤ R.toNat) (hhi : R.toNat ≤ 9) :
    program .main R .ark = some (.ark, if R.toNat = 9 then .final else .main, R + 1, .sub) := by
  revert R; decide

/-- Settles O43: the round key is that of the round number. -/
theorem arkStepsAddTheRoundKey : Obligations.ArkStepsAddTheRoundKey := by
  intro s n x key hp hg hn hlo hhi hx hkey hf
  have hprog : program s.PHASE s.ROUND s.STAGE =
      some (.ark, if n.val = 9 then .final else .main, s.ROUND + 1, .sub) := by
    rw [hp, hg, program_main_ark (by omega) (by omega), hn]
  exact sequencer_matrix hprog (workEffect_ark hx (stepKey?_eq hkey hn)) (arkEffect_after s key x)
    (arkEffect_costs s key x) hf

/-- Settles O44: the last step stores what AddRoundKey leaves; in phase `DONE` the sequencer rests, and only the commands
that move the position leave it. -/
theorem finalStepStores : Obligations.FinalStepStores := by
  refine ⟨fun s x key hp hn hg hx hkey hf => ?_, fun s hp => ?_, fun i s t hp hencblk hkeyexp hsrst ht => ?_⟩
  · have hprog : program s.PHASE s.ROUND s.STAGE = some (.arkStore, .done, 10, .ark) := by rw [hp, hn, hg]; rfl
    have hwork := workEffect_arkStore hx (stepKey?_eq (n := 10) hkey (by rw [hn]; rfl))
    obtain ⟨y, hafter, hy⟩ := arkEffect_after s key x
    refine ⟨y, toBlock (matrixOf y), hy, fun r c => (toBlock_get _ r c).trans (matrixOf_get y r c), ?_⟩
    rw [sequencer_finish hprog hwork, State.finishStep_costs_ok (arkStoreEffect_costs s key x) hf, arkStoreEffect_eq,
      Effect.stored, hafter, State.withB_CNT, State.withS_CNT, State.withS_S]
  · exact sequencer_not_busy (State.ready_not_busy (.inr hp))
  · obtain ⟨-, -, h⟩ := commandsKeepThePosition i s t hencblk hkeyexp hsrst ht
    rwa [hp] at h

end Sys2Proof.Machine
end

section
/-! Every run ends (spec/44_round_pipeline.md R146, R158): a turn of the sequencer that does not fail is one step nearer
the end, and no turn of it touches the command port or the outside. -/
namespace Sys2Proof.Machine

theorem stepsLeft_of_not_busy {P : Phase} (h : P.busy = false) (R : Round) (G : Stage) : stepsLeft P R G = 0 := by
  cases P
  case idle | done | fault => rfl
  all_goals cases h

theorem stepsLeft_le_of_program {P : Phase} {G : Stage} :
    ∀ R : Round, (program P R G).isSome = true → stepsLeft P R G ≤ 40 := by
  cases P <;> cases G <;> decide

/-- Settles O46: a turn while busy is the fault, or the step that the program lists. -/
theorem sequencerAdvancesByOne : Obligations.SequencerAdvancesByOne := by
  intro s t hs hb ht
  rcases sequencer_cases s with ⟨hidle, -⟩ | ⟨-, -, he⟩ | ⟨w, p, n, g, -, hp, ⟨-, he⟩ | ⟨e, -, ⟨-, he⟩ | ⟨-, he⟩⟩⟩
  · exact absurd hb (by simp [hidle])
  · cases he.symm.trans ht
  · cases he.symm.trans ht
  · cases he.symm.trans ht
    exact .inl rfl
  · cases he.symm.trans ht
    exact .inr (program_advances hp).2

/-- The data of a sequencer step leave the command port and the outside. -/
theorem workEffect_keeps_port {w : Work} {s : State} {e : Effect} (h : workEffect w s = some e) :
    e.after.cmd = s.cmd ∧ e.after.script = s.script := by
  rcases workEffect_writes h with ⟨-, -, m, -, he⟩ | ⟨-, m, -, he⟩ | ⟨-, rk, -, he⟩ <;> simp [he]

/-- No turn of the sequencer takes from the command port or the outside's actions. -/
theorem sequencer_keeps_port {s t : State} (h : sequencer s = .next t) : t.cmd = s.cmd ∧ t.script = s.script := by
  rcases sequencer_next h with rfl | ⟨-, rfl⟩ | ⟨w, p, n, g, e, -, he, rfl⟩
  · exact ⟨rfl, rfl⟩
  · exact ⟨rfl, rfl⟩
  · exact workEffect_keeps_port he

section
variable {s : State} (h : s.Inv)
include h

theorem State.Inv.busy_of_stepsLeft (hb : s.busy = true) :
    0 < stepsLeft s.PHASE s.ROUND s.STAGE ∧ stepsLeft s.PHASE s.ROUND s.STAGE ≤ 40 := by
  have hsome := h.program_isSome hb
  obtain ⟨⟨w, p, n, g⟩, hp⟩ := Option.isSome_iff_exists.mp hsome
  exact ⟨by have := (program_advances hp).2; omega, stepsLeft_le_of_program _ hsome⟩

/-- A turn of the sequencer leaves fewer steps, unless none were left. -/
theorem sequencer_stepsLeft {t : State} (ht : sequencer s = .next t) :
    stepsLeft t.PHASE t.ROUND t.STAGE ≤ stepsLeft s.PHASE s.ROUND s.STAGE - 1 := by
  cases hb : s.busy
  · cases (sequencer_not_busy hb).symm.trans ht
    simp [stepsLeft_of_not_busy hb]
  · rcases sequencerAdvancesByOne s t h hb ht with hf | hsteps
    · simp [hf, stepsLeft]
    · omega

end

/-- Left to itself the machine is not busy after as many turns as its position has steps left, or more. -/
theorem State.Inv.run_ends {s : State} (h : s.Inv) (hc : s.cmd = none) (hs : s.script = []) {k : Nat}
    (hk : stepsLeft s.PHASE s.ROUND s.STAGE ≤ k) :
    ∃ t : State, Host.Core.run core k s = .next t ∧ t.busy = false := by
  induction k generalizing s with
  | zero =>
    refine ⟨s, rfl, Bool.eq_false_iff.mpr fun hb => ?_⟩
    obtain ⟨hpos, -⟩ := h.busy_of_stepsLeft hb
    omega
  | succ k ih =>
    obtain ⟨t, ht⟩ := h.sequencer_answers
    obtain ⟨hc', hs'⟩ := sequencer_keeps_port ht
    have hlt := sequencer_stepsLeft h ht
    rw [run_next ((step_idle hs hc).trans ht)]
    exact ih (h.sequencer ht) (hc'.trans hc) (hs'.trans hs) (by omega)

/-- Settles O47: the steps left bound the turns, and are at most forty. -/
theorem everyRunEnds : Obligations.EveryRunEnds := by
  refine fun s h hc hs => ⟨?_, h.run_ends hc hs (le_refl _)⟩
  cases hb : s.busy
  · simp [stepsLeft_of_not_busy hb]
  · exact (h.busy_of_stepsLeft hb).2

end Sys2Proof.Machine
end

section
/-! Encrypting a block (spec/44_round_pipeline.md R154 to R156). The forty turns of a run and the forty-two stage commands go
through the same stages, so the rounds are followed once, for any turns that perform the four stages (`Performs`); the
sequencer's turns do, and so do the stage commands. -/
namespace Sys2Proof.Machine

/-! Turns, one after the other -/

/-- The turns of the list, taken one after the other from `s`, answer and leave `t`. -/
inductive Turns : List (State → Out) → State → State → Prop
  | nil (s : State) : Turns [] s s
  | cons {f : State → Out} {fs : List (State → Out)} {s t u : State} (h : f s = .next t) (hs : Turns fs t u) :
      Turns (f :: fs) s u

theorem Turns.append {fs gs : List (State → Out)} {s t u : State} (h : Turns fs s t) (h' : Turns gs t u) :
    Turns (fs ++ gs) s u := by
  induction h with
  | nil => exact h'
  | cons hf _ ih => exact .cons hf (ih h')

/-- A run of the machine is a list of steps. -/
theorem Turns.run {k : Nat} {s t : State} (h : Turns (List.replicate k step) s t) :
    Host.Core.run core k s = .next t := by
  induction k generalizing s with
  | zero => cases h; rfl
  | succ k ih =>
    cases h with
    | cons hf hs => exact (run_next hf k).trans (ih hs)

theorem Turns.execAll {is : List Instr} {s t : State} (h : Turns (is.map exec) s t) : execAll is s = .next t := by
  induction is generalizing s with
  | nil => cases h; rfl
  | cons i is ih =>
    cases h with
    | cons hf hs => simp only [Machine.execAll, hf, ih hs]

/-- From every state with `P` the turns lead to a state with `Q`. -/
def Leads (P : State → Prop) (fs : List (State → Out)) (Q : State → Prop) : Prop := ∀ s, P s → ∃ t, Turns fs s t ∧ Q t

section
variable {P Q R : State → Prop} {f : State → Out} {fs gs : List (State → Out)}

theorem Leads.nil : Leads P [] P := fun s hs => ⟨s, .nil s, hs⟩

theorem Leads.one (h : ∀ s, P s → ∃ t, f s = .next t ∧ Q t) : Leads P [f] Q := fun s hs =>
  (h s hs).imp fun t ⟨hf, hQ⟩ => ⟨.cons hf (.nil t), hQ⟩

theorem Leads.append (hfs : Leads P fs Q) (hgs : Leads Q gs R) : Leads P (fs ++ gs) R := by
  intro s hs
  obtain ⟨t, ht, hQ⟩ := hfs s hs
  obtain ⟨u, hu, hR⟩ := hgs t hQ
  exact ⟨u, ht.append hu, hR⟩

end

/-! The hidden values of the stages -/

@[simp] theorem hMatrix_get (f : Fin 4 → Fin 4 → Byte) (r c : Fin 4) : (hMatrix f)[r][c] = f r c := by
  simp [hMatrix]

theorem hFromBlock_hToBlock (m : HMatrix) : hFromBlock (hToBlock m) = m := by
  ext1 r hr
  ext1 c hc
  have hdiv : (4 * c + r) / 4 = c := by omega
  simp [hFromBlock, hToBlock, hMatrix, Nat.mod_eq_of_lt hr, hdiv]

/-- The round key that `hRounds` takes for round `n`. -/
theorem roundKey_getD (rk : Vector HBlock 11) (n : Fin 11) : rk.toList.getD n (Vector.replicate 16 0) = rk[n] := by
  simp

theorem hRounds_succ (b : HBlock) (rk : Vector HBlock 11) (n : Fin 11) {k : Nat} (hn : n.val = k + 1) :
    hRounds b rk (k + 1) = hMainRound rk[n] (hRounds b rk k) := by
  rw [hRounds, ← hn, roundKey_getD]

theorem State.matrixFull_of_matrixIs {s : State} {m : HMatrix} (hm : s.matrixIs m) : matrixFull s.S = true := by
  obtain ⟨x, hx, -⟩ := State.matrixIs_cells hm
  exact (matrixFull_iff _).mpr fun r c => by rw [hx]; rfl

/-- A block image filled from the matrix holds the hidden values of the matrix (R62). -/
theorem State.blockIs_of_matrixIs {s : State} {m : HMatrix} (hm : s.matrixIs m)
    (hB : ∀ r c : Fin 4, s.B[4 * c.val + r.val] = s.S[r][c]) : s.blockIs (hToBlock m) := by
  intro j
  have hr : j.val % 4 < 4 := by omega
  have hc : j.val / 4 < 4 := by omega
  have hcell := hB ⟨j.val % 4, hr⟩ ⟨j.val / 4, hc⟩
  have hval := hm ⟨j.val % 4, hr⟩ ⟨j.val / 4, hc⟩
  rw [← hcell] at hval
  simpa [hToBlock, Nat.div_add_mod] using hval

/-! What holds on the way -/

/-- A turn without a failure is one of those that no listed failure falls on. -/
theorem State.noFailureFor.next {s t : State} {j : Nat} (h : s.noFailureFor (j + 1)) (hf : t.failures = s.failures)
    (hn : t.stepNo = s.stepNo + 1) : t.noFailureFor j := by
  intro f hmem
  rw [hf] at hmem
  rcases h f hmem with h | h <;> omega

/-- `t` is on the way from `s`: its matrix holds `m`, the invocations so far are `c` of each class, the key and the first
error are those of `s`, and the next `j` turns will not fail. -/
structure Underway (s : State) (j : Nat) (c : Fin 7 → Nat) (m : HMatrix) (t : State) : Prop where
  matrix : t.matrixIs m
  counters : t.CNT = countersPlus s.CNT c
  key : t.RK = s.RK
  keyValid : t.KEYV = s.KEYV
  error : t.ERR = s.ERR
  safe : t.noFailureFor j

section
variable {s t : State} {j : Nat} {c : Fin 7 → Nat} {m m' : HMatrix}

theorem Underway.withS (h : Underway s j c m t) {y : Matrix} (hy : ∀ r c : Fin 4, hidden? y[r][c] = some m'[r][c]) :
    Underway s j c m' (t.withS y) where
  __ := h
  matrix := hy

theorem Underway.count (h : Underway s j c m t) (n : Fin 7 → Nat) :
    Underway s j (c + n) m (t.withCnt (countersPlus t.CNT n)) where
  __ := h
  counters := by rw [State.withCnt_CNT, h.counters, countersPlus_plus]; rfl

theorem Underway.withB (h : Underway s j c m t) (b : Block) : Underway s j c m (t.withB b) := { h with }

theorem Underway.stepped (h : Underway s (j + 1) c m t) (p : Phase) (n : Round) (g : Stage) :
    Underway s j c m (t.moveTo p n g).tick where
  __ := h
  safe := h.safe.next rfl rfl

theorem Underway.answered (h : Underway s (j + 1) c m t) : Underway s j c m t.accept where
  __ := h
  safe := h.safe.next rfl rfl

theorem Underway.keyIs (h : Underway s j c m t) {rk : Vector HBlock 11} (hk : s.keyIs rk) : t.keyIs rk := by
  unfold State.keyIs
  rw [h.key]
  exact hk

/-- Loading the matrix is on the way from the state before it. -/
theorem Underway.load {y : Matrix} (hy : ∀ r c : Fin 4, hidden? y[r][c] = some m[r][c]) (hs : s.noFailureFor j) :
    Underway s j 0 m (s.withS y) where
  matrix := hy
  counters := (countersPlus_zero _).symm
  key := rfl
  keyValid := rfl
  error := rfl
  safe := hs

/-- The matrix that a stage leaves, and the invocations that it adds. -/
theorem Underway.stage (h : Underway s j c m t) {y : Fin 4 → Fin 4 → Ct}
    (hy : ∀ r c : Fin 4, (y r c).hidden = m'[r][c]) (n : Fin 7 → Nat) :
    Underway s j (c + n) m' ((t.withS (matrixOf y)).withCnt (countersPlus t.CNT n)) :=
  Underway.count (t := t.withS (matrixOf y)) (h.withS fun r c => by rw [matrixOf_get, ← hy]; rfl) n

end

section
variable {t : State} {m : HMatrix} {x : Fin 4 → Fin 4 → Ct} (hx : ∀ r c : Fin 4, (x r c).hidden = m[r][c])

include hx in
theorem hSubBytes_hidden (r c : Fin 4) : sbox (x r c).hidden = (hSubBytes m)[r][c] := by
  rw [hSubBytes, hMatrix_get, hx]

include hx in
theorem hAddRoundKey_hidden {key : Fin 16 → Ct} {k : HBlock} (hkey : ∀ j : Fin 16, (key j).hidden = k[j]) (r c : Fin 4) :
    (x r c).hidden ^^^ (key (keyOffset r c)).hidden = (hAddRoundKey k m)[r][c] := by
  rw [hAddRoundKey, hMatrix_get, hx, hkey]
  rfl

theorem hShiftRows_hidden (hm : t.matrixIs m) {y : Matrix} (hy : ∀ r c : Fin 4, y[r][c] = t.S[r][(c.val + r.val) % 4])
    (r c : Fin 4) : hidden? y[r][c] = some (hShiftRows m)[r][c] := by
  rw [hShiftRows, hMatrix_get, hy]
  exact hm r ⟨(c.val + r.val) % 4, by omega⟩

end

/-! The rounds -/

section
variable (s : State) (rk : Vector HBlock 11) (pos : Nat → Stage → State → Prop) (turn : Nat → Stage → State → Out)

/-- On the way from `s`, before stage `g` of round `n`, as `pos` says where that is. -/
def Before (j : Nat) (c : Fin 7 → Nat) (m : HMatrix) (n : Nat) (g : Stage) (t : State) : Prop :=
  Underway s j c m t ∧ pos n g t

/-- The turns perform the stages of the rounds 1 to 10 on the way from `s`, one turn for each stage. -/
structure Performs : Prop where
  sub {n j : Nat} {c : Fin 7 → Nat} {m : HMatrix} (hlo : 1 ≤ n) (hhi : n ≤ 10) :
    Leads (Before s pos (j + 1) c m n .sub) [turn n .sub] (Before s pos j (c + Work.sub.cost) (hSubBytes m) n .shr)
  shr {n j : Nat} {c : Fin 7 → Nat} {m : HMatrix} (hlo : 1 ≤ n) (hhi : n ≤ 10) :
    Leads (Before s pos (j + 1) c m n .shr) [turn n .shr]
      (Before s pos j c (hShiftRows m) n (if n = 10 then .ark else .mix))
  mix {n j : Nat} {c : Fin 7 → Nat} {m : HMatrix} (hlo : 1 ≤ n) (hhi : n ≤ 9) :
    Leads (Before s pos (j + 1) c m n .mix) [turn n .mix] (Before s pos j (c + Work.mix.cost) (hMixColumns m) n .ark)
  ark {n : Fin 11} {j : Nat} {c : Fin 7 → Nat} {m : HMatrix} (hlo : 1 ≤ n.val) (hhi : n.val ≤ 9) :
    Leads (Before s pos (j + 1) c m n .ark) [turn n .ark]
      (Before s pos j (c + Work.ark.cost) (hAddRoundKey rk[n] m) (n + 1) .sub)

/-- The turns of round `n`. -/
def roundTurns (n : Nat) : List (State → Out) := [turn n .sub, turn n .shr, turn n .mix, turn n .ark]

/-- The turns of the first `n` rounds. -/
def mainTurns : Nat → List (State → Out)
  | 0 => []
  | n + 1 => mainTurns n ++ roundTurns turn (n + 1)

end

/-- What a main round adds to the counters. -/
def roundCost : Fin 7 → Nat := Work.sub.cost + Work.mix.cost + Work.ark.cost

section
variable {s : State} {rk : Vector HBlock 11} {pos : Nat → Stage → State → Prop} {turn : Nat → Stage → State → Out}
  (h : Performs s rk pos turn) {j : Nat} {c : Fin 7 → Nat} {m : HMatrix}
include h

/-- A main round (R154). -/
theorem Performs.round {n : Fin 11} (hlo : 1 ≤ n.val) (hhi : n.val ≤ 9) :
    Leads (Before s pos (j + 4) c m n .sub) (roundTurns turn n)
      (Before s pos j (c + roundCost) (hMainRound rk[n] m) (n + 1) .sub) := by
  have hshr := h.shr (n := n) (j := j + 2) (c := c + Work.sub.cost) (m := hSubBytes m) hlo (by omega)
  rw [if_neg (by omega)] at hshr
  have hround := (((h.sub hlo (by omega)).append hshr).append (h.mix hlo hhi)).append (h.ark hlo hhi)
  have hcost : c + roundCost = c + Work.sub.cost + Work.mix.cost + Work.ark.cost := by simp only [roundCost, add_assoc]
  rw [hcost]
  exact hround

/-- The first `n` main rounds (R154). -/
theorem Performs.rounds (b : HBlock) {n : Nat} (hn : n ≤ 9) :
    Leads (Before s pos (j + 4 * n) c (hRounds b rk 0) 1 .sub) (mainTurns turn n)
      (Before s pos j (c + n • roundCost) (hRounds b rk n) (n + 1) .sub) := by
  induction n generalizing j with
  | zero => simpa [mainTurns] using Leads.nil
  | succ n ih =>
    have hround := h.round (j := j) (c := c + n • roundCost) (m := hRounds b rk n) (n := ⟨n + 1, by omega⟩)
      (by simp) hn
    rw [← hRounds_succ b rk ⟨n + 1, by omega⟩ rfl, add_assoc, ← succ_nsmul] at hround
    have hrounds := ih (j := j + 4) (by omega)
    rw [add_assoc, show 4 + 4 * n = 4 * (n + 1) by omega] at hrounds
    exact hrounds.append hround

/-- The turns from the first round to the last AddRoundKey (R154). -/
theorem Performs.toLastKey (b : HBlock) :
    Leads (Before s pos (j + 38) c (hRounds b rk 0) 1 .sub) (mainTurns turn 9 ++ [turn 10 .sub] ++ [turn 10 .shr])
      (Before s pos j (c + 9 • roundCost + Work.sub.cost) (hShiftRows (hSubBytes (hRounds b rk 9))) 10 .ark) :=
  ((h.rounds b (j := j + 2) (le_refl 9)).append (h.sub (by omega) (le_refl 10))).append (h.shr (by omega) (le_refl 10))

end

/-! The turns of a run (R146 to R153) -/

/-- The phase in which the sequencer has stage `g` of round `n` (R46). -/
def runPhase (n : Nat) (g : Stage) : Phase :=
  if n = 10 then .final else if n = 1 ∧ g = .sub then .whitened else .main

theorem runPhase_main {n : Nat} {g : Stage} (hn : n ≠ 10) (hg : n = 1 → g ≠ .sub) : runPhase n g = .main := by
  rw [runPhase, if_neg hn, if_neg fun h => hg h.1 h.2]

theorem runPhase_ne_sub (n : Nat) {g : Stage} (hg : g ≠ .sub) : runPhase n g = if n = 10 then .final else .main := by
  simp [runPhase, hg]

/-- A run is before stage `g` of round `n`, and is left to itself. -/
structure InRun (n : Nat) (g : Stage) (t : State) : Prop where
  phase : t.PHASE = runPhase n g
  round : t.ROUND.toNat = n
  stage : t.STAGE = g
  port : t.cmd = none
  script : t.script = []

section
variable {s : State} {rk : Vector HBlock 11} (hk : s.keyIs rk)
include hk

/-- The sequencer's turns perform the stages. -/
theorem run_performs : Performs s rk InRun fun _ _ => step where
  sub {n j c m} hlo hhi := .one fun t ⟨hu, hp⟩ => by
    obtain ⟨x, hx, hxm⟩ := State.matrixIs_cells hu.matrix
    obtain ⟨hphase, hround, hstage, hport, hscript⟩ := hp
    have hpos : t.PHASE = .whitened ∧ t.ROUND = 1 ∧ runPhase n .shr = .main ∨
        t.PHASE = .main ∧ 2 ≤ t.ROUND ∧ t.ROUND ≤ 9 ∧ runPhase n .shr = .main ∨
        t.PHASE = .final ∧ t.ROUND = 10 ∧ runPhase n .shr = .final := by
      rw [hphase]
      by_cases h10 : n = 10
      · exact .inr (.inr ⟨by rw [h10]; rfl, by bv_omega, by rw [h10]; rfl⟩)
      · have hmain : runPhase n .shr = .main := runPhase_main h10 nofun
        by_cases h1 : n = 1
        · exact .inl ⟨by rw [h1]; rfl, by bv_omega, hmain⟩
        · exact .inr (.inl ⟨runPhase_main h10 (absurd · h1), by bv_omega, by bv_omega, hmain⟩)
    obtain ⟨y, hy, ht⟩ := subStepsSubstitute t x _ hstage hpos hx
      (State.failsWithin_of_noFailure hu.safe _)
    exact ⟨_, (step_idle hscript hport).trans ht,
      (hu.stage (fun r c => (hy r c).trans (hSubBytes_hidden hxm r c)) _).stepped _ _ _, rfl, hround, rfl, hport, hscript⟩
  shr {n j c m} hlo hhi := .one fun t ⟨hu, hp⟩ => by
    obtain ⟨hphase, hround, hstage, hport, hscript⟩ := hp
    have hpos : t.PHASE = .main ∧ 1 ≤ t.ROUND ∧ t.ROUND ≤ 9 ∧ (if n = 10 then Stage.ark else .mix) = .mix ∨
        t.PHASE = .final ∧ t.ROUND = 10 ∧ (if n = 10 then Stage.ark else .mix) = .ark := by
      rw [hphase]
      by_cases h10 : n = 10
      · exact .inr ⟨by rw [h10]; rfl, by bv_omega, if_pos h10⟩
      · exact .inl ⟨runPhase_main h10 nofun, by bv_omega, by bv_omega, if_neg h10⟩
    have hnext : runPhase n .shr = runPhase n (if n = 10 then .ark else .mix) := by
      rw [runPhase_ne_sub n (by simp), runPhase_ne_sub n (by split <;> simp)]
    obtain ⟨y, hy, ht⟩ := shiftStepsRotate t _ hstage hpos
      ((matrixFull_iff _).mp (State.matrixFull_of_matrixIs hu.matrix))
    exact ⟨_, (step_idle hscript hport).trans ht, (hu.withS (hShiftRows_hidden hu.matrix hy)).stepped _ _ _,
      hphase.trans hnext, hround, rfl, hport, hscript⟩
  mix {n j c m} hlo hhi := .one fun t ⟨hu, hp⟩ => by
    obtain ⟨hphase, hround, hstage, hport, hscript⟩ := hp
    have hmix : runPhase n .mix = .main := runPhase_main (by omega) nofun
    have hark : runPhase n .ark = .main := runPhase_main (by omega) nofun
    obtain ⟨y, hy, ht⟩ := mixStepsMix t m (hphase.trans hmix) hstage (by bv_omega) (by bv_omega) hu.matrix
      (State.failsWithin_of_noFailure hu.safe _)
    exact ⟨_, (step_idle hscript hport).trans ht, (hu.stage hy _).stepped _ _ _,
      hark.symm, hround, rfl, hport, hscript⟩
  ark {n j c m} hlo hhi := .one fun t ⟨hu, hp⟩ => by
    obtain ⟨x, hx, hxm⟩ := State.matrixIs_cells hu.matrix
    obtain ⟨key, hkey, hkeym⟩ := State.keyIs_cells (hu.keyIs hk)
    obtain ⟨hphase, hround, hstage, hport, hscript⟩ := hp
    have hmain : runPhase n .ark = .main := runPhase_main (by omega) nofun
    have hnext : (if n.val = 9 then Phase.final else .main) = runPhase (n + 1) .sub := by
      split
      · simp [runPhase, *]
      · rw [runPhase_main (by omega) (by omega)]
    obtain ⟨y, hy, ht⟩ := arkStepsAddTheRoundKey t n x (key n) (hphase.trans hmain) hstage hround hlo hhi hx (hkey n)
      (State.failsWithin_of_noFailure hu.safe _)
    exact ⟨_, (step_idle hscript hport).trans ht,
      (hu.stage (fun r c => (hy r c).trans (hAddRoundKey_hidden hxm (hkeym n) r c)) _).stepped _ _ _,
      hnext, by simp; bv_omega, rfl, hport, hscript⟩

/-- The first turn of a run (R147). -/
theorem run_load {b : HBlock} {j : Nat} (hp : s.PHASE = .load) (hn : s.ROUND = 0) (hg : s.STAGE = .ark)
    (hc : s.cmd = none) (hs : s.script = []) (hb : s.blockIs b) (hsafe : s.noFailureFor (j + 1)) :
    ∃ t, step s = .next t ∧ Before s InRun j (0 + Work.loadArk.cost) (hRounds b rk 0) 1 .sub t := by
  obtain ⟨x, hx, hxb⟩ := State.blockIs_cells hb
  obtain ⟨key, hkey, hkeyrk⟩ := State.keyIs_cells hk
  obtain ⟨y, hy, ht⟩ := loadStepWhitens.1 s x (key 0) hp hn hg hx (hkey 0) (State.failsWithin_of_noFailure hsafe _)
  have hval : ∀ r c : Fin 4, (x (blockOffset r c)).hidden = (hFromBlock b)[r][c] := fun r c => by
    rw [hFromBlock, hMatrix_get, hxb]
    rfl
  have hm : ∀ r c : Fin 4, hidden? (matrixOf y)[r][c] = some (hRounds b rk 0)[r][c] := fun r c => by
    rw [matrixOf_get, hidden?, Option.map_some, hy, hAddRoundKey_hidden hval (hkeyrk 0)]
    rfl
  exact ⟨_, (step_idle hs hc).trans ht, ((Underway.load hm hsafe).count _).stepped _ _ _, rfl, rfl, rfl, hc, hs⟩

/-- The last turn of a run (R153). -/
theorem run_store {t : State} {j : Nat} {c : Fin 7 → Nat} {m : HMatrix}
    (ht : Before s InRun (j + 1) c m 10 .ark t) :
    ∃ u, step t = .next u ∧ Underway s j (c + Work.arkStore.cost) (hAddRoundKey rk[10] m) u ∧
      u.blockIs (hToBlock (hAddRoundKey rk[10] m)) ∧ u.PHASE = .done ∧ u.ROUND = 10 ∧ u.STAGE = .ark := by
  obtain ⟨hu, hphase, hround, hstage, hport, hscript⟩ := ht
  obtain ⟨x, hx, hxm⟩ := State.matrixIs_cells hu.matrix
  obtain ⟨key, hkey, hkeym⟩ := State.keyIs_cells (hu.keyIs hk)
  obtain ⟨y, b, hy, hb, ht⟩ := finalStepStores.1 t x (key 10) hphase (by bv_omega) hstage hx (hkey 10)
    (State.failsWithin_of_noFailure hu.safe _)
  have hm := hu.stage (fun r c => (hy r c).trans (hAddRoundKey_hidden hxm (hkeym 10) r c)) Work.arkStore.cost
  have hend := (hm.withB b).stepped .done 10 .ark
  exact ⟨_, (step_idle hscript hport).trans ht, hend,
    State.blockIs_of_matrixIs hend.matrix fun r c => (hb r c).trans (matrixOf_get y r c).symm, rfl, rfl, rfl⟩

end

/-- What a whole encryption adds to the counters: one AddRoundKey, nine main rounds, SubBytes, one AddRoundKey (R155). -/
theorem encryption_cost :
    0 + Work.ark.cost + 9 • roundCost + Work.sub.cost + Work.ark.cost =
      #v[40960, 40960, 5936, 4608, 4608, 4608, 4608].get := by
  funext k; revert k; decide

/-- Settles O48: the first turn, the thirty-eight turns of the rounds, and the last turn. -/
theorem runEncryptsTheBlock : Obligations.RunEncryptsTheBlock := by
  intro s b rk hp hn hg hc hs hb hk hsafe
  obtain ⟨t₁, h₁, hloaded⟩ := run_load (j := 39) hk hp hn hg hc hs hb hsafe
  obtain ⟨t₂, h₂, hrounds⟩ := (run_performs hk).toLastKey (j := 1) b t₁ hloaded
  obtain ⟨t, h, hu, hblock, hphase, hround, hstage⟩ := run_store hk hrounds
  refine ⟨t, Turns.run (.cons h₁ (h₂.append (.cons h (.nil t)))), hblock, ?_, hu.key, hu.keyValid, hu.error, hphase, hround,
    hstage, hu.counters.trans (congrArg _ encryption_cost)⟩
  rw [hEncryptBlock, hFromBlock_hToBlock]
  exact hu.matrix

/-! The stage commands (R156) -/

/-- The command for stage `g` of round `n`. -/
def stageCommand (n : Nat) : Stage → Instr
  | .sub => .subb
  | .shr => .shrow
  | .mix => .mixc
  | .ark => .ark (BitVec.ofNat 8 n)

/-- `t` stands at the position of `s`, where the commands leave it. -/
def SamePosition (s t : State) : Prop := t.PHASE = s.PHASE ∧ t.ROUND = s.ROUND ∧ t.STAGE = s.STAGE

theorem SamePosition.ready {s t : State} (h : SamePosition s t) (hs : s.ready) : t.ready := by
  rwa [State.ready, h.1]

section
variable {s t : State} {j : Nat} {c : Fin 7 → Nat} {m : HMatrix} (hs : s.ready) (hu : Underway s (j + 1) c m t)
  (hp : SamePosition s t)
include hu hp

/-- A command whose effect is the whole of `S` is a stage on the way. -/
theorem command_stage {i : Instr} {e : Effect} {len : Nat → Nat} {n : Fin 7 → Nat} {m' : HMatrix}
    (he : exec i t = .next (t.finishCommand e)) (hc : e.Costs len n)
    (hafter : ∃ y, e.after = t.withS (matrixOf y) ∧ ∀ r c : Fin 4, (y r c).hidden = m'[r][c]) :
    ∃ u, exec i t = .next u ∧ Underway s j (c + n) m' u ∧ SamePosition s u := by
  obtain ⟨y, hy, hfinish⟩ := (State.finishCommand_matrix hafter hc).1 (State.failsWithin_of_noFailure hu.safe len)
  rw [hfinish] at he
  exact ⟨_, he, (hu.stage hy n).answered, hp⟩

include hs

/-- `ARK n` with the expanded key there. -/
theorem command_ark {rk : Vector HBlock 11} (hv : s.KEYV = true) (hk : s.keyIs rk) (n : Fin 11) :
    ∃ u, exec (.ark (BitVec.ofNat 8 n)) t = .next u ∧
      Underway s j (c + Work.ark.cost) (hAddRoundKey rk[n] m) u ∧ SamePosition s u := by
  obtain ⟨x, hx, hxm⟩ := State.matrixIs_cells hu.matrix
  obtain ⟨key, hkey, hkeym⟩ := State.keyIs_cells (hu.keyIs hk)
  obtain ⟨y, hafter, hy⟩ := arkEffect_after t (key n) x
  have hround : roundKey? t n = some (key n) := roundKey?_valid (hu.keyValid.trans hv) (hkey n)
  have hn : (BitVec.ofNat 8 n).toNat = n.val := by simp; omega
  exact command_stage hu hp (exec_ark_finish (hp.ready hs) hn hround hx) (arkEffect_costs t (key n) x)
    ⟨y, hafter, fun r c => (hy r c).trans (hAddRoundKey_hidden hxm (hkeym n) r c)⟩

end

section
variable {s : State} {rk : Vector HBlock 11} (hs : s.ready)
include hs

/-- The stage commands perform the stages. -/
theorem commands_perform (hv : s.KEYV = true) (hk : s.keyIs rk) :
    Performs s rk (fun _ _ => SamePosition s) fun n g => exec (stageCommand n g) where
  sub _ _ := .one fun t ⟨hu, hp⟩ => by
    obtain ⟨x, hx, hxm⟩ := State.matrixIs_cells hu.matrix
    obtain ⟨y, hafter, hy⟩ := subEffect_after t x
    exact command_stage hu hp (exec_subb_finish (hp.ready hs) hx) (subEffect_costs t x)
      ⟨y, hafter, fun r c => (hy r c).trans (hSubBytes_hidden hxm r c)⟩
  shr _ _ := .one fun t ⟨hu, hp⟩ => ⟨_, exec_shrow (hp.ready hs) (State.matrixFull_of_matrixIs hu.matrix),
    (hu.withS (hShiftRows_hidden hu.matrix (shiftRows_get t.S))).answered, hp⟩
  mix _ _ := .one fun t ⟨hu, hp⟩ => by
    obtain ⟨x, hx, hxm⟩ := State.matrixIs_cells hu.matrix
    exact command_stage hu hp (exec_mixc_finish (hp.ready hs) hx) (mixEffect_costs t x) (mixEffect_hidden t hxm)
  ark {n} _ _ _ _ _ := .one fun _ ⟨hu, hp⟩ => command_ark hs hu hp hv hk n

/-- `LDST` starts the way with the matrix of the block (R104). -/
theorem command_load {b : HBlock} {j : Nat} (hb : s.blockIs b) (hsafe : s.noFailureFor (j + 1)) :
    ∃ t, exec .ldst s = .next t ∧ Underway s j 0 (hFromBlock b) t ∧ SamePosition s t := by
  obtain ⟨x, hx, -⟩ := State.blockIs_cells hb
  have hfull : blockFull s.B = true := (blockFull_iff _).mpr fun j => by rw [hx]; rfl
  have hm : ∀ r c : Fin 4, hidden? (fromBlock s.B)[r][c] = some (hFromBlock b)[r][c] := fun r c => by
    rw [fromBlock_get, hb, hFromBlock, hMatrix_get]
    rfl
  exact ⟨_, exec_ldst hs hfull, (Underway.load hm hsafe).answered, rfl, rfl, rfl⟩

/-- `STST` ends the way with the matrix in the block (R105). -/
theorem command_store {t : State} {j : Nat} {c : Fin 7 → Nat} {m : HMatrix} (hu : Underway s (j + 1) c m t)
    (hp : SamePosition s t) :
    ∃ u, exec .stst t = .next u ∧ Underway s j c m u ∧ u.blockIs (hToBlock m) ∧ SamePosition s u := by
  have hend := (hu.withB (toBlock t.S)).answered
  exact ⟨_, exec_stst (hp.ready hs) (State.matrixFull_of_matrixIs hu.matrix), hend,
    State.blockIs_of_matrixIs hend.matrix (toBlock_get t.S), hp⟩

end

/-- Settles O49: `LDST` and the first `ARK`, the thirty-eight commands of the rounds, the last `ARK` and `STST`. -/
theorem stageCommandsEncryptTheBlock : Obligations.StageCommandsEncryptTheBlock := by
  intro s b rk hs hv hb hk hsafe
  obtain ⟨t₁, h₁, hu₁, hp₁⟩ := command_load (j := 41) hs hb hsafe
  obtain ⟨t₂, h₂, hwhitened⟩ := command_ark hs hu₁ hp₁ hv hk 0
  obtain ⟨t₃, h₃, hu₃, hp₃⟩ := (commands_perform hs hv hk).toLastKey (j := 2) b t₂ hwhitened
  obtain ⟨t₄, h₄, hu₄, hp₄⟩ := command_ark hs hu₃ hp₃ hv hk 10
  obtain ⟨t, h, hu, hblock, hphase, hround, hstage⟩ := command_store hs hu₄ hp₄
  have hturns : Turns (stageCommands.map exec) s t := .cons h₁ (.cons h₂ (h₃.append (.cons h₄ (.cons h (.nil t)))))
  refine ⟨t, hturns.execAll, hblock, ?_, hu.key, hu.keyValid, hu.error, hphase, hround, hstage,
    hu.counters.trans (congrArg _ encryption_cost)⟩
  rw [hEncryptBlock, hFromBlock_hToBlock]
  exact hu.matrix

end Sys2Proof.Machine
end

section
/-! Control and status commands (spec/45_control.md): the commands behind the gate while busy and in phase `FAULT`, the
malformed words of each opcode, and what each command answers. -/
namespace Sys2Proof.Machine

section
variable {s : State}

/-! Commands behind the gate (R82, R180) -/

/-- While busy only `RDSR` and `RDCNT` are accepted (R82). -/
theorem State.accepts_encode_busy {i : Instr} (hb : s.busy = true) (h1 : i ≠ .rdsr) (h2 : ∀ k : Byte, i ≠ .rdcnt k) :
    s.accepts (encode i) = false := by
  refine Bool.eq_false_iff.mpr fun ha => ?_
  rcases (s.accepts_iff _).mp ha with hb' | ho
  · exact ne_true_of_eq_false hb' hb
  · rcases decode_statusRead (decodeOfEncode i) ho with hi | ⟨k, hi⟩
    · exact h1 hi
    · exact h2 k hi

/-- In phase `FAULT` every command but `RDSR`, `RDCNT` and `SRST` is answered `FAULTED` (R180). -/
theorem exec_fault {i : Instr} (hf : s.PHASE = .fault) (h1 : i ≠ .rdsr) (h2 : i ≠ .srst)
    (h3 : ∀ k : Byte, i ≠ .rdcnt k) : exec i s = .next (s.answer .faulted 0 none) := by
  obtain ⟨body, hbody⟩ := exec_gated h1 h2 h3
  rw [hbody, State.gate_fault hf]

/-- Of what a command can leave, only the reset state and the starts of the sequencer are in another phase, and the
sequencer does not start in phase `FAULT` (R196). -/
theorem exec_leaves_fault {i : Instr} {t : State} (hf : s.PHASE = .fault) (h : exec i s = .next t)
    (ht : t.PHASE ≠ .fault) : i = .srst := by
  cases exec_next h with
  | resets hi => exact hi
  | startsKeyx _ hr | startsRun _ hr => exact absurd hf (State.ready_not_fault hr)
  | fails => exact absurd rfl ht
  | waits | answers | faulted | rejects | cell | block | matrix | clears => exact absurd hf ht

/-! Malformed words (R87, R88, R180) -/

theorem isStatusRead_iff (opc : Byte) : isStatusRead opc = true ↔ opc = 0x01 ∨ opc = 0x02 := by
  simp [isStatusRead]

/-- A malformed `RDSR` or `RDCNT` is rejected in every phase (R88). -/
theorem runCommand_illegal_statusRead {w : Word} {e : DecodeError} (h : decode w = .error e)
    (ho : opcodeOf w = 0x01 ∨ opcodeOf w = 0x02) (s : State) : runCommand w s = .next (s.reject .illegalCmd) := by
  simp [runCommand, h, State.illegal, (isStatusRead_iff _).mpr ho]

/-- In phase `FAULT` every other illegal word is answered `FAULTED` (R180). -/
theorem runCommand_illegal_fault {w : Word} {e : DecodeError} (h : decode w = .error e)
    (h1 : opcodeOf w ≠ 0x01) (h2 : opcodeOf w ≠ 0x02) (hf : s.PHASE = .fault) :
    runCommand w s = .next (s.answer .faulted 0 none) := by
  have ho : isStatusRead (opcodeOf w) = false :=
    Bool.eq_false_iff.mpr fun ho => ((isStatusRead_iff _).mp ho).elim h1 h2
  simp [runCommand, h, State.illegal, ho, hf]

/-! The commands in the phases that accept them -/

theorem exec_nop (hs : s.ready) : exec .nop s = .next s.accept := by
  simp [exec, execNop, State.gate_ready hs]

theorem exec_clrcnt (hs : s.ready) : exec .clrcnt s = .next (s.withCnt (Vector.replicate 7 0)).accept := by
  simp [exec, execClrcnt, State.gate_ready hs]

/-- After `SRST` the status word reads as at reset (R52). -/
theorem State.srWord_toReset_accept (s : State) : s.toReset.accept.srWord = State.reset.srWord := rfl

/-- Outside phase `FAULT` a read of a counter returns it (R162). -/
theorem State.readCounter_eq (hf : s.PHASE ≠ .fault) (j : Fin 7) : s.readCounter j = s.CNT[j] := if_neg hf

theorem exec_rdcnt {k : Byte} {j : Fin 7} (hk : k.toNat = j.val) (s : State) :
    exec (.rdcnt k) s = .next (s.answer .ok (s.readCounter j) none) := by
  simp [exec, execRdcnt, counterIndex?_some hk]

theorem exec_rdcnt_badIndex {k : Byte} (hk : 6 < k.toNat) (s : State) :
    exec (.rdcnt k) s = .next (s.reject .badIndex) := by
  simp [exec, execRdcnt, counterIndex?_none hk]

end

/-- Settles O12: the reset state field by field; while busy it waits, and in phase `FAULT` `Did` has no other way out;
its malformed words in the phases that accept them. -/
theorem srstResets : Obligations.SrstResets := by
  refine ⟨formatZ_of_row fun _ _ _ => rfl, fun s => ⟨fun hb => ?_, fun hb => ?_, fun i t => exec_leaves_fault, ?_⟩⟩
  · exact State.accepts_encode_busy hb nofun nofun
  · exact ⟨s.toReset.accept, exec_srst hb, rfl, rfl, rfl, rfl, rfl, rfl, rfl, rfl, rfl, s.srWord_toReset_accept, rfl, rfl, rfl,
      rfl, rfl⟩
  · exact fun w e ho he => ⟨runCommand_illegal he, runCommand_illegal_fault he (by simp [ho]) (by simp [ho])⟩

/-- Settles O13: `NOP` stands behind the gate, in each of the three kinds of phases. -/
theorem nopOnlyAnswers : Obligations.NopOnlyAnswers := by
  refine ⟨formatZ_of_row fun _ _ _ => rfl, fun s => ⟨exec_nop, fun hb => ?_, fun hf => ?_⟩⟩
  · exact State.accepts_encode_busy hb nofun nofun
  · exact exec_fault hf nofun nofun nofun

/-- Settles O14: `RDSR` has no gate, and its malformed words are rejected in every phase. -/
theorem rdsrReturnsTheStatusWord : Obligations.RdsrReturnsTheStatusWord :=
  ⟨formatZ_of_row fun _ _ _ => rfl, fun s =>
    ⟨rfl, fun _ _ ho he => runCommand_illegal_statusRead he (.inl ho) s⟩⟩

/-- Settles O16: an operand in range outside phase `FAULT` and in it, an operand above 6, and a malformed word. -/
theorem rdcntReturnsTheCounter : Obligations.RdcntReturnsTheCounter := by
  refine ⟨formatA_of_row fun _ _ _ => rfl, fun k s => ⟨fun j hk hf => ?_, fun hk _ => ?_, fun hk => ?_, ?_⟩⟩
  · rw [exec_rdcnt hk, State.readCounter_eq hf]
  · exact ⟨_, exec_rdcnt (j := ⟨k.toNat, by omega⟩) rfl s⟩
  · exact exec_rdcnt_badIndex hk s
  · exact fun w e ho he => runCommand_illegal_statusRead he (.inr ho) s

/-- Settles O17: `CLRCNT` stands behind the gate, in each of the three kinds of phases. -/
theorem clrcntZeroesTheCounters : Obligations.ClrcntZeroesTheCounters := by
  refine ⟨formatZ_of_row fun _ _ _ => rfl, fun s => ⟨fun hs => ?_, fun hb => ?_, fun hf => ?_⟩⟩
  · exact ⟨Vector.replicate 7 0, exec_clrcnt hs, fun k => by simp⟩
  · exact State.accepts_encode_busy hb nofun nofun
  · exact exec_fault hf nofun nofun nofun

end Sys2Proof.Machine
end

section
/-! Nothing public depends on what an Encrypted Byte holds (spec/60_exceptions.md R187). -/
namespace Sys2Proof.Machine

/-- Erasing an Encrypted Byte is uniform, since nothing of any hidden value is left. -/
theorem uniform_eraseCt : Uniform eraseCt := fun _ _ _ _ _ _ => rfl

/-- Settles O59: erasing Encrypted Bytes is uniform, and a step respects every uniform replacement. -/
theorem nothingPublicDependsOnCiphertexts : Obligations.NothingPublicDependsOnCiphertexts := fun _ _ h =>
  uniform_eraseCt.step_congr h

end Sys2Proof.Machine
end

section
/-! How an accepted command is answered in phases `IDLE` and `DONE` (spec/60_exceptions.md R171, R177, R183, R190): `OK`
with the counters grown by its cost, `PRIM_FAIL` with the fault, or a precise reject. -/
namespace Sys2Proof.Machine

/-- The three ways in which a command is answered where it does not wait and the fault has not been taken before. -/
theorem Did.answered {i : Instr} {s t : State} (hd : Did i s t) (hs : s.ready) :
    (∃ (data : Word) (dout : Option Ct), t.resp = some ⟨.ok, data, dout⟩ ∧
      (i ≠ .clrcnt → i ≠ .srst → t.CNT = countersPlus s.CNT (cost i))) ∨
    t = s.takeFault.answer .primFail 0 none ∨
    ∃ code : Status, code ≠ .ok ∧ code ≠ .primFail ∧ t = s.reject code := by
  cases hd with
  | waits hb => exact absurd hb (ne_true_of_eq_false (State.ready_not_busy hs))
  | faulted hf => exact absurd hf (State.ready_not_fault hs)
  | fails => exact .inr (.inl rfl)
  | rejects code hok _ hprim => exact .inr (.inr ⟨code, hok, hprim, rfl⟩)
  | cell | matrix => exact .inl ⟨_, _, rfl, fun _ _ => rfl⟩
  | answers hz | block _ hz => exact .inl ⟨_, _, rfl, fun _ _ => by rw [hz]; exact (countersPlus_zero _).symm⟩
  | startsKeyx hi | startsRun hi =>
    subst hi
    exact .inl ⟨_, _, rfl, fun _ _ => (countersPlus_zero _).symm⟩
  | clears hi => exact .inl ⟨_, _, rfl, fun hclr _ => absurd hi hclr⟩
  | resets hi => exact .inl ⟨_, _, rfl, fun _ hsrst => absurd hi hsrst⟩

/-- Settles O53: of the three ways to be answered only the reject has another status than `OK` and `PRIM_FAIL`. -/
theorem rejectsArePrecise : Obligations.RejectsArePrecise := by
  intro i s t r hs ht hr hok hprim
  rcases (exec_next ht).answered hs with ⟨data, dout, hresp, -⟩ | rfl | ⟨code, -, -, rfl⟩
  · cases hresp.symm.trans hr
    exact absurd rfl hok
  · cases hr
    exact absurd rfl hprim
  · cases hr
    exact ⟨rfl, rfl, rfl, rfl, rfl, rfl, rfl, rfl, rfl, rfl, rfl, rfl⟩

/-- Settles O55: of the three ways to be answered only the first has status `OK`. -/
theorem countersFollowTheCostTable : Obligations.CountersFollowTheCostTable := by
  intro i s t hclr hsrst hs ht hok
  rcases (exec_next ht).answered hs with ⟨data, dout, -, hcnt⟩ | rfl | ⟨code, hcode, -, rfl⟩
  · exact hcnt hclr hsrst
  · cases hok
  · exact absurd (Option.some.inj hok) hcode

/-! A failing primitive (R177) -/

theorem emptyBlock_get (j : Fin 16) : emptyBlock[j] = none := by simp [emptyBlock]

theorem emptyMatrix_get (r c : Fin 4) : emptyMatrix[r][c] = none := by simp [emptyMatrix]

/-- What a readable operand names: an index and the Encrypted Byte there. -/
theorem State.readable_value {s : State} {a : Byte} (h : s.readable a) :
    ∃ (j : Fin 16) (x : Ct), a.toNat = j.val ∧ s.B[j] = some x := by
  obtain ⟨j, hj, hx⟩ := h
  obtain ⟨x, hx⟩ := Option.isSome_iff_exists.mp hx
  exact ⟨j, x, hj, hx⟩

/-- A command that issues primitives and is not rejected completes an effect that costs what the command's word says. -/
theorem exec_issues {i : Instr} {s : State} (hs : s.ready) (hi : s.issues i) :
    ∃ e : Effect, exec i s = .next (s.finishCommand e) ∧ e.Costs (commandLanes i) (cost i) := by
  cases i
  case encc d imm =>
    exact ⟨_, exec_encc_finish (j := ⟨d.toNat, Nat.lt_succ_of_le hi⟩) hs rfl imm, enccEffect_costs _ _ _⟩
  case xorb d a b =>
    obtain ⟨hd, ha, hb⟩ := hi
    obtain ⟨j, x, hj, hx⟩ := State.readable_value ha
    obtain ⟨k, y, hk, hy⟩ := State.readable_value hb
    exact ⟨_, exec_xorb_finish (i := ⟨d.toNat, by omega⟩) hs rfl hj hk hx hy, xorbEffect_costs _ _ _ _⟩
  case sbox d a =>
    obtain ⟨hd, ha⟩ := hi
    obtain ⟨j, x, hj, hx⟩ := State.readable_value ha
    exact ⟨_, exec_sbox_finish (i := ⟨d.toNat, by omega⟩) hs rfl hj hx, sboxEffect_costs _ _ _⟩
  case gmul d a k =>
    obtain ⟨hd, ha⟩ := hi
    obtain ⟨j, x, hj, hx⟩ := State.readable_value ha
    exact ⟨_, exec_gmul_finish (i := ⟨d.toNat, by omega⟩) hs rfl hj hx k, gmulEffect_costs _ _ _ _⟩
  case subb =>
    obtain ⟨m, -, hm⟩ := State.matrixLoaded_cells hi
    exact ⟨_, exec_subb_finish hs hm, subEffect_costs _ _⟩
  case mixc =>
    obtain ⟨m, -, hm⟩ := State.matrixLoaded_cells hi
    exact ⟨_, exec_mixc_finish hs hm, mixEffect_costs _ _⟩
  case ark n =>
    obtain ⟨hk, ⟨k, hn, hkey⟩, hS⟩ := hi
    obtain ⟨key, -, hkey⟩ := loadedBlock?_full ((blockFull_iff _).mpr hkey)
    obtain ⟨m, -, hm⟩ := State.matrixLoaded_cells hS
    exact ⟨_, exec_ark_finish hs hn (roundKey?_valid hk hkey) hm, arkEffect_costs _ _ _⟩
  all_goals exact hi.elim

/-- What is answered, if anything, is not `PRIM_FAIL`. -/
def NoPrimFail (o : Out) : Prop := ∀ (t : State) (r : Response), o = .next t → t.resp = some r → r.status ≠ .primFail

theorem noPrimFail_answer (s : State) {st : Status} (data : Word) (dout : Option Ct) (h : st ≠ .primFail := by decide) :
    NoPrimFail (.next (s.answer st data dout)) := by
  rintro t r ht hr
  cases ht
  cases hr
  exact h

theorem noPrimFail_accept (s : State) : NoPrimFail (.next s.accept) := noPrimFail_answer s 0 none

theorem noPrimFail_reject (s : State) {code : Status} (h : code ≠ .primFail := by decide) :
    NoPrimFail (.next (s.reject code)) := noPrimFail_answer (s.latchErr code) 0 none h

/-- Only the seven commands that issue primitives can be answered `PRIM_FAIL`. -/
theorem exec_noPrimFail {i : Instr} {s : State} (hs : s.ready)
    (hi : i.mnemonic ∉ ["ENCC", "XORB", "SBOX", "GMUL", "SUBB", "MIXC", "ARK"]) : NoPrimFail (exec i s) := by
  cases i
  case encc | xorb | sbox | gmul | subb | mixc | ark => exact absurd (by simp [Instr.mnemonic]) hi
  case nop => exact exec_nop hs ▸ noPrimFail_accept s
  case rdsr => exact noPrimFail_answer s _ _
  case clrcnt => exact exec_clrcnt hs ▸ noPrimFail_accept _
  case srst => exact exec_srst (State.ready_not_busy hs) ▸ noPrimFail_accept _
  case rdcnt k =>
    simp only [exec, execRdcnt]
    split
    · exact noPrimFail_reject s
    · exact noPrimFail_answer s _ _
  case put d =>
    simp only [exec, execPut, State.gate_ready hs]
    split
    · exact noPrimFail_reject s
    · exact noPrimFail_accept _
  case get j =>
    simp only [exec, execGet, State.gate_ready hs]
    split
    · exact noPrimFail_reject s
    · split
      · exact noPrimFail_reject s
      · exact noPrimFail_answer s _ _
  case mov d j =>
    simp only [exec, execMov, State.gate_ready hs]
    split
    · split
      · exact noPrimFail_reject s
      · exact noPrimFail_accept _
    · exact noPrimFail_reject s
  case ldst | stst | shrow | keyexp =>
    simp only [exec, execLdst, execStst, execShrow, execKeyexp, State.gate_ready hs]
    split
    · exact noPrimFail_accept _
    · exact noPrimFail_reject s
  case rdrk n =>
    simp only [exec, execRdrk, State.gate_ready hs]
    split
    · exact noPrimFail_reject s
    · split
      · exact noPrimFail_reject s
      · exact noPrimFail_accept _
  case encblk =>
    simp only [exec, execEncblk, State.gate_ready hs]
    split
    · split
      · exact noPrimFail_accept _
      · exact noPrimFail_reject s
    · exact noPrimFail_reject s

/-- Settles O45: the failing step of a listed position, whose cells the invariant has filled; the failing completion of a
command that issues primitives; and of the three ways to be answered the one with `PRIM_FAIL`. -/
theorem primFailTakesTheFault : Obligations.PrimFailTakesTheFault := by
  refine ⟨fun s w p n st h hb hp hf => ?_, fun i s hs hi hf => ?_, fun i s t r hs ht hr hst => ?_⟩
  · obtain ⟨e, he⟩ := h.workEffect_eq_some hp
    exact ⟨_, sequencer_fails hb hp he hf, rfl, rfl, rfl, rfl, rfl, emptyBlock_get, emptyMatrix_get, emptyKey_get, rfl⟩
  · obtain ⟨e, he, hc⟩ := exec_issues hs hi
    rw [he, State.finishCommand_costs_fault hc hf]
  · have hi := not_not.mp fun hi => exec_noPrimFail hs hi t r ht hr hst
    rcases (exec_next ht).answered hs with ⟨data, dout, hresp, -⟩ | rfl | ⟨code, -, hcode, rfl⟩
    · cases hresp.symm.trans hr
      cases hst
    · cases hr
      exact ⟨hi, rfl, rfl, rfl, rfl, rfl, rfl, rfl, emptyBlock_get, emptyMatrix_get, emptyKey_get⟩
    · cases hr
      exact absurd hst hcode

end Sys2Proof.Machine
end

section
/-! Phase `FAULT` (spec/60_exceptions.md R180, R182): with an error latched no turn but a reset touches the registers. -/
namespace Sys2Proof.Machine

/-- The registers of two states agree one by one. -/
theorem State.registers_eq {s t : State} (h : t.registers = s.registers) :
    t.PHASE = s.PHASE ∧ t.ROUND = s.ROUND ∧ t.STAGE = s.STAGE ∧ t.ERR = s.ERR ∧ t.KEYV = s.KEYV ∧ t.B = s.B ∧
      t.S = s.S ∧ t.RK = s.RK := by
  simp only [State.registers, State.mk.injEq] at h
  tauto

section
variable {s : State}

/-- Once an error is latched a reject changes nothing (R45, R171). -/
theorem State.reject_latched (h : s.ERR ≠ .ok) (code : Status) : s.reject code = s.answer code 0 none := by
  have hlatch : s.latchErr code = s := by simp [State.latchErr, latch, h]
  rw [State.reject, hlatch]

variable (hf : s.PHASE = .fault) (herr : s.ERR ≠ .ok)
include hf herr

/-- What a command other than `SRST` leaves of the registers in phase `FAULT`. -/
theorem Did.keeps_registers {i : Instr} {t : State} (hd : Did i s t) (hi : i ≠ .srst) : t.registers = s.registers := by
  cases hd with
  | waits | answers | faulted => rfl
  | rejects code => rw [State.reject_latched herr]; rfl
  | resets h => exact absurd h hi
  | fails hr | cell hr | block hr | matrix hr | clears _ hr | startsKeyx _ hr | startsRun _ hr =>
    exact absurd hf (State.ready_not_fault hr)

/-- What an accepted word other than `SRST` leaves of the registers in phase `FAULT`. -/
theorem runCommand_keeps_registers {w : Word} {t : State} (hw : decode w ≠ .ok .srst) (h : runCommand w s = .next t) :
    t.registers = s.registers := by
  rcases runCommand_cases w s with ⟨i, hi, he⟩ | ⟨e, -, ⟨-, he⟩ | he⟩
  · exact (exec_next (he.symm.trans h)).keeps_registers hf herr fun hs => hw (hs ▸ hi)
  · cases he.symm.trans h
    rfl
  · cases he.symm.trans h
    rw [State.reject_latched herr]
    rfl

end

/-- Settles O50: the gate; the two kinds of illegal words and an index above 6, where a reject has nothing to latch; and of
what a command can leave in phase `FAULT` only the reset state is in another. -/
theorem faultAnswersFaulted : Obligations.FaultAnswersFaulted := by
  refine fun s hf => ⟨fun i => exec_fault hf, fun w e he h1 h2 => ?_, fun w e herr he ho => ?_, fun k herr hk => ?_,
    fun i t hi ht => ?_⟩
  · exact runCommand_illegal_fault he h1 h2 hf
  · rw [runCommand_illegal_statusRead he ho, State.reject_latched herr]
  · rw [exec_rdcnt_badIndex hk, State.reject_latched herr]
  · by_contra h
    exact hi (exec_leaves_fault hf ht h)

/-- Settles O51: without reset no agent's turn touches the registers, and the sequencer is not busy. -/
theorem onlyResetLeavesFault : Obligations.OnlyResetLeavesFault := by
  intro s t hf herr hreset ht
  suffices h : t.registers = s.registers from hf ▸ State.registers_eq h
  rcases step_next ht with ⟨es, hs, -⟩ | ⟨hr, u, hu, ⟨w, hw, -, hrun⟩ | ⟨-, rfl | hseq⟩⟩
  · exact absurd (State.resets_hardReset hs) (by simp [hreset])
  · have hsrst : decode w ≠ .ok .srst := fun h => by simp [(State.resets_served hr hw).mpr h] at hreset
    have hfu : u.PHASE = .fault := (State.PHASE_of_registers hu).trans hf
    have herru : u.ERR ≠ .ok := State.ERR_of_registers hu ▸ herr
    exact (runCommand_keeps_registers hfu herru hsrst hrun).trans hu
  · exact hu
  · have hbusy : u.busy = false := by simp [State.busy, State.PHASE_of_registers hu, hf, Phase.busy]
    cases (sequencer_not_busy hbusy).symm.trans hseq
    exact hu

end Sys2Proof.Machine
end

section
/-! Hard reset (spec/70_reset_and_hazards.md R195): what reads the registers reads them as at reset (R52). -/
namespace Sys2Proof.Machine

@[simp] theorem hardReset_srWord (s : State) : (hardReset s).srWord = State.reset.srWord := rfl
@[simp] theorem hardReset_busy (s : State) : (hardReset s).busy = false := rfl
@[simp] theorem hardReset_doneO (s : State) : (hardReset s).doneO = State.reset.doneO := rfl
@[simp] theorem hardReset_faultO (s : State) : (hardReset s).faultO = State.reset.faultO := rfl

/-- Settles O11: the step is `hardReset`, whose registers are those of the reset state (R52); there the sequencer is not
busy and its turn changes nothing. -/
theorem hardResetFromAnyState : Obligations.HardResetFromAnyState := by
  intro s es hs
  obtain ⟨-, -, -, hsr, hkeyv, herr, hphase, hround, hstage, -, hdone, hfault⟩ := resetStateIsEmpty
  refine ⟨hardReset (s.withScript es), step_hardReset hs, ?_⟩
  have hturn := sequencer_not_busy (hardReset_busy (s.withScript es))
  simp [hsr, hkeyv, herr, hphase, hround, hstage, hdone, hfault, hturn]

end Sys2Proof.Machine
end
